-- ==== Sys2Proof/Word.lean ====
section
/-!
DEFINITION. The words of the two streams and the plain data built from them: a 32-bit word, a byte, the 24-bit
`N` field of a header, a binary32 value as its bit pattern (20_memory.md R92, 00_scope.md R10) and a complex sample
(R12). The binary32 arithmetic itself stands in Sys2Proof/Machine/Float.lean.
-/

namespace Sys2Proof

/-- One word of the command stream or of the response stream (R91, R92). -/
abbrev Word := BitVec 32

/-- One byte of a marker or of a payload (R93). -/
abbrev Byte := BitVec 8

/-- The `N` field of a command header (R111), a number or a register selector, 0 to 2^24-1. -/
abbrev Count := BitVec 24

/-- A binary32 value, held as its IEEE 754 bit pattern (R10, R92). -/
abbrev F32 := BitVec 32

/-- A complex sample: the I component `re` and the Q component `im` (R12). -/
structure C32 where
  re : F32
  im : F32
deriving DecidableEq, Repr, Inhabited

/-- The complex zero (+0.0, +0.0) that every delay line starts from (R162). -/
def C32.zero : C32 := ⟨0, 0⟩

end Sys2Proof
end

