-- ==== Sys2Proof/Syntax.lean ====
section
/-!
DEFINITION. The commands, one constructor per row of spec/opcode_table.json, with the operand words of its format
(30_encoding.md R110 to R113). An operand is kept as it arrives (R116); a reserved `N` is kept, since a command with a
non-zero one still executes, by raising BAD_LENGTH (R119). Where `N` counts the operands, the list's length is `N`.
-/

namespace Sys2Proof

/-- A decoded command. -/
inductive Instr where
  /-- 0x00 `NOP`, format F0, R150. -/
  | nop (n : Count)
  /-- 0x01 `READ_REG`, format FR, R151: `sel` is `{window[23:20], index[19:0]}`. -/
  | readReg (sel : Count)
  /-- 0x02 `CORE_RESET`, format F0, R152. -/
  | coreReset (n : Count)
  /-- 0x10 `FIR_LOAD_REAL`, format FT, R162: `N` tap words. -/
  | firLoadReal (taps : List Word)
  /-- 0x11 `FIR_LOAD_COMPLEX`, format FT, R163: `N` tap words, interleaved; an odd `N` is an error of the command. -/
  | firLoadComplex (ws : List Word)
  /-- 0x12 `FIR_FILTER`, format FS, R165. -/
  | firFilter (n : Count) (i q : Word)
  /-- 0x13 `FIR_FILTER_BLOCK`, format FB, R166. -/
  | firFilterBlock (cap : Word) (xs : List C32)
  /-- 0x14 `FIR_CONVOLVE`, format FB, R170. -/
  | firConvolve (cap : Word) (xs : List C32)
  /-- 0x20 `FLL_CONFIG`, format FF, R201: `N` band-edge taps. -/
  | fllConfig (sps rolloff bw flags : Word) (taps : List C32)
  /-- 0x21 `FLL_PROCESS`, format FB, R205. -/
  | fllProcess (cap : Word) (xs : List C32)
  /-- 0x30 `COSTAS_CONFIG`, format FC, R241: `N` parameter words, 2 or 3 of them legal. -/
  | costasConfig (params : List Word)
  /-- 0x31 `COSTAS_PROCESS`, format FB, R243. -/
  | costasProcess (cap : Word) (xs : List C32)
  /-- 0x40 `TR_CONFIG`, format FK5, R270. -/
  | trConfig (n : Count) (sps kp ki cmax mode : Word)
  /-- 0x41 `TR_PROCESS`, format FB, R274. -/
  | trProcess (cap : Word) (xs : List C32)
  /-- 0x50 `FR_CONFIG`, format FM, R321: the two lengths in bytes, the flags and the two packed markers. -/
  | frConfig (msLen meLen : BitVec 12) (flags : Word) (ms me : List Word)
  /-- 0x51 `FR_PUSH_BITS`, format FX, R323: `n` bits in packed words. -/
  | frPushBits (n : Count) (ws : List Word)
  /-- 0x60 `PIPE_CONFIG`, format FK1, R370. -/
  | pipeConfig (n : Count) (flags : Word)
  /-- 0x61 `PIPE_PROCESS`, format FB, R373. -/
  | pipeProcess (cap : Word) (xs : List C32)
deriving DecidableEq, Repr

end Sys2Proof
end

