-- ==== Sys2Proof/WellFormed.lean ====
section
/-!
DEFINITION. Which commands are words of the command stream: where a header's `N` counts the operands, their number fits
in 24 bits, and packed operands have exactly the words that `N` calls for (30_encoding.md R111, R112).
-/

namespace Sys2Proof

/-- The number of words that `k` packed bytes take, `ceil(k/4)` (R93). -/
def byteWords (k : Nat) : Nat := (k + 3) / 4

/-- The number of words that `k` packed bits take, `ceil(k/32)` (R94). -/
def bitWords (k : Nat) : Nat := (k + 31) / 32

/-- The checks of `WellFormed`, as a Boolean. -/
def Instr.wf : Instr → Bool
  | .nop _ => true
  | .readReg _ => true
  | .coreReset _ => true
  | .firLoadReal taps => taps.length < 2 ^ 24
  | .firLoadComplex ws => ws.length < 2 ^ 24
  | .firFilter _ _ _ => true
  | .firFilterBlock _ xs => xs.length < 2 ^ 24
  | .firConvolve _ xs => xs.length < 2 ^ 24
  | .fllConfig _ _ _ _ taps => taps.length < 2 ^ 24
  | .fllProcess _ xs => xs.length < 2 ^ 24
  | .costasConfig params => params.length < 2 ^ 24
  | .costasProcess _ xs => xs.length < 2 ^ 24
  | .trConfig _ _ _ _ _ _ => true
  | .trProcess _ xs => xs.length < 2 ^ 24
  | .frConfig msLen meLen _ ms me =>
      ms.length == byteWords msLen.toNat && me.length == byteWords meLen.toNat
  | .frPushBits n ws => ws.length == bitWords n.toNat
  | .pipeConfig _ _ => true
  | .pipeProcess _ xs => xs.length < 2 ^ 24

/-- The command can stand in a command stream. -/
abbrev WellFormed (i : Instr) : Prop := i.wf = true

end Sys2Proof
end

