-- ==== Sys2Proof/Decode.lean ====
section
/-!
DEFINITION. The decoder of the command stream, total on every list of words (30_encoding.md R110 to R116, R119 to R121),
and after it the encoder, written from the same tables. Byte order on a byte transport is R92's.
-/

namespace Sys2Proof

/-- The command formats of R112. -/
inductive Format where
  | f0 | fr | ft | fs | fb | ff | fc | fk5 | fk1 | fm | fx
deriving DecidableEq, Repr

/-- What the decoder finds at the head of the command stream (R115). -/
inductive Decoded where
  /-- A whole command and the words after it. -/
  | command (i : Instr) (rest : List Word)
  /-- No word is available: the CORE is idle (R416). -/
  | idle
  /-- The header needs more operand words than have arrived: the CORE holds (R121). -/
  | truncated
  /-- The header's `OPC` is unassigned: one word is consumed and ILLEGAL_OPCODE raised (R120). -/
  | illegalOpcode (rest : List Word)
deriving DecidableEq, Repr

/-- The `OPC` field of a header (R111). -/
def headerOpc (h : Word) : Byte := h.extractLsb' 24 8

/-- The `N` field of a header (R111). -/
def headerN (h : Word) : Count := h.extractLsb' 0 24

/-- The format of an opcode (R113); none for an unassigned one (R120). -/
def formatOf (opc : Byte) : Option Format :=
  match opc.toNat with
  | 0x00 => some .f0
  | 0x01 => some .fr
  | 0x02 => some .f0
  | 0x10 => some .ft
  | 0x11 => some .ft
  | 0x12 => some .fs
  | 0x13 => some .fb
  | 0x14 => some .fb
  | 0x20 => some .ff
  | 0x21 => some .fb
  | 0x30 => some .fc
  | 0x31 => some .fb
  | 0x40 => some .fk5
  | 0x41 => some .fb
  | 0x50 => some .fm
  | 0x51 => some .fx
  | 0x60 => some .fk1
  | 0x61 => some .fb
  | _ => none

/-- The start marker's length in an `FM` header, `N[11:0]` (R112). -/
def msLenOf (n : Count) : BitVec 12 := n.extractLsb' 0 12

/-- The end marker's length in an `FM` header, `N[23:12]` (R112). -/
def meLenOf (n : Count) : BitVec 12 := n.extractLsb' 12 12

/-- The operand word count `W`, from the header alone (R112, R114). -/
def operandCount (f : Format) (n : Count) : Nat :=
  match f with
  | .f0 => 0
  | .fr => 0
  | .ft => n.toNat
  | .fs => 2
  | .fb => 1 + 2 * n.toNat
  | .ff => 4 + 2 * n.toNat
  | .fc => n.toNat
  | .fk5 => 5
  | .fk1 => 1
  | .fm => 1 + byteWords (msLenOf n).toNat + byteWords (meLenOf n).toNat
  | .fx => bitWords n.toNat

/-- Two words per complex sample, I first, then Q (R92, R112). -/
def pairWords : List Word → List C32
  | a :: b :: ws => ⟨a, b⟩ :: pairWords ws
  | _ => []

/-- The command of an assigned opcode, from `N` and its operand words (R112, R113). `assemble` answers none only where
the words are not the `W` of R114. -/
def assemble (opc : Byte) (n : Count) (ops : List Word) : Option Instr :=
  match opc.toNat, ops with
  | 0x00, _ => some (.nop n)
  | 0x01, _ => some (.readReg n)
  | 0x02, _ => some (.coreReset n)
  | 0x10, ws => some (.firLoadReal ws)
  | 0x11, ws => some (.firLoadComplex ws)
  | 0x12, [i, q] => some (.firFilter n i q)
  | 0x13, cap :: ws => some (.firFilterBlock cap (pairWords ws))
  | 0x14, cap :: ws => some (.firConvolve cap (pairWords ws))
  | 0x20, sps :: rolloff :: bw :: flags :: ws => some (.fllConfig sps rolloff bw flags (pairWords ws))
  | 0x21, cap :: ws => some (.fllProcess cap (pairWords ws))
  | 0x30, ws => some (.costasConfig ws)
  | 0x31, cap :: ws => some (.costasProcess cap (pairWords ws))
  | 0x40, [sps, kp, ki, cmax, mode] => some (.trConfig n sps kp ki cmax mode)
  | 0x41, cap :: ws => some (.trProcess cap (pairWords ws))
  | 0x50, flags :: ws =>
      some (.frConfig (msLenOf n) (meLenOf n) flags
        (ws.take (byteWords (msLenOf n).toNat)) (ws.drop (byteWords (msLenOf n).toNat)))
  | 0x51, ws => some (.frPushBits n ws)
  | 0x60, [flags] => some (.pipeConfig n flags)
  | 0x61, cap :: ws => some (.pipeProcess cap (pairWords ws))
  | _, _ => none

/-- The decode procedure of R115 at the head of the command stream. -/
def decode (ws : List Word) : Decoded :=
  match ws with
  | [] => .idle
  | h :: rest =>
    match formatOf (headerOpc h) with
    | none => .illegalOpcode rest
    | some f =>
      if rest.length < operandCount f (headerN h) then .truncated
      else
        match assemble (headerOpc h) (headerN h) (rest.take (operandCount f (headerN h))) with
        | none => .truncated
        | some i => .command i (rest.drop (operandCount f (headerN h)))

/-- The four bytes of a transported word, least significant first (R92). -/
def wordOfBytes (b0 b1 b2 b3 : Byte) : Word := b3 ++ b2 ++ b1 ++ b0

/-- Byte `j` of an instruction whose bits are numbered from the first word's bit 0. -/
def tableByte (w j : Nat) : Byte := BitVec.ofNat 8 (w >>> (8 * j))

/-- Word `k` of that instruction, read from its four bytes in R92's order. -/
def tableWord (w k : Nat) : Word :=
  wordOfBytes (tableByte w (4 * k)) (tableByte w (4 * k + 1)) (tableByte w (4 * k + 2)) (tableByte w (4 * k + 3))

/-- The words of an instruction given by its first `nbits` bits, every operand bit above them 0: the header and the
operand words it calls for (R114). -/
def tableWords (nbits w : Nat) : List Word :=
  let v := w % 2 ^ nbits
  let h := tableWord v 0
  let count := match formatOf (headerOpc h) with
    | none => 0
    | some f => operandCount f (headerN h)
  (List.range (1 + count)).map (tableWord v)

/-- The instruction the decoder reads from a row's bits. -/
def decodeTableWord (nbits w : Nat) : Option Instr :=
  match decode (tableWords nbits w) with
  | .command i _ => some i
  | _ => none

/-- A header word from its two fields (R111). -/
def header (opc : Byte) (n : Count) : Word := opc ++ n

/-- Complex samples as words, I first, then Q (R92). -/
def unpairWords : List C32 → List Word
  | [] => []
  | c :: cs => c.re :: c.im :: unpairWords cs

/-- The words of a command (R110 to R113): its header and its operand words. -/
def encode : Instr → List Word
  | .nop n => [header 0x00 n]
  | .readReg sel => [header 0x01 sel]
  | .coreReset n => [header 0x02 n]
  | .firLoadReal taps => header 0x10 (BitVec.ofNat 24 taps.length) :: taps
  | .firLoadComplex ws => header 0x11 (BitVec.ofNat 24 ws.length) :: ws
  | .firFilter n i q => [header 0x12 n, i, q]
  | .firFilterBlock cap xs => header 0x13 (BitVec.ofNat 24 xs.length) :: cap :: unpairWords xs
  | .firConvolve cap xs => header 0x14 (BitVec.ofNat 24 xs.length) :: cap :: unpairWords xs
  | .fllConfig sps rolloff bw flags taps =>
      header 0x20 (BitVec.ofNat 24 taps.length) :: sps :: rolloff :: bw :: flags :: unpairWords taps
  | .fllProcess cap xs => header 0x21 (BitVec.ofNat 24 xs.length) :: cap :: unpairWords xs
  | .costasConfig params => header 0x30 (BitVec.ofNat 24 params.length) :: params
  | .costasProcess cap xs => header 0x31 (BitVec.ofNat 24 xs.length) :: cap :: unpairWords xs
  | .trConfig n sps kp ki cmax mode => [header 0x40 n, sps, kp, ki, cmax, mode]
  | .trProcess cap xs => header 0x41 (BitVec.ofNat 24 xs.length) :: cap :: unpairWords xs
  | .frConfig msLen meLen flags ms me => header 0x50 (meLen ++ msLen) :: flags :: (ms ++ me)
  | .frPushBits n ws => header 0x51 n :: ws
  | .pipeConfig n flags => [header 0x60 n, flags]
  | .pipeProcess cap xs => header 0x61 (BitVec.ofNat 24 xs.length) :: cap :: unpairWords xs

end Sys2Proof
end

