-- ==== Sys2Proof/Config.lean ====
section
/-!
DEFINITION. What one build of the CORE fixes and the spec leaves OPEN (00_scope.md R5, R6;
92_eei_decisions.md "Open parameters"; 93_implementation_defined.md I1 to I5). Each free value is an opaque constant
without a body: no proof can learn anything about it beyond the legal values that the spec states, which the definitions
over it keep. A free function that the spec limits takes the limit as an argument and answers a function with the proof
that it keeps it, so no step computes the limit; the instance it asks for says only that such a function exists.
-/

namespace Sys2Proof.Config

/-- DESIGN CHOICE (log entry 1): the free number behind `P_FIR_MAX_TAPS`. -/
opaque rawFirMaxTaps : Nat
/-- DESIGN CHOICE (log entry 1): the free number behind `P_FLL_MAX_TAPS`. -/
opaque rawFllMaxTaps : Nat
/-- DESIGN CHOICE (log entry 1): the free number behind `P_TR_QCAP`. -/
opaque rawTrQcap : Nat
/-- DESIGN CHOICE (log entry 1): the free number behind `P_FR_RING_CAP`. -/
opaque rawFrRingCap : Nat
/-- DESIGN CHOICE (log entry 1): the free number behind `P_FR_MAX_MARKER`. -/
opaque rawFrMaxMarker : Nat
/-- DESIGN CHOICE (log entry 1): the free number behind `P_FFT_MAX`. -/
opaque rawFftMax : Nat

/-- `P_FIR_MAX_TAPS`, any value of 1 .. 2^24-1 (R5). -/
def firMaxTaps : Nat := 1 + rawFirMaxTaps % (2 ^ 24 - 1)

/-- `P_FLL_MAX_TAPS`, any value of 1 .. 2^24-1 (R5). -/
def fllMaxTaps : Nat := 1 + rawFllMaxTaps % (2 ^ 24 - 1)

/-- `P_TR_QCAP`, any value of 4 .. 2^32-1: R5 states the lower end, R9 and the 32-bit register of R78 the upper. -/
def trQcap : Nat := 4 + rawTrQcap % (2 ^ 32 - 4)

/-- `P_FR_RING_CAP`, any value of 1 .. 2^32-1: R5 states the lower end, R9 and the 32-bit register of R78 the upper. -/
def frRingCap : Nat := 1 + rawFrRingCap % (2 ^ 32 - 1)

/-- `P_FR_MAX_MARKER`, any value of 1 .. min(4095, P_FR_RING_CAP) (R5). -/
def frMaxMarker : Nat := 1 + rawFrMaxMarker % min 4095 frRingCap

/-- `P_FFT_MAX`, any power of two of 1 .. 2^31 (R5). -/
def fftMax : Nat := 2 ^ (rawFftMax % 32)

/-- `P_COS` (R6, I1): one fixed function per build, any that is `legal` at every argument. What R6 asks of it is the
argument that Sys2Proof/Machine/Trig.lean gives (log entry 2). -/
opaque cosFree (legal : F32 → F32 → Prop) [Inhabited {f : F32 → F32 // ∀ p, legal p (f p)}] :
    {f : F32 → F32 // ∀ p, legal p (f p)}

/-- `P_SIN` (R6, I1): one fixed function per build, any that is `legal` at every argument (log entry 2). -/
opaque sinFree (legal : F32 → F32 → Prop) [Inhabited {f : F32 → F32 // ∀ p, legal p (f p)}] :
    {f : F32 → F32 // ∀ p, legal p (f p)}

/-- The type of `P_FFTCONV` (R6, R170): from the taps, their kind, the input samples, the FFT size and an index, the sample
of that index of the FFT-mode result. -/
abbrev FftFunction := List C32 → Bool → List C32 → Nat → Nat → C32

/-- `P_TOL` and `P_FFTCONV` (R6, R170, I2, I4, I6): any tolerance and any fixed function that are `legal` together. What R6
and R172 ask of them is the argument that Sys2Proof/Machine/FftMode.lean gives (log entry 4). -/
opaque fftFree (legal : Rat → FftFunction → Prop) [Inhabited {b : Rat × FftFunction // legal b.1 b.2}] :
    {b : Rat × FftFunction // legal b.1 b.2}

/-- `P_NAN` (R6, I3): the free bits behind the encoding of the `k`-th NaN that an operation returns. -/
opaque nanBits (k : Nat) : F32

end Sys2Proof.Config
end

