-- ==== Sys2Proof/Machine/Float.lean ====
section
/-!
DEFINITION. The binary32 arithmetic of 00_scope.md R9 to R17: exact results over the integers, one rounding to nearest,
ties to even, subnormals kept, nothing fused. A finite value is an integer multiple of 2^-149, so sums are exact over
`Int` in that unit and products and quotients are exact fractions of it. An operation whose IEEE 754 result is a NaN draws
its encoding (R6 `P_NAN`, 93_implementation_defined.md I3) from `Config.nanBits`, the next draw each time: arithmetic runs
in `Draw`, which carries the number of draws so far.
-/

namespace Sys2Proof.Machine

/-- The sign bit. -/
def fSign (v : F32) : Bool := v.getLsbD 31

/-- The biased exponent. -/
def fExp (v : F32) : Nat := (v.extractLsb' 23 8).toNat

/-- The fraction field. -/
def fFrac (v : F32) : Nat := (v.extractLsb' 0 23).toNat

/-- The value is a NaN, quiet or signalling (R116, I3). -/
def isNaN (v : F32) : Bool := fExp v == 255 && fFrac v != 0

/-- The value is an infinity. -/
def isInf (v : F32) : Bool := fExp v == 255 && fFrac v == 0

/-- The value is neither an infinity nor a NaN (R11). -/
def isFinite (v : F32) : Bool := fExp v != 255

/-- The magnitude of a finite value in units of 2^-149. (An infinity gets 2^277 units, above every finite value, which is
what comparisons need.) -/
def fMag (v : F32) : Nat := if fExp v = 0 then fFrac v else (2 ^ 23 + fFrac v) * 2 ^ (fExp v - 1)

/-- The value in units of 2^-149. -/
def fVal (v : F32) : Int := if fSign v then -(fMag v : Int) else (fMag v : Int)

/-- The integer nearest to `a / b`, a tie going to the even one. -/
def roundTiesEven (a b : Nat) : Nat :=
  if 2 * (a % b) < b then a / b
  else if b < 2 * (a % b) then a / b + 1
  else a / b + a / b % 2

/-- The exponent `e` of the spacing 2^e (in units of 2^-149) of the binary32 values around a magnitude of `q` whole
units: 0 up to the first binade above the subnormals, then one more per binade. -/
def spacingExp (q : Nat) : Nat := Nat.log2 q - 23

/-- The low 31 bits of the binary32 value nearest to the magnitude `num / den` units of 2^-149, ties to even, an
infinity past the largest finite value (R10). -/
def roundMag (num den : Nat) : Nat :=
  min (spacingExp (num / den) * 2 ^ 23 + roundTiesEven num (den * 2 ^ spacingExp (num / den))) 0x7F800000

/-- The value with a sign and the low 31 bits. -/
def fPack (sign : Bool) (bits : Nat) : F32 := BitVec.ofNat 32 (bits + if sign then 2 ^ 31 else 0)

/-- An infinity. -/
def fInf (sign : Bool) : F32 := fPack sign 0x7F800000

/-- Negation flips the sign bit (R10): the low 31 bits, those of a NaN too, stay (log entry 13). -/
def fNeg (v : F32) : F32 := fPack (!fSign v) (v.toNat % 2 ^ 31)

/-- The sum, rounded once; none where it is a NaN. An exact zero of two unlike terms is +0
(PRESUMED, IEEE 754; log entry 13). -/
def fAddCore (a b : F32) : Option F32 :=
  if isNaN a || isNaN b then none
  else if isInf a then (if isInf b && fSign a != fSign b then none else some a)
  else if isInf b then some b
  else if fVal a + fVal b = 0 then some (fPack (fSign a && fSign b) 0)
  else some (fPack (fVal a + fVal b < 0) (roundMag (fVal a + fVal b).natAbs 1))

/-- The difference, rounded once: the sum with the negated second operand. -/
def fSubCore (a b : F32) : Option F32 := fAddCore a (fNeg b)

/-- The product, rounded once; none where it is a NaN. -/
def fMulCore (a b : F32) : Option F32 :=
  if isNaN a || isNaN b then none
  else if isInf a || isInf b then
    (if fMag a = 0 || fMag b = 0 then none else some (fInf (fSign a != fSign b)))
  else some (fPack (fSign a != fSign b) (roundMag (fMag a * fMag b) (2 ^ 149)))

/-- The quotient, rounded once; none where it is a NaN. -/
def fDivCore (a b : F32) : Option F32 :=
  if isNaN a || isNaN b then none
  else if isInf a then (if isInf b then none else some (fInf (fSign a != fSign b)))
  else if isInf b then some (fPack (fSign a != fSign b) 0)
  else if fMag b = 0 then (if fMag a = 0 then none else some (fInf (fSign a != fSign b)))
  else some (fPack (fSign a != fSign b) (roundMag (fMag a * 2 ^ 149) (fMag b)))

/-- Arithmetic with the number of NaN draws so far. -/
abbrev Draw := StateM Nat

/-- Run a computation from a number of draws: its result and the number after it. -/
def runDraw {α : Type} (m : Draw α) (k : Nat) : α × Nat := m k

/-- A NaN encoding made from free bits. Bits that are one already stay, so every encoding of I3's set can come out. -/
def nanOf (v : F32) : F32 :=
  if isNaN (v ||| 0x7F800000) then v ||| 0x7F800000 else v ||| 0x7FC00000

/-- The next NaN of the build's draws (R6 `P_NAN`, I3). -/
def drawNaN : Draw F32 := fun k => (nanOf (Config.nanBits k), k + 1)

/-- An operation's result: its value, or a drawn NaN. -/
def orNaN : Option F32 → Draw F32
  | some v => pure v
  | none => drawNaN

/-- `a + b` (R10). -/
def fAdd (a b : F32) : Draw F32 := orNaN (fAddCore a b)
/-- `a - b` (R10). -/
def fSub (a b : F32) : Draw F32 := orNaN (fSubCore a b)
/-- `a * b` (R10). -/
def fMul (a b : F32) : Draw F32 := orNaN (fMulCore a b)
/-- `a / b` (R10). -/
def fDiv (a b : F32) : Draw F32 := orNaN (fDivCore a b)

/-- `a < b`; false with a NaN operand, and the two zeros compare equal (R11). -/
def fLt (a b : F32) : Bool := !isNaN a && !isNaN b && decide (fVal a < fVal b)

/-- `a <= b`; false with a NaN operand (R11). -/
def fLe (a b : F32) : Bool := !isNaN a && !isNaN b && decide (fVal a ≤ fVal b)

/-- 1.0 -/
def f1 : F32 := 0x3F800000
/-- -1.0 -/
def fMinus1 : F32 := 0xBF800000
/-- 2.0 -/
def f2 : F32 := 0x40000000
/-- 4.0 -/
def f4 : F32 := 0x40800000
/-- 6.0 -/
def f6 : F32 := 0x40C00000
/-- 1048576.0, 2^20, the largest legal samples per symbol (R270). -/
def fSpsMax : F32 := 0x49800000
/-- `PI_F` (R17). -/
def piF : F32 := 0x40490FDB
/-- `TWO_PI_F` (R17). -/
def twoPiF : F32 := 0x40C90FDB
/-- `DAMP_DEFAULT` (R17). -/
def dampDefault : F32 := 0x3F34FDF4

/-- The largest integer `<= v` of a finite, non-negative value (R9), the only kind a floor is taken of (R281). Any other
`v`, which no run reaches, gives 0 (log entry 6). -/
def fFloor (v : F32) : Nat := if isFinite v && !fSign v then fMag v / 2 ^ 149 else 0

/-- `v - floor(v)` of a finite, non-negative value, which is exact (R281). Any other `v`, which no run reaches, gives
+0.0 (log entry 6). -/
def fFraction (v : F32) : F32 :=
  if isFinite v && !fSign v then fPack false (roundMag (fMag v % 2 ^ 149) 1) else 0

/-- The hard sign decision (R13): +1.0 for either zero, -1.0 for a NaN. -/
def sgn (v : F32) : F32 := if fLe 0 v then f1 else fMinus1

/-- R14. -/
def sanitize (v : F32) : F32 := if isFinite v then v else 0

/-- R15: wrap into `[-B, B]` by one step of 2*pi, or restart at +0.0. -/
def wrap (v bound : F32) : Draw F32 := do
  let p := sanitize v
  let p ←
    if fLt bound p then fSub p twoPiF
    else if fLt p (fNeg bound) then fAdd p twoPiF
    else pure p
  pure (if fLt bound p || fLt p (fNeg bound) then 0 else p)

/-- R16. -/
def clamp (v lo hi : F32) : F32 := if fLt v lo then lo else if fLt hi v then hi else v

/-- `cadd` of R12. -/
def cAdd (a b : C32) : Draw C32 := do
  let re ← fAdd a.re b.re
  let im ← fAdd a.im b.im
  pure ⟨re, im⟩

/-- `cmul` of R12. -/
def cMul (a b : C32) : Draw C32 := do
  let rr ← fMul a.re b.re
  let ii ← fMul a.im b.im
  let re ← fSub rr ii
  let ri ← fMul a.re b.im
  let ir ← fMul a.im b.re
  let im ← fAdd ri ir
  pure ⟨re, im⟩

/-- `rmul` of R12: a real value times a complex one. -/
def rMul (h : F32) (a : C32) : Draw C32 := do
  let re ← fMul h a.re
  let im ← fMul h a.im
  pure ⟨re, im⟩

/-- `conj` of R12. -/
def conj (a : C32) : C32 := ⟨a.re, fNeg a.im⟩

/-- `norm` of R12, the squared magnitude. -/
def cNorm (a : C32) : Draw F32 := do
  let rr ← fMul a.re a.re
  let ii ← fMul a.im a.im
  fAdd rr ii

/-- The exact value of a finite F32. -/
def fRat (v : F32) : Rat := (fVal v : Rat) / 2 ^ 149

/-- One unit in the last place of a finite value: the spacing of the binary32 values of its binade. -/
def ulpOf (v : F32) : Rat := 2 ^ (fExp v - 1) / 2 ^ 149

/-- `v` is a finite value within 2 ulp of the real number `y` (R6). DEDUCED (log entry 2): the ulp is the larger one of `v`
and `y`, so it is taken at any binary32 value between the two. -/
def NearReal (v : F32) (y : ℝ) : Prop :=
  isFinite v = true ∧
  ∃ w : F32, isFinite w = true ∧ (fRat w : ℝ) ∈ Set.uIcc (fRat v : ℝ) y ∧ |(fRat v : ℝ) - y| ≤ 2 * (ulpOf w : ℝ)

end Sys2Proof.Machine
end

