-- ==== Sys2Proof/Machine/State.lean ====
section
/-!
DEFINITION. The state of the CORE as plain data: the record `S` of 10_state.md (R30 to R42) with its reset values (R79,
R440), the two streams at its ports (20_memory.md R91), the hidden FFT cache of R96, and the model's own counter of NaN
draws. The capacity parameters are no state: they stand in Sys2Proof/Config.lean.
-/

namespace Sys2Proof.Machine

/-- A FIR instance (R32). -/
structure FirState where
  /-- The instance has been constructed. -/
  cfg : Bool
  /-- The taps are complex. -/
  cplx : Bool
  /-- Tap count, "numTaps". -/
  n : Nat
  /-- The taps `h[0..n-1]` in load order. -/
  taps : List C32
  /-- The circular delay line. -/
  dl : List C32
  /-- The write cursor. -/
  cur : Nat
deriving DecidableEq, Repr

/-- R32, the reset column. -/
def FirState.reset : FirState := { cfg := false, cplx := false, n := 0, taps := [], dl := [], cur := 0 }

/-- The band-edge frequency-locked loop (R35). -/
structure FllState where
  cfg : Bool
  /-- Samples per symbol. -/
  sps : F32
  /-- Rolloff, held for diagnostics only. -/
  rolloff : F32
  /-- Loop bandwidth. -/
  bw : F32
  /-- Band-edge assignment select, `EDGE_SWAP`. -/
  swap : Bool
  /-- Frequency gain. -/
  beta : F32
  /-- Frequency clamp. -/
  fmax : F32
  /-- NCO phase accumulator. -/
  phase : F32
  /-- Frequency estimate, radians per sample. -/
  freq : F32
  /-- Lower band-edge filter. -/
  lo : FirState
  /-- Upper band-edge filter. -/
  up : FirState
deriving DecidableEq, Repr

/-- R35, the reset column. -/
def FllState.reset : FllState :=
  { cfg := false, sps := 0, rolloff := 0, bw := 0, swap := false, beta := 0, fmax := 0, phase := 0, freq := 0,
    lo := FirState.reset, up := FirState.reset }

/-- The Costas phase loop (R37). -/
structure CosState where
  cfg : Bool
  /-- The rate argument of the construction (the symbol rate, C2). -/
  fs : F32
  /-- Loop bandwidth in Hz. -/
  bwhz : F32
  /-- Damping. -/
  damp : F32
  /-- Phase gain. -/
  alpha : F32
  /-- Frequency gain. -/
  beta : F32
  /-- The phase estimate, theta. -/
  phase : F32
  /-- Frequency estimate, radians per symbol. -/
  freq : F32
deriving DecidableEq, Repr

/-- R37, the reset column. -/
def CosState.reset : CosState :=
  { cfg := false, fs := 0, bwhz := 0, damp := 0, alpha := 0, beta := 0, phase := 0, freq := 0 }

/-- The timing interpolator that `mode` selects (R38, R271). -/
inductive Interp where
  /-- Mode 0. -/
  | linear
  /-- Mode 1, 4-point. -/
  | lagrange
deriving DecidableEq, Repr

/-- The Mueller-Muller timing recovery (R38). -/
structure TrState where
  cfg : Bool
  /-- Samples per symbol. -/
  sps : F32
  /-- Proportional gain. -/
  kp : F32
  /-- Integral gain. -/
  ki : F32
  /-- Correction clamp. -/
  cmax : F32
  /-- Interpolator. -/
  mode : Interp
  /-- The retained sample queue `Q`, oldest first. -/
  queue : List C32
  /-- Integer base index into the queue. -/
  base : Nat
  /-- Fractional offset. -/
  mu : F32
  /-- PI integrator, `ncoIntegral`. -/
  integ : F32
  /-- A previous decision exists. -/
  havePrev : Bool
  /-- The previous interpolated sample. -/
  prevX : C32
  /-- The previous decision. -/
  prevD : C32
deriving DecidableEq, Repr

/-- R38, the reset column. -/
def TrState.reset : TrState :=
  { cfg := false, sps := 0, kp := 0, ki := 0, cmax := 0, mode := .linear, queue := [], base := 0, mu := 0, integ := 0,
    havePrev := false, prevX := C32.zero, prevD := C32.zero }

/-- The frame / protocol extractor (R40, R320). -/
structure FrState where
  cfg : Bool
  /-- Bit packing order: false = the first bit is bit 7. -/
  lsbFirst : Bool
  /-- The start marker `MS`. -/
  startMarker : List Byte
  /-- The end marker `ME`. -/
  endMarker : List Byte
  /-- false = SEARCHING, true = IN_FRAME. -/
  inFrame : Bool
  /-- The unmatched bit tail retained while SEARCHING. -/
  tail : List Bool
  /-- The payload ring buffer. -/
  ring : List Byte
  /-- The partial-byte packer. -/
  pk : List Bool
  /-- Bits consumed since construction, modulo 8. -/
  bitpos : BitVec 3
  /-- The locked byte alignment. -/
  align : BitVec 3
deriving DecidableEq, Repr

/-- R40, the reset column. -/
def FrState.reset : FrState :=
  { cfg := false, lsbFirst := false, startMarker := [], endMarker := [], inFrame := false, tail := [], ring := [], pk := [],
    bitpos := 0, align := 0 }

/-- The orchestrator's options and its differential-decoding state (R42). -/
structure PipeState where
  /-- Run the FLL stage. -/
  fllEn : Bool
  /-- Differentially decode decisions before the framer. -/
  diffEn : Bool
  /-- The quadrant-to-bit-pair table. -/
  demap : BitVec 8
  /-- The previous quadrant index. -/
  diffPrev : BitVec 2
deriving DecidableEq, Repr

/-- R42, the reset column. -/
def PipeState.reset : PipeState := { fllEn := false, diffEn := false, demap := 0xE4, diffPrev := 0 }

/-- The machine's state. -/
structure State where
  /-- `S.fir`, the matched-filter instance (R34). -/
  fir : FirState
  /-- `S.fll` (R35). -/
  fll : FllState
  /-- `S.cos` (R37). -/
  cos : CosState
  /-- `S.tr` (R38). -/
  tr : TrState
  /-- `S.fr` (R40). -/
  fr : FrState
  /-- `S.pipe` (R42). -/
  pipe : PipeState
  /-- The FFT sizes whose tap transform is cached, oldest first (R96, R100): hidden, no response shows it
  (DESIGN CHOICE, log entry 5). -/
  fftCache : List Nat
  /-- `S.cmdpos`, the command-stream words consumed since power-on, modulo 2^32 (R31). -/
  cmdpos : BitVec 32
  /-- The words of the command stream that the host has written and the CORE has not consumed, in order (R91;
  log entries 7 and 8). -/
  cmdIn : List Word
  /-- The response stream produced so far, in order (R91; log entry 8). -/
  resp : List Word
  /-- THE MODEL'S OWN field: how many NaN encodings have been drawn (I3; log entry 3). -/
  nanDraws : Nat
deriving DecidableEq, Repr

/-- The machine right after power-on reset (R79, R440, R441): nothing written to its command port, nothing produced.
DESIGN CHOICE (log entry 3): the draw counter starts at 0, and nothing may rest on that. -/
def State.reset : State :=
  { fir := FirState.reset, fll := FllState.reset, cos := CosState.reset, tr := TrState.reset, fr := FrState.reset,
    pipe := PipeState.reset, fftCache := [], cmdpos := 0, cmdIn := [], resp := [], nanDraws := 0 }

/-- Why a step could stop for good. There is no such reason: "Nothing in this hardware is fatal" (R403). Every error of
the spec is a status word in the response of a command that completes, and a CORE short of words holds its state (R121,
R416), which is a next state equal to the old one. So this type has no constructor, and no step answers a fault
(log entry 9). -/
inductive Fault where
deriving DecidableEq, Repr

/-- Why the model could refuse an instruction. -/
inductive Refusal where
  /-- Raised by exec's arm of an instruction that has no meaning yet; safe, since nothing is claimed of it. No arm raises
  it in this model: every command of the table has its meaning. -/
  | notModelled (mnemonic : String)
deriving DecidableEq, Repr

/-- What executing a command answers. -/
abbrev Result := Host.Outcome State Fault Refusal

end Sys2Proof.Machine
end

