-- ==== Sys2Proof/Machine/Flags.lean ====
section
/-!
DEFINITION. The flags of 10_state.md R43 as the host reads them: the status word with `ERR` and `MORE`
(30_encoding.md R117, 60_exceptions.md R400) and the packed control registers (R46 to R49). The CORE has no arithmetic
condition codes.
-/

namespace Sys2Proof.Machine

/-- The errors a command can raise (R400). -/
inductive ErrorCode where
  | illegalOpcode | badLength | notConfigured | emptyTaps | mismatchedTaps | tapsTooLong | invalidParam | emptyMarker
  | markerTooLong | capacity | queueOverflow | fftTooLarge | badRegister
deriving DecidableEq, Repr

/-- The code of an error in the `ERR` field (R400). -/
def errorNumber : ErrorCode → Byte
  | .illegalOpcode => 0x01
  | .badLength => 0x02
  | .notConfigured => 0x03
  | .emptyTaps => 0x04
  | .mismatchedTaps => 0x05
  | .tapsTooLong => 0x06
  | .invalidParam => 0x07
  | .emptyMarker => 0x08
  | .markerTooLong => 0x09
  | .capacity => 0x0A
  | .queueOverflow => 0x0B
  | .fftTooLarge => 0x0C
  | .badRegister => 0x0D

/-- A flag as a bit. -/
def flagBit (b : Bool) : BitVec 1 := BitVec.ofBool b

/-- The status word (R117): `ERR` in bits 7:0, `MORE` in bit 8, zero above. -/
def statusWord (err : Byte) (more : Bool) : Word := (0 : BitVec 23) ++ flagBit more ++ err

/-- `FIR_CTRL` (R46). -/
def firCtrl (f : FirState) : Word := (0 : BitVec 30) ++ flagBit f.cplx ++ flagBit f.cfg

/-- `FLL_CTRL` (R47). -/
def fllCtrl (f : FllState) : Word := (0 : BitVec 30) ++ flagBit f.swap ++ flagBit f.cfg

/-- `COS_CTRL` (R48). -/
def cosCtrl (c : CosState) : Word := (0 : BitVec 31) ++ flagBit c.cfg

/-- The `MODE` bit of an interpolator (R38). -/
def modeBit : Interp → BitVec 1
  | .linear => 0
  | .lagrange => 1

/-- `TR_CTRL` (R49). -/
def trCtrl (t : TrState) : Word :=
  (0 : BitVec 27) ++ flagBit (t.prevD.im == fMinus1) ++ flagBit (t.prevD.re == fMinus1) ++ flagBit t.havePrev
    ++ modeBit t.mode ++ flagBit t.cfg

/-- `FR_CTRL` (R49): PK_NBITS in bits 14:12, BITPOS in 10:8, ALIGN in 6:4. -/
def frCtrl (f : FrState) : Word :=
  (0 : BitVec 17) ++ BitVec.ofNat 3 f.pk.length ++ (0 : BitVec 1) ++ f.bitpos ++ (0 : BitVec 1) ++ f.align
    ++ (0 : BitVec 1) ++ flagBit f.inFrame ++ flagBit f.lsbFirst ++ flagBit f.cfg

/-- `PIPE_CTRL` (R49): DIFF_PREV in bits 17:16, DEMAP in 15:8. -/
def pipeCtrl (p : PipeState) : Word :=
  (0 : BitVec 14) ++ p.diffPrev ++ p.demap ++ (0 : BitVec 6) ++ flagBit p.diffEn ++ flagBit p.fllEn

end Sys2Proof.Machine
end

