-- ==== Sys2Proof/Machine/Operands.lean ====
section
/-!
DEFINITION. The operand and result forms of the commands (20_memory.md R92 to R95, 30_encoding.md R112, R116, R118): words
as they arrive, real taps, packed bytes and packed bits, and the packing of results. Complex taps and samples are paired and
unpaired by `pairWords` and `unpairWords` of Sys2Proof/Decode.lean.
-/

namespace Sys2Proof.Machine

/-- Real taps as complex ones with imaginary part +0.0 (R162). -/
def realTaps (ws : List Word) : List C32 := ws.map (fun h => ⟨h, 0⟩)

/-- The four bytes of a word, byte 0 the least significant (R93). -/
def bytesOfWord (w : Word) : List Byte :=
  [w.extractLsb' 0 8, w.extractLsb' 8 8, w.extractLsb' 16 8, w.extractLsb' 24 8]

/-- The first `len` bytes of packed words; the bytes after them are ignored (R93, I9). -/
def unpackBytes (len : Nat) (ws : List Word) : List Byte := (ws.flatMap bytesOfWord).take len

/-- Bytes four per word, the unused high bytes of the last word zero (R93). -/
def packBytes : List Byte → List Word
  | [] => []
  | [a] => [wordOfBytes a 0 0 0]
  | [a, b] => [wordOfBytes a b 0 0]
  | [a, b, c] => [wordOfBytes a b c 0]
  | a :: b :: c :: d :: rest => wordOfBytes a b c d :: packBytes rest

/-- The 32 bits of a word, bit 0 first (R94). -/
def bitsOfWord (w : Word) : List Bool := (List.range 32).map w.getLsbD

/-- The first `len` bits of packed words; the bits after them are ignored (R94, I9). -/
def unpackBits (len : Nat) (ws : List Word) : List Bool := (ws.flatMap bitsOfWord).take len

/-- A natural number as a result word (R118), modulo 2^32 (log entry 10). -/
def natWord (k : Nat) : Word := BitVec.ofNat 32 k

/-- The frames of a response (R118): their number, then each one's length in bytes and its packed bytes. -/
def frameWords (frames : List (List Byte)) : List Word :=
  natWord frames.length :: frames.flatMap (fun f => natWord f.length :: packBytes f)

end Sys2Proof.Machine
end

