-- ==== Sys2Proof/Machine/Ops.lean ====
section
/-!
DEFINITION. The named operations over State that the meanings share: reading and writing the internal memories
(20_memory.md R90), replacing one block's state, appending to the response stream, RAISING AN ERROR (this hardware's only
exception, 60_exceptions.md R401, R402) and completing a command, and what the host does at the ports. The CORE has no
trap and so no return from one (R407, R408).
-/

namespace Sys2Proof.Machine

/-- `MemRead(M, i)` of R8. An index at or above the length names no element; no command reaches one (R33, R39), and the
read is then (+0.0, +0.0) (log entry 6). -/
def memRead (m : List C32) (i : Nat) : C32 := m.getD i C32.zero

/-- `MemWrite(M, i, v)` of R8. An index at or above the length writes nothing (log entry 6). -/
def memWrite (m : List C32) (i : Nat) (v : C32) : List C32 := m.set i v

/-- `k` elements of (+0.0, +0.0): a cleared delay line (R162). -/
def memClear (k : Nat) : List C32 := List.replicate k C32.zero

/-- Replace `S.fir`. -/
def State.withFir (s : State) (f : FirState) : State := { s with fir := f }
/-- Replace `S.fll`. -/
def State.withFll (s : State) (f : FllState) : State := { s with fll := f }
/-- Replace `S.cos`. -/
def State.withCos (s : State) (c : CosState) : State := { s with cos := c }
/-- Replace `S.tr`. -/
def State.withTr (s : State) (t : TrState) : State := { s with tr := t }
/-- Replace `S.fr`. -/
def State.withFr (s : State) (f : FrState) : State := { s with fr := f }
/-- Replace `S.pipe`. -/
def State.withPipe (s : State) (p : PipeState) : State := { s with pipe := p }
/-- Replace the hidden FFT cache (R96). -/
def State.withCache (s : State) (c : List Nat) : State := { s with fftCache := c }
/-- Record how many NaN encodings have been drawn. -/
def State.withDraws (s : State) (k : Nat) : State := { s with nanDraws := k }
/-- Append words to the response stream (R91). -/
def State.emit (s : State) (ws : List Word) : State := { s with resp := s.resp ++ ws }

/-- `raise Error(code)` (R8, R401, R402): the response is the status word alone, with `ERR = code` and `MORE = 0`, and no
state write of the command takes effect. -/
def raise (e : ErrorCode) (s : State) : Result := .next (s.emit [statusWord (errorNumber e) false])

/-- A command that succeeds (R117): its state writes take effect, and the response is the status word with `ERR = 0` and
then the result words. -/
def complete (more : Bool) (words : List Word) (s : State) : Result := .next (s.emit (statusWord 0 more :: words))

/-- The state after a command has left the stream (R31, R115): `cmdIn` holds the words after it, and `cmdpos` has
advanced by the words consumed, modulo 2^32. -/
def State.consume (s : State) (rest : List Word) (count : Nat) : State :=
  { s with cmdIn := rest, cmdpos := s.cmdpos + BitVec.ofNat 32 count }

/-- What a step makes of a command's result: the command leaves the stream. -/
def afterCommand (rest : List Word) (count : Nat) : Result → Result
  | .next s => .next (s.consume rest count)
  | .fault r => .fault r
  | .refused r => .refused r

/-- The reset state as `CORE_RESET` makes it (R152, R440): every block as after power-on and the FFT cache empty; the
command counter, the two streams and the build's NaN draws go on. -/
def State.coreReset (s : State) : State :=
  { State.reset with cmdpos := s.cmdpos, cmdIn := s.cmdIn, resp := s.resp, nanDraws := s.nanDraws }

/-- The host writes words to the command port (R91): they follow the words not yet consumed
(log entry 7). -/
def State.hostSend (s : State) (ws : List Word) : State := { s with cmdIn := s.cmdIn ++ ws }

/-- A power-on reset from outside (R441): the reset state, with a partial command discarded and no response for it.
Responses already produced stay produced (log entry 14). -/
def State.powerOn (s : State) : State := { State.reset with resp := s.resp, nanDraws := s.nanDraws }

/-- The length of a per-sample memory is what its instance says (R33), and no memory is longer than its capacity in
R90's table. This hardware has no addressed memory: its memories are lists of elements with no second form, so this is
all that "well formed" means for them (log entry 11). -/
def Memory.wf (s : State) : Bool :=
  s.fir.taps.length == s.fir.n && s.fir.dl.length == s.fir.n && decide (s.fir.n ≤ Config.firMaxTaps)
  && s.fll.lo.taps.length == s.fll.lo.n && s.fll.lo.dl.length == s.fll.lo.n && decide (s.fll.lo.n ≤ Config.fllMaxTaps)
  && s.fll.up.taps.length == s.fll.up.n && s.fll.up.dl.length == s.fll.up.n && decide (s.fll.up.n ≤ Config.fllMaxTaps)
  && decide (s.tr.queue.length ≤ Config.trQcap)
  && decide (s.fr.startMarker.length ≤ Config.frMaxMarker) && decide (s.fr.endMarker.length ≤ Config.frMaxMarker)
  && decide (s.fr.ring.length ≤ Config.frRingCap)
  && decide (s.fr.tail.length ≤ 8 * s.fr.startMarker.length + 7) && decide (s.fr.pk.length ≤ 7)

end Sys2Proof.Machine
end

