-- ==== Sys2Proof/Machine/Control.lean ====
section
/-!
DEFINITION. The register map (10_state.md R44 to R50, R78) and the three control commands (40_control.md).
-/

namespace Sys2Proof.Machine

/-- A scalar register of window 0 (R45 to R49, R78); none for an unassigned number. -/
def scalarRegister (i : Nat) (s : State) : Option Word :=
  match i with
  | 0x00000 => some 0x5150534B
  | 0x00001 => some 0x00000001
  | 0x00002 => some s.cmdpos
  | 0x00010 => some (firCtrl s.fir)
  | 0x00011 => some (natWord s.fir.n)
  | 0x00012 => some (natWord s.fir.cur)
  | 0x00020 => some (fllCtrl s.fll)
  | 0x00021 => some (natWord s.fll.lo.n)
  | 0x00022 => some s.fll.sps
  | 0x00023 => some s.fll.rolloff
  | 0x00024 => some s.fll.bw
  | 0x00025 => some 0x00000000
  | 0x00026 => some s.fll.beta
  | 0x00027 => some s.fll.fmax
  | 0x00028 => some s.fll.phase
  | 0x00029 => some s.fll.freq
  | 0x0002A => some (natWord s.fll.lo.cur)
  | 0x00030 => some (cosCtrl s.cos)
  | 0x00031 => some s.cos.fs
  | 0x00032 => some s.cos.bwhz
  | 0x00033 => some s.cos.damp
  | 0x00034 => some s.cos.alpha
  | 0x00035 => some s.cos.beta
  | 0x00036 => some s.cos.phase
  | 0x00037 => some s.cos.freq
  | 0x00040 => some (trCtrl s.tr)
  | 0x00041 => some s.tr.sps
  | 0x00042 => some s.tr.kp
  | 0x00043 => some s.tr.ki
  | 0x00044 => some s.tr.cmax
  | 0x00045 => some s.tr.integ
  | 0x00046 => some s.tr.mu
  | 0x00047 => some (natWord s.tr.base)
  | 0x00048 => some (natWord s.tr.queue.length)
  | 0x00049 => some s.tr.prevX.re
  | 0x0004A => some s.tr.prevX.im
  | 0x00050 => some (frCtrl s.fr)
  | 0x00051 => some (natWord s.fr.startMarker.length)
  | 0x00052 => some (natWord s.fr.endMarker.length)
  | 0x00053 => some (natWord s.fr.ring.length)
  | 0x00054 => some (natWord s.fr.tail.length)
  | 0x00060 => some (pipeCtrl s.pipe)
  | 0x000F0 => some (natWord Config.firMaxTaps)
  | 0x000F1 => some (natWord Config.fllMaxTaps)
  | 0x000F2 => some (natWord Config.trQcap)
  | 0x000F3 => some (natWord Config.frRingCap)
  | 0x000F4 => some (natWord Config.frMaxMarker)
  | 0x000F5 => some (natWord Config.fftMax)
  | _ => none

/-- The I component of element `i` of a complex memory with `bound` elements (R50). -/
def windowRe (m : List C32) (bound i : Nat) : Option Word := if i < bound then some (memRead m i).re else none

/-- The Q component of element `i` of a complex memory with `bound` elements (R50). -/
def windowIm (m : List C32) (bound i : Nat) : Option Word := if i < bound then some (memRead m i).im else none

/-- Element `i` of a byte memory, zero-extended (R50). -/
def windowByte (m : List Byte) (i : Nat) : Option Word := (m[i]?).map (fun b => (0 : BitVec 24) ++ b)

/-- The register of a window and an index (R44, R50, R151); none where the selector names none. -/
def readRegister (w i : Nat) (s : State) : Option Word :=
  match w with
  | 0 => scalarRegister i s
  | 1 => windowRe s.fir.taps s.fir.n i
  | 2 => windowIm s.fir.taps s.fir.n i
  | 3 => windowRe s.fir.dl s.fir.n i
  | 4 => windowIm s.fir.dl s.fir.n i
  | 5 => windowRe s.fll.lo.taps s.fll.lo.n i
  | 6 => windowIm s.fll.lo.taps s.fll.lo.n i
  | 7 => windowRe s.fll.up.taps s.fll.up.n i
  | 8 => windowIm s.fll.up.taps s.fll.up.n i
  | 9 => windowRe s.tr.queue s.tr.queue.length i
  | 10 => windowIm s.tr.queue s.tr.queue.length i
  | 11 => windowByte s.fr.ring i
  | 12 => windowByte s.fr.startMarker i
  | 13 => windowByte s.fr.endMarker i
  | _ => none

/-- The window field of a selector, `N[23:20]` (R44). -/
def selWindow (sel : Count) : Nat := (sel.extractLsb' 20 4).toNat

/-- The index field of a selector, `N[19:0]` (R44). -/
def selIndex (sel : Count) : Nat := (sel.extractLsb' 0 20).toNat

/-- `NOP` (R150). -/
def execNop (n : Count) (s : State) : Result :=
  if n ≠ 0 then raise .badLength s else complete false [] s

/-- `READ_REG` (R151). -/
def execReadReg (sel : Count) (s : State) : Result :=
  match readRegister (selWindow sel) (selIndex sel) s with
  | none => raise .badRegister s
  | some v => complete false [v] s

/-- `CORE_RESET` (R152, R440, R442). -/
def execCoreReset (n : Count) (s : State) : Result :=
  if n ≠ 0 then raise .badLength s else complete false [] s.coreReset

end Sys2Proof.Machine
end

