-- ==== Sys2Proof/Machine/Fir.lean ====
section
/-!
DEFINITION. The FIR filtering engine (41_fir.md): the filter step that every FIR instance shares, and the four
`FIR_*` commands that load and stream. FIR_CONVOLVE stands in Machine/FftMode.lean.
-/

namespace Sys2Proof.Machine

/-- The accumulation loop of R160 over window elements `i`, `i+1`, ... (`left` of them), oldest first. -/
def firAccumulate (f : FirState) : Nat → Nat → C32 → Draw C32
  | 0, _, acc => pure acc
  | left + 1, i, acc => do
    let w := memRead f.dl ((f.cur + i) % f.n)
    let h := memRead f.taps (f.n - 1 - i)
    let p ← if f.cplx then cMul h w else rMul h.re w
    let acc' ← cAdd acc p
    firAccumulate f left (i + 1) acc'

/-- The delay line and the cursor after one input (R160). -/
def firPush (f : FirState) (x : C32) : FirState :=
  { f with dl := memWrite f.dl f.cur x, cur := (f.cur + 1) % f.n }

/-- `firStep` of R160: the output and the instance after it. -/
def firStep (f : FirState) (x : C32) : Draw (C32 × FirState) := do
  let y ← firAccumulate (firPush f x) f.n 0 C32.zero
  pure (y, firPush f x)

/-- A block step: one stage's per-sample step over the samples of a block, in order (R166, R205, R243). -/
def runBlock {σ : Type} (step : σ → C32 → Draw (C32 × σ)) : σ → List C32 → Draw (List C32 × σ)
  | f, [] => pure ([], f)
  | f, x :: xs => do
    let r ← step f x
    let rs ← runBlock step r.2 xs
    pure (r.1 :: rs.1, rs.2)

/-- A constructed FIR instance: its taps, a cleared delay line and the cursor at 0 (R162, R163, R201). -/
def firConstruct (cplx : Bool) (taps : List C32) : FirState :=
  { cfg := true, cplx := cplx, n := taps.length, taps := taps, dl := memClear taps.length, cur := 0 }

/-- `FIR_LOAD_REAL` (R162). -/
def execFirLoadReal (taps : List Word) (s : State) : Result :=
  if taps.length = 0 then raise .emptyTaps s
  else if Config.firMaxTaps < taps.length then raise .tapsTooLong s
  else complete false [] ((s.withFir (firConstruct false (realTaps taps))).withCache [])

/-- `FIR_LOAD_COMPLEX` (R163). -/
def execFirLoadComplex (ws : List Word) (s : State) : Result :=
  if ws.length = 0 then raise .emptyTaps s
  else if ws.length % 2 = 1 then raise .mismatchedTaps s
  else if Config.firMaxTaps < ws.length / 2 then raise .tapsTooLong s
  else complete false [] ((s.withFir (firConstruct true (pairWords ws))).withCache [])

/-- `FIR_FILTER` (R165). -/
def execFirFilter (n : Count) (i q : Word) (s : State) : Result :=
  if n ≠ 0 then raise .badLength s
  else if s.fir.cfg = false then raise .notConfigured s
  else
    let r := runDraw (firStep s.fir ⟨i, q⟩) s.nanDraws
    complete false [r.1.1.re, r.1.1.im] ((s.withFir r.1.2).withDraws r.2)

/-- `FIR_FILTER_BLOCK` (R166). -/
def execFirFilterBlock (cap : Word) (xs : List C32) (s : State) : Result :=
  if s.fir.cfg = false then raise .notConfigured s
  else if cap.toNat < xs.length then raise .capacity s
  else
    let r := runDraw (runBlock firStep s.fir xs) s.nanDraws
    complete false (unpairWords r.1.1) ((s.withFir r.1.2).withDraws r.2)

end Sys2Proof.Machine
end

