-- ==== Sys2Proof/Machine/Rounding.lean ====
section
/-!
DEFINITION. Binary32 rounding as arithmetic on bits: the fields of a value, magnitudes in the order of their bits, and
rounding to nearest with ties to even (00_scope.md R10). Machine/Trig.lean rests on its last lemma: near every number of
the range of the cosine and the sine there is a binary32 value.
-/

namespace Sys2Proof.Machine

/-! ## Fields -/

theorem fExp_eq (v : F32) : fExp v = v.toNat / 2 ^ 23 % 256 := by
  simp [fExp, BitVec.extractLsb'_toNat, Nat.shiftRight_eq_div_pow]

theorem fFrac_eq (v : F32) : fFrac v = v.toNat % 2 ^ 23 := by
  simp [fFrac, BitVec.extractLsb'_toNat]

theorem fSign_eq (v : F32) : fSign v = decide (2 ^ 31 ≤ v.toNat) := by
  have h := v.isLt
  rw [fSign, ← BitVec.testBit_toNat, Nat.testBit_eq_decide_div_mod_eq]
  congr 1
  rw [eq_iff_iff]
  omega

/-- The low 31 bits. -/
def lowBits (v : F32) : Nat := v.toNat % 2 ^ 31

/-- The magnitude that low bits stand for, in units of 2^-149. -/
def magBits (b : Nat) : Nat := if b / 2 ^ 23 = 0 then b % 2 ^ 23 else (2 ^ 23 + b % 2 ^ 23) * 2 ^ (b / 2 ^ 23 - 1)

theorem lowBits_lt (v : F32) : lowBits v < 2 ^ 31 := Nat.mod_lt _ (by norm_num)

theorem fExp_lowBits (v : F32) : fExp v = lowBits v / 2 ^ 23 := by
  have h := v.isLt
  rw [fExp_eq, lowBits]; omega

theorem fFrac_lowBits (v : F32) : fFrac v = lowBits v % 2 ^ 23 := by
  rw [fFrac_eq, lowBits]; omega

theorem fMag_lowBits (v : F32) : fMag v = magBits (lowBits v) := by
  rw [fMag, magBits, fExp_lowBits, fFrac_lowBits]

theorem isFinite_iff (v : F32) : isFinite v = true ↔ lowBits v < 0x7F800000 := by
  have h := lowBits_lt v
  simp only [isFinite, bne_iff_ne, ne_eq, fExp_lowBits]
  omega

theorem isNaN_iff (v : F32) : isNaN v = true ↔ 0x7F800000 < lowBits v := by
  have h := lowBits_lt v
  simp only [isNaN, Bool.and_eq_true, beq_iff_eq, bne_iff_ne, ne_eq, fExp_lowBits, fFrac_lowBits]
  omega

theorem isInf_iff (v : F32) : isInf v = true ↔ lowBits v = 0x7F800000 := by
  have h := lowBits_lt v
  simp only [isInf, Bool.and_eq_true, beq_iff_eq, fExp_lowBits, fFrac_lowBits]
  omega

theorem fPack_toNat (s : Bool) (b : Nat) (h : b < 2 ^ 31) : (fPack s b).toNat = b + if s then 2 ^ 31 else 0 := by
  rw [fPack, BitVec.toNat_ofNat]; cases s <;> simp <;> omega

theorem lowBits_fPack (s : Bool) (b : Nat) (h : b < 2 ^ 31) : lowBits (fPack s b) = b := by
  rw [lowBits, fPack_toNat s b h]; cases s <;> simp <;> omega

theorem fSign_fPack (s : Bool) (b : Nat) (h : b < 2 ^ 31) : fSign (fPack s b) = s := by
  rw [fSign_eq, fPack_toNat s b h]; cases s <;> simp <;> omega

theorem fPack_fields (v : F32) : fPack (fSign v) (lowBits v) = v := by
  have h := v.isLt
  apply BitVec.eq_of_toNat_eq
  rw [fPack_toNat _ _ (lowBits_lt v), fSign_eq, lowBits]
  by_cases hs : 2 ^ 31 ≤ v.toNat
  · rw [decide_eq_true hs, if_pos rfl]; omega
  · rw [decide_eq_false hs, if_neg Bool.false_ne_true]; omega

theorem F32.ext_fields {v w : F32} (hs : fSign v = fSign w) (hb : lowBits v = lowBits w) : v = w := by
  rw [← fPack_fields v, ← fPack_fields w, hs, hb]

@[simp] theorem fSign_fNeg (v : F32) : fSign (fNeg v) = !fSign v := fSign_fPack _ _ (lowBits_lt v)
@[simp] theorem lowBits_fNeg (v : F32) : lowBits (fNeg v) = lowBits v := lowBits_fPack _ _ (lowBits_lt v)
@[simp] theorem fMag_fNeg (v : F32) : fMag (fNeg v) = fMag v := by rw [fMag_lowBits, fMag_lowBits, lowBits_fNeg]
@[simp] theorem fNeg_fNeg (v : F32) : fNeg (fNeg v) = v := F32.ext_fields (by simp) (by simp)
@[simp] theorem isNaN_fNeg (v : F32) : isNaN (fNeg v) = isNaN v := by
  rw [Bool.eq_iff_iff, isNaN_iff, isNaN_iff, lowBits_fNeg]
@[simp] theorem isInf_fNeg (v : F32) : isInf (fNeg v) = isInf v := by
  rw [Bool.eq_iff_iff, isInf_iff, isInf_iff, lowBits_fNeg]
@[simp] theorem isFinite_fNeg (v : F32) : isFinite (fNeg v) = isFinite v := by
  rw [Bool.eq_iff_iff, isFinite_iff, isFinite_iff, lowBits_fNeg]
@[simp] theorem fVal_fNeg (v : F32) : fVal (fNeg v) = -fVal v := by
  unfold fVal; rw [fSign_fNeg, fMag_fNeg]; cases fSign v <;> simp

theorem fVal_natAbs (v : F32) : (fVal v).natAbs = fMag v := by unfold fVal; split <;> simp

/-! ## Magnitudes grow with the bits -/

/-- The magnitude of a fraction of up to 24 bits in its binade, the first value of the next binade included. -/
theorem magBits_scaled (e m : Nat) (hm : m ≤ 2 ^ 24) (h : e = 0 ∨ 2 ^ 23 ≤ m) : magBits (e * 2 ^ 23 + m) = m * 2 ^ e := by
  unfold magBits
  by_cases h1 : m < 2 ^ 23
  · obtain rfl : e = 0 := by omega
    rw [if_pos (by omega)]; omega
  · by_cases h2 : m = 2 ^ 24
    · subst h2
      have hd : (e * 2 ^ 23 + 2 ^ 24) / 2 ^ 23 = e + 2 := by omega
      have hr : (e * 2 ^ 23 + 2 ^ 24) % 2 ^ 23 = 0 := by omega
      rw [hd, hr, if_neg (by omega), show e + 2 - 1 = e + 1 by omega, pow_succ]; ring
    · have hd : (e * 2 ^ 23 + m) / 2 ^ 23 = e + 1 := by omega
      have hr : (e * 2 ^ 23 + m) % 2 ^ 23 = m - 2 ^ 23 := by omega
      rw [hd, hr, if_neg (by omega), Nat.add_sub_cancel, Nat.add_sub_cancel' (by omega)]

theorem magBits_succ (b : Nat) : magBits b < magBits (b + 1) := by
  have e1 : b = (b / 2 ^ 23 - 1) * 2 ^ 23 + (b - (b / 2 ^ 23 - 1) * 2 ^ 23) := by omega
  have h1 := magBits_scaled (b / 2 ^ 23 - 1) (b - (b / 2 ^ 23 - 1) * 2 ^ 23) (by omega) (by omega)
  have h2 := magBits_scaled (b / 2 ^ 23 - 1) (b - (b / 2 ^ 23 - 1) * 2 ^ 23 + 1) (by omega) (by omega)
  rw [← e1] at h1
  rw [← add_assoc, ← e1] at h2
  rw [h1, h2]
  exact Nat.mul_lt_mul_of_pos_right (Nat.lt_succ_self _) (by positivity)

theorem magBits_strictMono : StrictMono magBits := strictMono_nat_of_lt_succ magBits_succ

theorem fMag_lt_iff (v w : F32) : fMag v < fMag w ↔ lowBits v < lowBits w := by
  rw [fMag_lowBits, fMag_lowBits]; exact magBits_strictMono.lt_iff_lt

theorem fMag_eq_iff (v w : F32) : fMag v = fMag w ↔ lowBits v = lowBits w := by
  rw [fMag_lowBits, fMag_lowBits]; exact magBits_strictMono.injective.eq_iff

theorem fMag_eq_zero (v : F32) : fMag v = 0 ↔ lowBits v = 0 := by
  rw [fMag_lowBits]
  constructor
  · intro h; exact magBits_strictMono.injective (h.trans (by decide : (0:ℕ) = magBits 0))
  · intro h; rw [h]; decide

/-! ## Rounding -/

/-- The rounded quotient is off by at most a half. -/
theorem roundTiesEven_near (a b : Nat) (hb : 0 < b) :
    2 * (roundTiesEven a b * b) ≤ 2 * a + b ∧ 2 * a ≤ 2 * (roundTiesEven a b * b) + b := by
  have h := Nat.div_add_mod' a b
  have hm := Nat.mod_lt a hb
  unfold roundTiesEven
  split
  · omega
  · split
    · rw [add_mul]; omega
    · rw [add_mul]
      rcases Nat.mod_two_eq_zero_or_one (a / b) with h2 | h2 <;> rw [h2] <;> omega

/-- A quotient half way between two integers is rounded to the even one. -/
theorem roundTiesEven_tie (a b : Nat) (hb : 0 < b)
    (h : 2 * (roundTiesEven a b * b) = 2 * a + b ∨ 2 * a = 2 * (roundTiesEven a b * b) + b) :
    roundTiesEven a b % 2 = 0 := by
  have hd := Nat.div_add_mod' a b
  have hm := Nat.mod_lt a hb
  unfold roundTiesEven at *
  split
  · rw [if_pos ‹_›] at h; omega
  · rw [if_neg ‹_›] at h
    split
    · rw [if_pos ‹_›, add_mul] at h; omega
    · omega

/-- A quotient that is an integer is that integer. -/
theorem roundTiesEven_mul (k b : Nat) (hb : 0 < b) : roundTiesEven (k * b) b = k := by
  unfold roundTiesEven
  rw [Nat.mul_mod_left, Nat.mul_div_cancel _ hb, if_pos (by omega)]

theorem roundTiesEven_le (a b k : Nat) (hb : 0 < b) (h : a ≤ k * b) : roundTiesEven a b ≤ k := by
  have := (roundTiesEven_near a b hb).1
  have h3 : 2 * (roundTiesEven a b * b) < 2 * ((k + 1) * b) := by rw [add_mul]; omega
  have h4 := Nat.lt_of_mul_lt_mul_right (Nat.lt_of_mul_lt_mul_left h3)
  omega

theorem le_roundTiesEven (a b k : Nat) (hb : 0 < b) (h : k * b ≤ a) : k ≤ roundTiesEven a b := by
  have h2 := (roundTiesEven_near a b hb).2
  have h3 : 2 * (k * b) < 2 * ((roundTiesEven a b + 1) * b) := by rw [add_mul]; omega
  have h4 := Nat.lt_of_mul_lt_mul_right (Nat.lt_of_mul_lt_mul_left h3)
  omega

/-- The integer part lies below 2^24 spacings, and from the first spacing above the smallest on, at or above 2^23. -/
theorem spacingExp_spec (q : Nat) : q < 2 ^ 24 * 2 ^ spacingExp q ∧ (spacingExp q = 0 ∨ 2 ^ 23 * 2 ^ spacingExp q ≤ q) := by
  unfold spacingExp
  rcases Nat.eq_zero_or_pos q with rfl | hq
  · simp
  have h1 := Nat.log2_self_le (Nat.pos_iff_ne_zero.1 hq)
  have h2 := @Nat.lt_log2_self q
  rw [← pow_add, ← pow_add]
  by_cases h : Nat.log2 q ≤ 23
  · refine ⟨h2.trans_le (Nat.pow_le_pow_right (by omega) (by omega)), .inl (by omega)⟩
  · refine ⟨h2.trans_le (Nat.pow_le_pow_right (by omega) (by omega)), .inr ?_⟩
    rwa [show 23 + (Nat.log2 q - 23) = Nat.log2 q by omega]

theorem spacingExp_unique (q e : Nat) (h1 : q < 2 ^ 24 * 2 ^ e) (h2 : e = 0 ∨ 2 ^ 23 * 2 ^ e ≤ q) : spacingExp q = e := by
  unfold spacingExp
  rw [← pow_add] at h1 h2
  rcases Nat.eq_zero_or_pos q with rfl | hq
  · simp at h2; simp [h2]
  have hu := (Nat.log2_lt (Nat.pos_iff_ne_zero.1 hq)).2 h1
  rcases h2 with h2 | h2
  · omega
  · have := (Nat.le_log2 (Nat.pos_iff_ne_zero.1 hq)).2 h2
    omega

/-- The fraction that `roundMag` puts into its binade. -/
def roundFrac (num den : Nat) : Nat := roundTiesEven num (den * 2 ^ spacingExp (num / den))

theorem roundFrac_bounds (num den : Nat) (hd : 0 < den) :
    roundFrac num den ≤ 2 ^ 24 ∧ (spacingExp (num / den) = 0 ∨ 2 ^ 23 ≤ roundFrac num den) := by
  obtain ⟨h1, h2⟩ := spacingExp_spec (num / den)
  have hpos : 0 < den * 2 ^ spacingExp (num / den) := by positivity
  constructor
  · apply roundTiesEven_le _ _ _ hpos
    have := (Nat.div_lt_iff_lt_mul hd).1 h1
    calc num ≤ _ := this.le
      _ = _ := by ring
  · refine h2.imp_right fun h => le_roundTiesEven _ _ _ hpos ?_
    have := (Nat.le_div_iff_mul_le hd).1 h
    calc _ = 2 ^ 23 * 2 ^ spacingExp (num / den) * den := by ring
      _ ≤ num := this

/-- What `roundMag` stands for: a fraction of its binade's spacing, unless it is past the largest finite value. -/
theorem roundMag_eq (num den : Nat) :
    roundMag num den = min (spacingExp (num / den) * 2 ^ 23 + roundFrac num den) 0x7F800000 := rfl

theorem roundMag_le (num den : Nat) : roundMag num den ≤ 0x7F800000 := by rw [roundMag_eq]; exact min_le_right _ _

theorem magBits_roundMag (num den : Nat) (hd : 0 < den) (h : roundMag num den < 0x7F800000) :
    magBits (roundMag num den) = roundFrac num den * 2 ^ spacingExp (num / den) := by
  rw [roundMag_eq] at h ⊢
  rw [min_eq_left (by omega)]
  exact magBits_scaled _ _ (roundFrac_bounds num den hd).1 (roundFrac_bounds num den hd).2

/-- A value that binary32 has is its own rounding. -/
theorem roundMag_exact (b k : Nat) (hk : 0 < k) (h : b < 0x7F800000) : roundMag (magBits b * k) k = b := by
  set e := b / 2 ^ 23 - 1 with he
  set m := b - e * 2 ^ 23 with hm
  have hb : b = e * 2 ^ 23 + m := by omega
  have hmag : magBits b = m * 2 ^ e := by rw [hb]; exact magBits_scaled e m (by omega) (by omega)
  have hsp : spacingExp (magBits b) = e := by
    rw [hmag]
    refine spacingExp_unique _ _ ?_ ?_
    · exact Nat.mul_lt_mul_of_pos_right (by omega) (by positivity)
    · exact (show e = 0 ∨ 2 ^ 23 ≤ m by omega).imp_right fun h => Nat.mul_le_mul_right _ h
  rw [roundMag_eq, roundFrac, Nat.mul_div_cancel _ hk, hsp, hmag,
    show m * 2 ^ e * k = m * (k * 2 ^ e) by ring, roundTiesEven_mul _ _ (by positivity)]
  omega


/-- The exact quotient is not past the middle between the rounded magnitude and the next one up. -/
theorem roundMag_below_next (num den : Nat) (hd : 0 < den) (h : roundMag num den < 0x7F800000) :
    2 * num ≤ (magBits (roundMag num den) + magBits (roundMag num den + 1)) * den ∧
    (2 * num = (magBits (roundMag num den) + magBits (roundMag num den + 1)) * den → roundMag num den % 2 = 0) := by
  obtain ⟨hb1, hb2⟩ := roundFrac_bounds num den hd
  have hmag := magBits_roundMag num den hd h
  have heq : roundMag num den = spacingExp (num / den) * 2 ^ 23 + roundFrac num den := by
    rw [roundMag_eq] at h ⊢; omega
  set e := spacingExp (num / den) with he
  have hDpos : 0 < den * 2 ^ e := by positivity
  have near := (roundTiesEven_near num (den * 2 ^ e) hDpos).2
  have tie := roundTiesEven_tie num (den * 2 ^ e) hDpos
  rw [show roundTiesEven num (den * 2 ^ e) = roundFrac num den from rfl] at near tie
  have hnext : roundFrac num den * 2 ^ e + 2 ^ e ≤ magBits (roundMag num den + 1) := by
    rw [← hmag, heq]
    by_cases hm : roundFrac num den < 2 ^ 24
    · rw [add_assoc, magBits_scaled e _ (by omega) hb2, magBits_scaled e _ (by omega) (by omega), add_mul, one_mul]
    · have hm' : roundFrac num den = 2 ^ 24 := by omega
      rw [hm', show e * 2 ^ 23 + 2 ^ 24 + 1 = (e + 1) * 2 ^ 23 + (2 ^ 23 + 1) by ring,
        magBits_scaled (e + 1) _ (by omega) (by omega), magBits_scaled e _ (by omega) (by omega), pow_succ]
      have : 0 < 2 ^ e := by positivity
      omega
  have hmul : 2 * (roundFrac num den * (den * 2 ^ e)) + den * 2 ^ e ≤
      (magBits (roundMag num den) + magBits (roundMag num den + 1)) * den := by
    rw [hmag]
    calc _ = (roundFrac num den * 2 ^ e + (roundFrac num den * 2 ^ e + 2 ^ e)) * den := by ring
      _ ≤ _ := Nat.mul_le_mul_right _ (Nat.add_le_add_left hnext _)
  refine ⟨near.trans hmul, fun ht => ?_⟩
  have := tie (.inr (by omega))
  rw [heq]; omega

/-- The exact quotient is not before the middle between the rounded magnitude and the next one down. -/
theorem roundMag_above_prev (num den r : Nat) (hd : 0 < den) (h : roundMag num den < 0x7F800000)
    (hr : roundMag num den = r + 1) :
    (magBits r + magBits (r + 1)) * den ≤ 2 * num ∧
    ((magBits r + magBits (r + 1)) * den = 2 * num → (r + 1) % 2 = 0) := by
  obtain ⟨hb1, hb2⟩ := roundFrac_bounds num den hd
  have hs := (spacingExp_spec (num / den)).2
  have hmag := magBits_roundMag num den hd h
  have heq : roundMag num den = spacingExp (num / den) * 2 ^ 23 + roundFrac num den := by
    rw [roundMag_eq] at h ⊢; omega
  rw [hr] at hmag heq
  set e := spacingExp (num / den) with he
  have hDpos : 0 < den * 2 ^ e := by positivity
  have near := (roundTiesEven_near num (den * 2 ^ e) hDpos).1
  have tie := roundTiesEven_tie num (den * 2 ^ e) hDpos
  rw [show roundTiesEven num (den * 2 ^ e) = roundFrac num den from rfl] at near tie
  by_cases hc : e = 0 ∨ 2 ^ 23 < roundFrac num den
  · obtain ⟨m, hm⟩ : ∃ m, roundFrac num den = m + 1 := ⟨roundFrac num den - 1, by omega⟩
    have hprev : magBits r = m * 2 ^ e := by
      rw [show r = e * 2 ^ 23 + m by omega]; exact magBits_scaled e m (by omega) (by omega)
    have hmul : (magBits r + magBits (r + 1)) * den + den * 2 ^ e = 2 * (roundFrac num den * (den * 2 ^ e)) := by
      rw [hmag, hprev, hm]; ring
    refine ⟨by omega, fun ht => ?_⟩
    have := tie (.inl (by omega))
    omega
  · have hm : roundFrac num den = 2 ^ 23 := by omega
    obtain ⟨d, hd'⟩ : ∃ d, e = d + 1 := ⟨e - 1, by omega⟩
    have hprev : magBits r = (2 ^ 24 - 1) * 2 ^ d := by
      rw [show r = d * 2 ^ 23 + (2 ^ 24 - 1) by omega]; exact magBits_scaled d _ (by omega) (by omega)
    have hnum : 2 ^ 23 * 2 ^ e * den ≤ num := (Nat.le_div_iff_mul_le hd).1 (hs.resolve_left (by omega))
    have hlt : (magBits r + magBits (r + 1)) * den < 2 * num := by
      refine lt_of_lt_of_le ?_ (Nat.mul_le_mul_left 2 hnum)
      rw [hmag, hprev, hm, hd', pow_succ]
      have : 0 < 2 ^ d * den := by positivity
      calc _ = (2 ^ 25 - 1) * (2 ^ d * den) := by ring
        _ < 2 ^ 25 * (2 ^ d * den) := by omega
        _ = _ := by ring
    exact ⟨hlt.le, fun ht => absurd ht hlt.ne⟩

/-- No magnitude of binary32 lies nearer to `num / den` than the rounded one, and where another lies as near, the rounded
one is even. -/
theorem roundMag_nearest (num den b : Nat) (hd : 0 < den) (h : roundMag num den < 0x7F800000) :
    |(magBits (roundMag num den) * den : ℤ) - num| ≤ |(magBits b * den : ℤ) - num| ∧
    (|(magBits (roundMag num den) * den : ℤ) - num| = |(magBits b * den : ℤ) - num| → b ≠ roundMag num den →
      roundMag num den % 2 = 0) := by
  rcases lt_trichotomy b (roundMag num den) with hb | rfl | hb
  · obtain ⟨r, hr⟩ : ∃ r, roundMag num den = r + 1 := ⟨roundMag num den - 1, by omega⟩
    obtain ⟨h1, h2⟩ := roundMag_above_prev num den r hd h hr
    have hbr := Nat.mul_le_mul_right den (magBits_strictMono.monotone (show b ≤ r by omega))
    have hrr := Nat.mul_le_mul_right den (magBits_succ r).le
    rw [hr]
    zify at h1 h2 hbr hrr
    constructor
    · rcases abs_cases ((magBits (r + 1) * den : ℤ) - num) with ⟨e1, _⟩ | ⟨e1, _⟩ <;>
      rcases abs_cases ((magBits b * den : ℤ) - num) with ⟨e2, _⟩ | ⟨e2, _⟩ <;> rw [e1, e2] <;> linarith
    · intro heq hne
      have : (magBits b : ℤ) * den ≤ magBits r * den := hbr
      have hpos : (0 : ℤ) < (magBits (r + 1) - magBits r) * den := by
        have := magBits_succ r
        have : (0 : ℤ) < magBits (r + 1) - magBits r := by omega
        positivity
      zify
      apply h2
      rcases abs_cases ((magBits (r + 1) * den : ℤ) - num) with ⟨e1, _⟩ | ⟨e1, _⟩ <;>
      rcases abs_cases ((magBits b * den : ℤ) - num) with ⟨e2, _⟩ | ⟨e2, _⟩ <;> rw [e1, e2] at heq <;> linarith
  · exact ⟨le_rfl, fun _ hne => absurd rfl hne⟩
  · obtain ⟨h1, h2⟩ := roundMag_below_next num den hd h
    have hbr := Nat.mul_le_mul_right den (magBits_strictMono.monotone (show roundMag num den + 1 ≤ b by omega))
    have hlt := magBits_succ (roundMag num den)
    set r := roundMag num den
    zify at h1 h2 hbr
    have hpos : (0 : ℤ) < (magBits (r + 1) - magBits r) * den := by
      have : (0 : ℤ) < magBits (r + 1) - magBits r := by omega
      positivity
    constructor
    · rcases abs_cases ((magBits r * den : ℤ) - num) with ⟨e1, _⟩ | ⟨e1, _⟩ <;>
      rcases abs_cases ((magBits b * den : ℤ) - num) with ⟨e2, _⟩ | ⟨e2, _⟩ <;> rw [e1, e2] <;> linarith
    · intro heq hne
      zify
      apply h2
      rcases abs_cases ((magBits r * den : ℤ) - num) with ⟨e1, _⟩ | ⟨e1, _⟩ <;>
      rcases abs_cases ((magBits b * den : ℤ) - num) with ⟨e2, _⟩ | ⟨e2, _⟩ <;> rw [e1, e2] at heq <;> linarith

/-! ## The value nearest to a rational number -/

theorem fVal_fPack (s : Bool) (b : Nat) (h : b < 2 ^ 31) : fVal (fPack s b) = if s then -(magBits b : ℤ) else magBits b := by
  rw [fVal, fSign_fPack s b h, fMag_lowBits, lowBits_fPack s b h]

/-- The low 31 bits of the binary32 value nearest to the magnitude of `y`. -/
def roundRat (y : Rat) : Nat := roundMag (y.num.natAbs * 2 ^ 149) y.den

/-- The binary32 value nearest to `y`. -/
def nearestF32 (y : Rat) : F32 := fPack (decide (y < 0)) (roundRat y)

/-- A magnitude up to 2 (2^150 units) rounds to a finite one, at most half a spacing away. -/
theorem roundMag_off (num den : Nat) (hd : 0 < den) (h : num ≤ 2 ^ 150 * den) :
    roundMag num den < 0x7F800000 ∧
    2 * |(magBits (roundMag num den) * den : ℤ) - num| ≤ 2 ^ (roundMag num den / 2 ^ 23 - 1) * den := by
  obtain ⟨hb1, hb2⟩ := roundFrac_bounds num den hd
  have hq : num / den ≤ 2 ^ 150 := Nat.div_le_of_le_mul (by rw [mul_comm]; exact h)
  have he : spacingExp (num / den) ≤ 127 := by
    rcases (spacingExp_spec (num / den)).2 with h0 | h0
    · omega
    · have : 2 ^ (23 + spacingExp (num / den)) ≤ 2 ^ 150 := by rw [pow_add]; exact h0.trans hq
      have := (Nat.pow_le_pow_iff_right (by norm_num)).1 this
      omega
  have hlt : roundMag num den < 0x7F800000 := by rw [roundMag_eq]; omega
  refine ⟨hlt, ?_⟩
  have heq : roundMag num den = spacingExp (num / den) * 2 ^ 23 + roundFrac num den := by
    rw [roundMag_eq] at hlt ⊢; omega
  rw [magBits_roundMag num den hd hlt]
  have near := roundTiesEven_near num (den * 2 ^ spacingExp (num / den)) (by positivity)
  rw [show roundTiesEven num (den * 2 ^ spacingExp (num / den)) = roundFrac num den from rfl] at near
  have hp : 2 ^ spacingExp (num / den) ≤ 2 ^ (roundMag num den / 2 ^ 23 - 1) :=
    Nat.pow_le_pow_right (by norm_num) (by omega)
  have hp' := Nat.mul_le_mul_right den hp
  generalize hE : spacingExp (num / den) = e at *
  zify at near hp'
  rw [show ((roundFrac num den * 2 ^ e : ℕ) : ℤ) * den = roundFrac num den * (den * 2 ^ e) by push_cast; ring]
  refine le_trans ?_ hp'
  rcases abs_cases ((roundFrac num den * (den * 2 ^ e) : ℤ) - num) with ⟨e1, _⟩ | ⟨e1, _⟩ <;> rw [e1] <;> linarith

/-- A quotient of two magnitudes scaled by `u`, off by at most `w` units. -/
theorem quotient_off (m n d u w : ℚ) (hd : 0 < d) (hu : 0 < u) (h : 2 * |m * d - n * u| ≤ w * d) : |m / u - n / d| ≤ w / u := by
  have e : m / u - n / d = (m * d - n * u) / (u * d) := by field_simp
  rw [e, abs_div, abs_of_pos (mul_pos hu hd), div_le_div_iff₀ (mul_pos hu hd) hu]
  have h2 : |m * d - n * u| ≤ w * d := by linarith [abs_nonneg (m * d - n * u)]
  calc _ ≤ w * d * u := mul_le_mul_of_nonneg_right h2 hu.le
    _ = _ := by ring

/-- The bound of `roundMag_off` over the rationals. -/
theorem cast_off (m d n e : Nat) (h : 2 * |(m * d : ℤ) - n| ≤ 2 ^ e * d) : 2 * |(m * d : ℚ) - n| ≤ (2 ^ e : ℚ) * d := by
  exact_mod_cast h

/-- A value's number, from its sign and its magnitude. -/
theorem fRat_fPack (s : Bool) (b : Nat) (h : b < 2 ^ 31) :
    fRat (fPack s b) = (if s then -1 else 1) * ((magBits b : ℚ) / 2 ^ 149) := by
  rw [fRat, fVal_fPack s b h]
  cases s
  · simp only [Bool.false_eq_true, if_false, one_mul, Int.cast_natCast]
  · simp only [if_true, Int.cast_neg, Int.cast_natCast, neg_one_mul, neg_div]

/-- The nearest value to a number up to 2 in magnitude is finite and within an ulp of it. -/
theorem nearestF32_near (r : Rat) (h : |r| ≤ 2) :
    isFinite (nearestF32 r) = true ∧ |fRat (nearestF32 r) - r| ≤ ulpOf (nearestF32 r) := by
  have hden : (0 : ℚ) < r.den := by exact_mod_cast r.den_pos
  have hr : |r| = r.num.natAbs / r.den := by rw [Rat.abs_def, Rat.divInt_eq_div]; simp
  have hle : r.num.natAbs * 2 ^ 149 ≤ 2 ^ 150 * r.den := by
    rw [hr, div_le_iff₀ hden] at h
    have h' : r.num.natAbs ≤ 2 * r.den := by exact_mod_cast h
    calc _ ≤ 2 * r.den * 2 ^ 149 := Nat.mul_le_mul_right _ h'
      _ = _ := by rw [pow_succ 2 149]; ring
  obtain ⟨hlt, hoff⟩ := roundMag_off _ _ r.den_pos hle
  rw [← roundRat] at hlt hoff
  have hlt' : roundRat r < 2 ^ 31 := hlt.trans (by norm_num)
  have hb : lowBits (nearestF32 r) = roundRat r := lowBits_fPack _ _ hlt'
  refine ⟨(isFinite_iff _).2 (hb ▸ hlt), ?_⟩
  have habs : |fRat (nearestF32 r) - r| = abs ((magBits (roundRat r) : ℚ) / 2 ^ 149 - |r|) := by
    rw [nearestF32, fRat_fPack _ _ hlt']
    by_cases h0 : r < 0
    · rw [decide_eq_true h0, if_pos rfl, abs_of_neg h0, ← abs_neg]; congr 1; ring
    · rw [decide_eq_false h0, if_neg Bool.false_ne_true, abs_of_nonneg (not_lt.1 h0), one_mul]
  rw [habs, ulpOf, fExp_lowBits, hb, hr]
  have hq := cast_off _ _ _ _ hoff
  rw [Nat.cast_mul, Nat.cast_pow, Nat.cast_ofNat] at hq
  exact quotient_off _ _ _ _ _ hden (pow_pos two_pos _) hq

end Sys2Proof.Machine
end

