-- ==== Sys2Proof/Machine/FftMode.lean ====
section
/-!
DEFINITION. The FFT convolution mode (41_fir.md section 4): the size, `P_TOL` and `P_FFTCONV` as R6 and R172 limit them
together, and `FIR_CONVOLVE`. The middle part shows that a tolerance and a function as the rules ask for exist; no step
computes them.
-/

namespace Sys2Proof.Machine

/-- The least power of two that is at least `m` (R171). -/
def fftSize (m : Nat) : Nat := if m ≤ 1 then 1 else 2 ^ (Nat.log2 (m - 1) + 1)

/-- The FFT cache after a transform of a size (R96, R460: "cached per FFT size"; log entry 5). -/
def cacheSize (sizes : List Nat) (p : Nat) : List Nat := if p ∈ sizes then sizes else sizes ++ [p]

/-! ## What R6 and R172 ask of a tolerance and a function -/

/-- The direct result that R172 compares with: the streaming outputs of a freshly constructed instance with the same
taps. (The NaN draws start from 0 here; they change no finite component.) -/
def directResult (cplx : Bool) (taps xs : List C32) : List C32 :=
  (runDraw (runBlock firStep (firConstruct cplx taps) xs) 0).1.1

/-- The exact real part of the product of a tap and a sample; a real tap has no imaginary part. -/
def exactRe (cplx : Bool) (h x : C32) : Rat := fRat h.re * fRat x.re - if cplx then fRat h.im * fRat x.im else 0

/-- The exact imaginary part of the product of a tap and a sample; a real tap has no imaginary part. -/
def exactIm (cplx : Bool) (h x : C32) : Rat := fRat h.re * fRat x.im + if cplx then fRat h.im * fRat x.re else 0

/-- Component `j` of the exact linear-convolution slice (R6, R161, R171), `part` of each product: tap `k` against input
`j - k`. -/
def exactSlice (part : C32 → C32 → Rat) (taps xs : List C32) (j : Nat) : Rat :=
  ((List.range (j + 1)).map (fun k => part (memRead taps k) (memRead xs (j - k)))).sum

/-- `v` is a finite value within the tolerance of `y`. -/
def Within (tol : Rat) (v : F32) (y : Rat) : Prop := isFinite v = true ∧ |fRat v - y| ≤ tol

/-- The limits on one component `v` of the FFT-mode result of finite data, `direct` the same component of the direct result
and `exact` that of the exact slice: within the tolerance of the one (R172) and of the other (R6). DESIGN CHOICE (log entry
15): where `direct` overflowed to an infinity or a NaN, R172 states no distance from it, and R6's limit alone is asked, and
only if some binary32 value meets it. -/
def FftLimits (tol : Rat) (v direct : F32) (exact : Rat) : Prop :=
  (isFinite direct = true → Within tol v (fRat direct)) ∧
  ((isFinite direct = true ∨ ∃ w, Within tol w exact) → Within tol v exact)

/-- Both components are finite. -/
def finiteSample (x : C32) : Bool := isFinite x.re && isFinite x.im

/-- The finite data that a FIR_CONVOLVE of this build can transform at a size: 1 to `P_FIR_MAX_TAPS` finite taps, real ones
without an imaginary part (R162, R163), a number `N < 2^24` of finite samples (R111), and the size of R171, at most
`P_FFT_MAX` (R170). -/
structure Convolvable (taps : List C32) (cplx : Bool) (xs : List C32) (size : Nat) : Prop where
  finite : (taps ++ xs).all finiteSample = true
  some_tap : 1 ≤ taps.length
  taps_within : taps.length ≤ Config.firMaxTaps
  real_taps : cplx = false → ∀ h ∈ taps, h.im = 0
  samples_counted : xs.length < 2 ^ 24
  size_eq : size = fftSize (xs.length + taps.length - 1)
  size_within : size ≤ Config.fftMax

/-- R6 and R172 for a tolerance and a function: the tolerance is positive, and on the finite data that a FIR_CONVOLVE of
this build can transform, every component keeps its limits. Nothing is asked elsewhere, on NaN or infinite data too (I4; log
entry 12).

DESIGN CHOICE (log entry 4): D19 and D45 leave `P_TOL` open, and the model reads R6 and R172 as one tolerance for all of that
data, however large its values. So a number below what the rounding of the largest of it takes is no build's `P_TOL`, and
D45's relative tolerance for the vectors is none either. Nor, under such a tolerance, is an infinity the answer where the
direct result overflows but the exact value lies within the tolerance of a finite one (log entry 15). -/
def LegalFft (tol : Rat) (f : Config.FftFunction) : Prop :=
  0 < tol ∧
  ∀ (taps xs : List C32) (cplx : Bool) (size j : Nat), Convolvable taps cplx xs size → j < xs.length →
    FftLimits tol (f taps cplx xs size j).re (memRead (directResult cplx taps xs) j).re (exactSlice (exactRe cplx) taps xs j) ∧
    FftLimits tol (f taps cplx xs size j).im (memRead (directResult cplx taps xs) j).im (exactSlice (exactIm cplx) taps xs j)

/-! ## They exist -/

/-- 2^128, above every finite magnitude. -/
def fBound : Rat := 2 ^ 128

theorem fBound_pos : 0 < fBound := pow_pos two_pos _

/-- A finite value lies below 2^128 in magnitude. -/
theorem fRat_bound {v : F32} (h : isFinite v = true) : |fRat v| ≤ fBound := by
  have hm : fMag v ≤ 2 ^ 24 * 2 ^ 253 := by
    rw [fMag_lowBits]
    refine (magBits_strictMono.monotone ((isFinite_iff v).1 h).le).trans_eq ?_
    exact magBits_scaled 253 (2 ^ 24) le_rfl (.inr (by norm_num))
  have hv : |(fVal v : ℚ)| ≤ 2 ^ 24 * 2 ^ 253 := by
    rw [← Int.cast_abs, Int.abs_eq_natAbs, fVal_natAbs]; exact_mod_cast hm
  rw [fRat, abs_div, abs_of_pos (pow_pos two_pos 149 : (0 : ℚ) < 2 ^ 149), div_le_iff₀ (pow_pos two_pos 149)]
  exact hv.trans_eq (by rw [fBound, ← pow_add, ← pow_add])

/-- An element of finite data, or past it, is finite. -/
theorem memRead_finite {l : List C32} (h : l.all finiteSample = true) (k : Nat) :
    isFinite (memRead l k).re = true ∧ isFinite (memRead l k).im = true := by
  rw [← Bool.and_eq_true]
  change finiteSample (memRead l k) = true
  rw [memRead, List.getD]
  cases hk : l[k]? with
  | none => rfl
  | some c => exact List.all_eq_true.1 h c (List.mem_of_getElem? hk)

/-- The exact slice of finite data is bounded by the number of its products. -/
theorem exactSlice_bound {part : C32 → C32 → Rat} {taps xs : List C32} {b : Rat} (j : Nat)
    (h : ∀ k i, |part (memRead taps k) (memRead xs i)| ≤ b) : |exactSlice part taps xs j| ≤ (j + 1) * b := by
  unfold exactSlice
  have : ∀ l : List Nat, |(l.map (fun k => part (memRead taps k) (memRead xs (j - k)))).sum| ≤ l.length * b := by
    intro l
    induction l with
    | nil => simp
    | cons k l ih =>
      rw [List.map_cons, List.sum_cons, List.length_cons]
      refine (abs_add_le _ _).trans ?_
      push_cast
      linarith [h k (j - k)]
  simpa using this (List.range (j + 1))

theorem abs_mul_bound {a b : Rat} (ha : |a| ≤ fBound) (hb : |b| ≤ fBound) : |a * b| ≤ fBound * fBound := by
  rw [abs_mul]; exact mul_le_mul ha hb (abs_nonneg _) fBound_pos.le

/-- A bound on the exact slice of every input that FIR_CONVOLVE can take. -/
def sliceBound : Rat := 2 ^ 24 * (fBound * fBound + fBound * fBound)

/-- The direct result where it is finite and +0.0 elsewhere keeps the limits under this tolerance. -/
theorem fftLimits_direct (d : F32) (e : Rat) (he : |e| ≤ sliceBound) :
    FftLimits (fBound + sliceBound) (sanitize d) d e := by
  have hs : isFinite (sanitize d) = true := by unfold sanitize; split <;> [assumption; decide]
  have hd := fRat_bound hs
  refine ⟨fun h => ⟨hs, ?_⟩, fun _ => ⟨hs, (abs_sub _ _).trans (add_le_add hd he)⟩⟩
  rw [sanitize, if_pos h, sub_self, abs_zero]
  linarith [fBound_pos, abs_nonneg e]

/-- A tolerance and a function that are legal together exist. -/
theorem legalFft_exists : LegalFft (fBound + sliceBound) (fun taps cplx xs _ j =>
    ⟨sanitize (memRead (directResult cplx taps xs) j).re, sanitize (memRead (directResult cplx taps xs) j).im⟩) := by
  have hB : 0 < fBound * fBound := mul_pos fBound_pos fBound_pos
  have hS : 0 < sliceBound := mul_pos (pow_pos two_pos _) (add_pos hB hB)
  refine ⟨add_pos fBound_pos hS, fun taps xs cplx size j hdata hj => ?_⟩
  have hfin := hdata.finite
  have hlen := hdata.samples_counted
  rw [List.all_append, Bool.and_eq_true] at hfin
  have ht := fun k => memRead_finite hfin.1 k
  have hx := fun k => memRead_finite hfin.2 k
  have hjb : ((j : ℚ) + 1) * (fBound * fBound + fBound * fBound) ≤ sliceBound := by
    have : (j : ℚ) + 1 ≤ 2 ^ 24 := by exact_mod_cast (by omega : j + 1 ≤ 2 ^ 24)
    exact mul_le_mul_of_nonneg_right this (add_pos hB hB).le
  constructor
  · refine fftLimits_direct _ _ ((exactSlice_bound j fun k i => ?_).trans hjb)
    have h3 := abs_mul_bound (fRat_bound (ht k).1) (fRat_bound (hx i).1)
    have h4 := abs_mul_bound (fRat_bound (ht k).2) (fRat_bound (hx i).2)
    unfold exactRe
    split
    · exact (abs_sub _ _).trans (add_le_add h3 h4)
    · rw [sub_zero]; linarith
  · refine fftLimits_direct _ _ ((exactSlice_bound j fun k i => ?_).trans hjb)
    have h3 := abs_mul_bound (fRat_bound (ht k).1) (fRat_bound (hx i).2)
    have h4 := abs_mul_bound (fRat_bound (ht k).2) (fRat_bound (hx i).1)
    unfold exactIm
    split
    · exact (abs_add_le _ _).trans (add_le_add h3 h4)
    · rw [add_zero]; linarith

/-! ## The build's tolerance and function -/

/-- The build's tolerance and FFT-mode function, any that R6 and R172 allow together (log entry 4). -/
def buildFft : {b : Rat × Config.FftFunction // LegalFft b.1 b.2} := @Config.fftFree LegalFft ⟨⟨(_, _), legalFft_exists⟩⟩

/-- `P_TOL` (R6, I6). No step computes with it: it occurs in laws only. -/
def pTol : Rat := buildFft.val.1

/-- `P_FFTCONV` (R6, R170): sample `j` of the FFT-mode result. -/
def pFftConv : Config.FftFunction := buildFft.val.2

/-- The `N` result samples of the FFT-mode convolution (R170). -/
def fftConvolve (f : FirState) (xs : List C32) (p : Nat) : List C32 :=
  (List.range xs.length).map (pFftConv f.taps f.cplx xs p)

/-- `FIR_CONVOLVE` (R170): the delay line and the cursor are neither read nor written. On NaN or
infinite data too the result is the build's function of the operands (I4; log entry 12). -/
def execFirConvolve (cap : Word) (xs : List C32) (s : State) : Result :=
  if s.fir.cfg = false then raise .notConfigured s
  else if cap.toNat < xs.length then raise .capacity s
  else if xs.length = 0 then complete false [] s
  else
    let p := fftSize (xs.length + s.fir.n - 1)
    if Config.fftMax < p then raise .fftTooLarge s
    else complete false (unpairWords (fftConvolve s.fir xs p)) (s.withCache (cacheSize s.fftCache p))

end Sys2Proof.Machine
end

