-- ==== Sys2Proof/Machine/Trig.lean ====
section
/-!
DEFINITION. `P_COS` and `P_SIN` (00_scope.md R6, R12): free functions within 2 ulp of the real cosine and sine at every
finite argument. The first part shows that such functions exist, by rational partial sums of the two series; no step
computes them.
-/

namespace Sys2Proof.Machine

open Finset Nat

/-! ## Functions as R6 asks for exist -/

/-- `n` terms of the cosine series. -/
def cosSum (x : Rat) (n : Nat) : Rat := ∑ k ∈ range n, (-1) ^ k * x ^ (2 * k) / Nat.factorial (2 * k)

/-- `n` terms of the sine series. -/
def sinSum (x : Rat) (n : Nat) : Rat := ∑ k ∈ range n, (-1) ^ k * x ^ (2 * k + 1) / Nat.factorial (2 * k + 1)

/-- Two terms of the exponential series at an imaginary number are one of each. -/
theorem expSum_eq (x : Rat) (n : Nat) :
    ∑ m ∈ range (2 * n), (((x : ℝ) : ℂ) * Complex.I) ^ m / Nat.factorial m =
      (((cosSum x n : Rat) : ℝ) : ℂ) + (((sinSum x n : Rat) : ℝ) : ℂ) * Complex.I := by
  induction n with
  | zero => simp [cosSum, sinSum]
  | succ n ih =>
    rw [Nat.mul_succ, sum_range_succ, sum_range_succ, ih,
      show cosSum x (n + 1) = cosSum x n + (-1) ^ n * x ^ (2 * n) / Nat.factorial (2 * n) from sum_range_succ _ _,
      show sinSum x (n + 1) = sinSum x n + (-1) ^ n * x ^ (2 * n + 1) / Nat.factorial (2 * n + 1) from sum_range_succ _ _]
    have h1 : (((x : ℝ) : ℂ) * Complex.I) ^ (2 * n) = (-1) ^ n * ((x : ℝ) : ℂ) ^ (2 * n) := by
      rw [mul_pow, pow_mul Complex.I, Complex.I_sq]; ring
    rw [pow_succ (((x : ℝ) : ℂ) * Complex.I) (2 * n), h1]
    push_cast
    ring

/-- The error of the partial sums, from enough terms on. -/
theorem trigSum_near (x : Rat) (n : Nat) (h : |x| ≤ n) :
    |(cosSum x n : ℝ) - Real.cos x| ≤ |x| ^ (2 * n) / Nat.factorial (2 * n) * 2 ∧
    |(sinSum x n : ℝ) - Real.sin x| ≤ |x| ^ (2 * n) / Nat.factorial (2 * n) * 2 := by
  have hx : ‖((x : ℝ) : ℂ) * Complex.I‖ = |(x : ℝ)| := by simp
  have hb := Complex.exp_bound' (x := ((x : ℝ) : ℂ) * Complex.I) (n := 2 * n) (by
    rw [hx, div_le_div_iff₀ (by positivity) (by norm_num)]
    have : |(x : ℝ)| ≤ n := by exact_mod_cast h
    push_cast; linarith)
  rw [expSum_eq, Complex.exp_mul_I, ← Complex.ofReal_cos, ← Complex.ofReal_sin, hx] at hb
  have e : (((Real.cos x : ℝ) : ℂ) + ((Real.sin x : ℝ) : ℂ) * Complex.I -
      ((((cosSum x n : Rat) : ℝ) : ℂ) + (((sinSum x n : Rat) : ℝ) : ℂ) * Complex.I)) =
      ((Real.cos x - cosSum x n : ℝ) : ℂ) + ((Real.sin x - sinSum x n : ℝ) : ℂ) * Complex.I := by push_cast; ring
  rw [e] at hb
  have h1 := (Complex.abs_re_le_norm _).trans hb
  have h2 := (Complex.abs_im_le_norm _).trans hb
  simp only [Complex.add_re, Complex.add_im, Complex.mul_re, Complex.mul_im, Complex.ofReal_re, Complex.ofReal_im,
    Complex.I_re, Complex.I_im] at h1 h2
  rw [abs_sub_comm, abs_sub_comm (sinSum x n : ℝ)]
  push_cast
  constructor
  · simpa using h1
  · simpa using h2

/-- Enough terms of either series at `x`. -/
def trigTerms (x : Rat) : Nat := 2 * ⌈|x|⌉₊ + 77 + ⌈|x|⌉₊ ^ 2

/-- 2^-152, an eighth of the smallest ulp. -/
def trigSlack : Rat := 1 / 2 ^ 152

/-- With that many terms the error lies far below the smallest ulp, 2^-149. -/
theorem trigTerms_enough (x : Rat) :
    (|x| : ℚ) ^ (2 * trigTerms x) / Nat.factorial (2 * trigTerms x) * 2 ≤ trigSlack ∧ |x| ≤ trigTerms x := by
  set X := ⌈|x|⌉₊ with hX
  have hx : |x| ≤ X := Nat.le_ceil _
  have hn : trigTerms x = 2 * X + 77 + X ^ 2 := rfl
  constructor
  · set k := 2 * 77 + 2 * X ^ 2 with hk
    have h2 : 2 * trigTerms x = 4 * X + k := by rw [hn, hk]; ring
    rw [h2]
    have hf : (4 * X)! * (4 * X + 1) ^ k ≤ (4 * X + k)! := Nat.factorial_mul_pow_le_factorial
    have hnat : X ^ (4 * X + k) * 2 ^ 153 ≤ (4 * X + k)! := by
      refine le_trans ?_ hf
      have a1 : X ^ (4 * X) ≤ 4 ^ (2 * X ^ 2) := by
        calc X ^ (4 * X) ≤ (2 ^ X) ^ (4 * X) := Nat.pow_le_pow_left Nat.lt_two_pow_self.le _
          _ = 4 ^ (2 * X ^ 2) := by rw [← pow_mul, show (4:ℕ) = 2 ^ 2 by norm_num, ← pow_mul]; congr 1; ring
      have a2 : 2 ^ 153 ≤ 4 ^ (2 * 77) := by norm_num
      calc X ^ (4 * X + k) * 2 ^ 153 = X ^ (4 * X) * 2 ^ 153 * X ^ k := by rw [pow_add]; ring
        _ ≤ 4 ^ (2 * X ^ 2) * 4 ^ (2 * 77) * X ^ k := by gcongr
        _ = (4 * X) ^ k := by rw [← pow_add, mul_pow, hk]; congr 2; ring
        _ ≤ 1 * (4 * X + 1) ^ k := by rw [one_mul]; gcongr; omega
        _ ≤ _ := Nat.mul_le_mul_right _ (Nat.factorial_pos _)
    have hpos : (0 : ℚ) < (4 * X + k)! := by exact_mod_cast Nat.factorial_pos _
    rw [trigSlack, div_mul_eq_mul_div, div_le_div_iff₀ hpos (by positivity)]
    have : (X : ℚ) ^ (4 * X + k) * 2 ^ 153 ≤ (4 * X + k)! := by exact_mod_cast hnat
    calc |x| ^ (4 * X + k) * 2 * 2 ^ 152 = |x| ^ (4 * X + k) * 2 ^ 153 := by ring
      _ ≤ (X : ℚ) ^ (4 * X + k) * 2 ^ 153 := by gcongr
      _ ≤ _ := by rw [one_mul]; exact this
  · rw [hn]; push_cast; nlinarith [sq_nonneg (X : ℚ)]

/-- The slack is no more than an ulp, and less than 1. -/
theorem trigSlack_le (v : F32) : trigSlack ≤ ulpOf v ∧ trigSlack ≤ 1 := by
  have h1 : (1 : ℚ) ≤ 2 ^ (fExp v - 1) := one_le_pow₀ (by norm_num)
  refine ⟨?_, by rw [trigSlack]; norm_num⟩
  exact div_le_div₀ (zero_le_one.trans h1) h1 (pow_pos two_pos _) (pow_le_pow_right₀ one_le_two (by norm_num))

/-- A rational number close to a real one of magnitude up to 1 has a nearest binary32 value within 2 ulp of it. -/
theorem nearReal_nearestF32 (q : Rat) (y : ℝ) (hy : |y| ≤ 1) (h : |(q : ℝ) - y| ≤ (trigSlack : ℝ)) :
    NearReal (nearestF32 q) y := by
  obtain ⟨hu, h1⟩ := trigSlack_le (nearestF32 q)
  have hu' : (trigSlack : ℝ) ≤ (ulpOf (nearestF32 q) : ℝ) := by exact_mod_cast hu
  have h1' : (trigSlack : ℝ) ≤ 1 := by exact_mod_cast h1
  have hq : |(q : ℝ)| ≤ 2 := by linarith [abs_sub_abs_le_abs_sub (q : ℝ) y]
  obtain ⟨hf, hn⟩ := nearestF32_near q (by exact_mod_cast hq)
  have hn' : |(fRat (nearestF32 q) : ℝ) - q| ≤ (ulpOf (nearestF32 q) : ℝ) := by exact_mod_cast hn
  refine ⟨hf, nearestF32 q, hf, Set.left_mem_uIcc, ?_⟩
  linarith [abs_sub_le (fRat (nearestF32 q) : ℝ) q y]

/-- Values within 2 ulp of the cosine and the sine exist at every argument. -/
theorem trigSum_nearReal (x : Rat) :
    NearReal (nearestF32 (cosSum x (trigTerms x))) (Real.cos x) ∧ NearReal (nearestF32 (sinSum x (trigTerms x))) (Real.sin x) := by
  obtain ⟨h1, h2⟩ := trigTerms_enough x
  obtain ⟨hc, hs⟩ := trigSum_near x _ h2
  have h3 := (Rat.cast_le (K := ℝ)).2 h1
  rw [Rat.cast_mul, Rat.cast_div, Rat.cast_pow, Rat.cast_natCast, Rat.cast_ofNat] at h3
  exact ⟨nearReal_nearestF32 _ _ (Real.abs_cos_le_one _) (hc.trans h3),
    nearReal_nearestF32 _ _ (Real.abs_sin_le_one _) (hs.trans h3)⟩

/-! ## The build's functions -/

/-- R6's limit on `P_COS`: on a finite argument, within 2 ulp of the cosine of its exact value. -/
def LegalCos (p v : F32) : Prop := isFinite p = true → NearReal v (Real.cos (fRat p))

/-- R6's limit on `P_SIN`: on a finite argument, within 2 ulp of the sine of its exact value. -/
def LegalSin (p v : F32) : Prop := isFinite p = true → NearReal v (Real.sin (fRat p))

/-- The build's function behind `P_COS`, any that keeps R6's limit (log entry 2). -/
def buildCos : {f : F32 → F32 // ∀ p, LegalCos p (f p)} :=
  @Config.cosFree LegalCos
    ⟨⟨fun p => nearestF32 (cosSum (fRat p) (trigTerms (fRat p))), fun p _ => (trigSum_nearReal (fRat p)).1⟩⟩

/-- The build's function behind `P_SIN`, any that keeps R6's limit (log entry 2). -/
def buildSin : {f : F32 → F32 // ∀ p, LegalSin p (f p)} :=
  @Config.sinFree LegalSin
    ⟨⟨fun p => nearestF32 (sinSum (fRat p) (trigTerms (fRat p))), fun p _ => (trigSum_nearReal (fRat p)).2⟩⟩

/-- `P_COS` (R6): a NaN of a NaN or infinite argument, exactly 1.0 at +0, else the build's function. -/
def pCos (p : F32) : Draw F32 :=
  if !isFinite p then drawNaN else if p = 0 then pure f1 else pure (buildCos.val p)

/-- `P_SIN` (R6): a NaN of a NaN or infinite argument, exactly +0 at +0, else the build's function. -/
def pSin (p : F32) : Draw F32 :=
  if !isFinite p then drawNaN else if p = 0 then pure 0 else pure (buildSin.val p)

/-- `expj` of R12. -/
def expj (p : F32) : Draw C32 := do
  let c ← pCos p
  let s ← pSin p
  pure ⟨c, s⟩

end Sys2Proof.Machine
end

