-- ==== Sys2Proof/Machine/Fll.lean ====
section
/-!
DEFINITION. The band-edge frequency-locked loop (42_fll.md): its construction, its per-sample step and its two commands.
-/

namespace Sys2Proof.Machine

/-- The frequency gain `(4.0 * bw) / sps` (R201, R203). -/
def fllBeta (sps bw : F32) : Draw F32 := do
  let t ← fMul f4 bw
  fDiv t sps

/-- The frequency clamp `2.0 * (TWO_PI_F / sps)` (R201, R203). -/
def fllFmax (sps : F32) : Draw F32 := do
  let t ← fDiv twoPiF sps
  fMul f2 t

/-- A constructed FLL (R201): the mirror-image taps by `EDGE_SWAP`, both filters cleared, phase and frequency +0.0. -/
def fllConstruct (sps rolloff bw : F32) (swap : Bool) (taps : List C32) (beta fmax : F32) : FllState :=
  { cfg := true, sps := sps, rolloff := rolloff, bw := bw, swap := swap, beta := beta, fmax := fmax, phase := 0, freq := 0,
    lo := firConstruct true (if swap then taps.map conj else taps),
    up := firConstruct true (if swap then taps else taps.map conj) }

/-- `FLL_CONFIG` (R201), its checks in R404's order. -/
def execFllConfig (sps rolloff bw flags : Word) (taps : List C32) (s : State) : Result :=
  if taps.length = 0 then raise .invalidParam s
  else if Config.fllMaxTaps < taps.length then raise .tapsTooLong s
  else if (isFinite sps && fLt 0 sps) = false then raise .invalidParam s
  else if (fLe 0 rolloff && fLe rolloff f1) = false then raise .invalidParam s
  else if (isFinite bw && fLt 0 bw) = false then raise .invalidParam s
  else if flags.extractLsb' 1 31 ≠ 0 then raise .invalidParam s
  else
    let beta := runDraw (fllBeta sps bw) s.nanDraws
    let fmax := runDraw (fllFmax sps) beta.2
    if (isFinite beta.1 && isFinite fmax.1) = false then raise .invalidParam s
    else
      complete false []
        ((s.withFll (fllConstruct sps rolloff bw (flags.getLsbD 0) taps beta.1 fmax.1)).withDraws fmax.2)

/-- Multiply by `e^{-j*phase}` (R204, R206, R244). -/
def derotate (phase : F32) (x : C32) : Draw C32 := do
  let r ← expj phase
  cMul x (conj r)

/-- `fllStep` of R204: the rotated sample and the loop after it. -/
def fllStep (l : FllState) (x : C32) : Draw (C32 × FllState) := do
  let r ← derotate l.phase x
  let yl ← firStep l.lo r
  let yu ← firStep l.up r
  let pl ← cNorm yl.1
  let pu ← cNorm yu.1
  let e ← fSub pl pu
  let be ← fMul l.beta e
  let f ← fAdd l.freq be
  let p ← fAdd l.phase f
  let phase ← wrap p twoPiF
  pure (r, { l with phase := phase, freq := clamp (sanitize f) (fNeg l.fmax) l.fmax, lo := yl.2, up := yu.2 })

/-- `FLL_PROCESS` (R205). -/
def execFllProcess (cap : Word) (xs : List C32) (s : State) : Result :=
  if s.fll.cfg = false then raise .notConfigured s
  else if cap.toNat < xs.length then raise .capacity s
  else
    let r := runDraw (runBlock fllStep s.fll xs) s.nanDraws
    complete false (unpairWords r.1.1) ((s.withFll r.1.2).withDraws r.2)

end Sys2Proof.Machine
end

