-- ==== Sys2Proof/Machine/Costas.lean ====
section
/-!
DEFINITION. The Costas phase loop (43_costas.md): its gains, its per-sample step and its two commands.
-/

namespace Sys2Proof.Machine

/-- `costasGains` of R242: alpha and beta. -/
def costasGains (fs bwhz damp : F32) : Draw (F32 × F32) := do
  let t ← fMul twoPiF bwhz
  let bw ← fDiv t fs
  let d2 ← fMul f2 damp
  let d2bw ← fMul d2 bw
  let d1 ← fAdd f1 d2bw
  let bw2 ← fMul bw bw
  let d ← fAdd d1 bw2
  let a4 ← fMul f4 damp
  let a4bw ← fMul a4 bw
  let alpha ← fDiv a4bw d
  let bwsq ← fMul bw bw
  let b4 ← fMul f4 bwsq
  let beta ← fDiv b4 d
  pure (alpha, beta)

/-- A constructed Costas loop (R241). -/
def costasConstruct (fs bwhz damp alpha beta : F32) : CosState :=
  { cfg := true, fs := fs, bwhz := bwhz, damp := damp, alpha := alpha, beta := beta, phase := 0, freq := 0 }

/-- `COSTAS_CONFIG` from its three parameters (R241), after the check of `N`. -/
def costasConfigure (fs bwhz damp : F32) (s : State) : Result :=
  if (isFinite fs && fLt 0 fs) = false then raise .invalidParam s
  else if (isFinite bwhz && fLt 0 bwhz) = false then raise .invalidParam s
  else if (isFinite damp && fLt 0 damp) = false then raise .invalidParam s
  else
    let g := runDraw (costasGains fs bwhz damp) s.nanDraws
    if (isFinite g.1.1 && isFinite g.1.2) = false then raise .invalidParam s
    else complete false [] ((s.withCos (costasConstruct fs bwhz damp g.1.1 g.1.2)).withDraws g.2)

/-- `COSTAS_CONFIG` (R241): two parameters select the default damping, three give it. -/
def execCostasConfig (params : List Word) (s : State) : Result :=
  match params with
  | [fs, bwhz] => costasConfigure fs bwhz dampDefault s
  | [fs, bwhz, damp] => costasConfigure fs bwhz damp s
  | _ => raise .badLength s

/-- The update of R244 from the derotated sample `m`: decisions, error, frequency and phase. -/
def cosUpdate (l : CosState) (m : C32) : Draw CosState := do
  let a ← fMul (sgn m.re) m.im
  let b ← fMul (sgn m.im) m.re
  let e ← fSub a b
  let be ← fMul l.beta e
  let f ← fAdd l.freq be
  let ae ← fMul l.alpha e
  let fa ← fAdd f ae
  let p ← fAdd l.phase fa
  let phase ← wrap p piF
  pure { l with freq := sanitize f, phase := phase }

/-- `cosStep` of R244: the derotated sample and the loop after it. -/
def cosStep (l : CosState) (x : C32) : Draw (C32 × CosState) := do
  let m ← derotate l.phase x
  let l' ← cosUpdate l m
  pure (m, l')

/-- `COSTAS_PROCESS` (R243). -/
def execCostasProcess (cap : Word) (xs : List C32) (s : State) : Result :=
  if s.cos.cfg = false then raise .notConfigured s
  else if cap.toNat < xs.length then raise .capacity s
  else
    let r := runDraw (runBlock cosStep s.cos xs) s.nanDraws
    complete false (unpairWords r.1.1) ((s.withCos r.1.2).withDraws r.2)

end Sys2Proof.Machine
end

