-- ==== Sys2Proof/Machine/Framer.lean ====
section
/-!
DEFINITION. Frame / protocol extraction (45_framer.md): packing bits, the marker search, the payload packer and the two
`FR_*` commands.
-/

namespace Sys2Proof.Machine

/-- Bits as a number, the first one the most significant. -/
def bitsMsb (bits : List Bool) : Nat := bits.foldl (fun acc b => 2 * acc + b.toNat) 0

/-- `pack` of R322: eight bits as a byte, in the order `LSB_FIRST` selects. -/
def packBits (lsbFirst : Bool) (bits : List Bool) : Byte :=
  BitVec.ofNat 8 (bitsMsb (if lsbFirst then bits.reverse else bits))

/-- The marker's bytes stand at the head of the bits, eight bits each (R324). -/
def markerAt (lsbFirst : Bool) : List Byte → List Bool → Bool
  | [], _ => true
  | m :: ms, bits => packBits lsbFirst (bits.take 8) == m && markerAt lsbFirst ms (bits.drop 8)

/-- The least bit offset at which the start marker stands in `wv` (R324); none where it stands nowhere. -/
def findMarker (lsbFirst : Bool) (ms : List Byte) (wv : List Bool) : Option Nat :=
  (List.range (wv.length + 1 - 8 * ms.length)).find? (fun p => markerAt lsbFirst ms (wv.drop p))

/-- The last `k` elements of a list, all of them where there are no more. -/
def lastN {α : Type} (k : Nat) (l : List α) : List α := l.drop (l.length - k)

/-- A SEARCHING pass without a match over the remaining bits (R324, R328). -/
def frKeepTail (f : FrState) (bits : List Bool) : FrState :=
  { f with bitpos := f.bitpos + BitVec.ofNat 3 bits.length,
           tail := lastN (8 * f.startMarker.length + 7) (f.tail ++ bits) }

/-- The remaining bits that a match at offset `p` of `tail ++ bits` uses up (R324). -/
def matchEnd (f : FrState) (p : Nat) : Nat := p + 8 * f.startMarker.length - f.tail.length

/-- The framer after a start-marker match at offset `p` (R324, R329). -/
def frLock (f : FrState) (p : Nat) : FrState :=
  { f with align := f.bitpos - BitVec.ofNat 3 f.tail.length + BitVec.ofNat 3 p,
           bitpos := f.bitpos + BitVec.ofNat 3 (matchEnd f p),
           inFrame := true, ring := [], pk := [], tail := [] }

/-- Back to SEARCHING with nothing retained (R326, R327). -/
def frSearch (f : FrState) : FrState := { f with inFrame := false, ring := [], tail := [] }

/-- A payload byte completes (R324 to R327): the frame it closes, if it does, and the framer after it. -/
def frByte (ringCap : Nat) (f : FrState) (b : Byte) : List (List Byte) × FrState :=
  if f.ring.length = ringCap then ([], frSearch f)
  else if f.endMarker.length ≤ f.ring.length + 1 ∧ lastN f.endMarker.length (f.ring ++ [b]) = f.endMarker then
    ([(f.ring ++ [b]).take (f.ring.length + 1 - f.endMarker.length)], frSearch f)
  else ([], { f with ring := f.ring ++ [b] })

/-- One bit in state IN_FRAME (R324, R325). -/
def frBit (ringCap : Nat) (f : FrState) (b : Bool) : List (List Byte) × FrState :=
  if f.pk.length + 1 = 8 then
    frByte ringCap { f with pk := [], bitpos := f.bitpos + 1 } (packBits f.lsbFirst (f.pk ++ [b]))
  else ([], { f with pk := f.pk ++ [b], bitpos := f.bitpos + 1 })

/-- The loop of `frPush` (R324). Every round but the last uses up a bit or, on a match, enters the frame whose next round
does; `rounds` bounds their number and never runs out from `frPush`. -/
def frLoop (ringCap : Nat) : Nat → FrState → List Bool → List (List Byte) × FrState
  | 0, f, _ => ([], f)
  | rounds + 1, f, bits =>
    if f.inFrame then
      match bits with
      | [] => ([], f)
      | b :: rest =>
        let r := frBit ringCap f b
        let rs := frLoop ringCap rounds r.2 rest
        (r.1 ++ rs.1, rs.2)
    else
      match findMarker f.lsbFirst f.startMarker (f.tail ++ bits) with
      | none => ([], frKeepTail f bits)
      | some p => frLoop ringCap rounds (frLock f p) (bits.drop (matchEnd f p))

/-- `frPush` of R324 with a ring of `ringCap` bytes: the frames completed, in order, and the framer after the bits. -/
def frPush (ringCap : Nat) (f : FrState) (bits : List Bool) : List (List Byte) × FrState :=
  frLoop ringCap (2 * bits.length + 2) f bits

/-- A constructed framer (R321). -/
def frConstruct (lsbFirst : Bool) (ms me : List Byte) : FrState :=
  { cfg := true, lsbFirst := lsbFirst, startMarker := ms, endMarker := me, inFrame := false, tail := [], ring := [], pk := [],
    bitpos := 0, align := 0 }

/-- `FR_CONFIG` (R321). -/
def execFrConfig (msLen meLen : BitVec 12) (flags : Word) (ms me : List Word) (s : State) : Result :=
  if msLen = 0 ∨ meLen = 0 then raise .emptyMarker s
  else if Config.frMaxMarker < msLen.toNat ∨ Config.frMaxMarker < meLen.toNat then raise .markerTooLong s
  else if flags.extractLsb' 1 31 ≠ 0 then raise .invalidParam s
  else
    complete false []
      (s.withFr (frConstruct (flags.getLsbD 0) (unpackBytes msLen.toNat ms) (unpackBytes meLen.toNat me)))

/-- `FR_PUSH_BITS` (R323). -/
def execFrPushBits (n : Count) (ws : List Word) (s : State) : Result :=
  if s.fr.cfg = false then raise .notConfigured s
  else
    let r := frPush Config.frRingCap s.fr (unpackBits n.toNat ws)
    complete false (frameWords r.1) (s.withFr r.2)

end Sys2Proof.Machine
end

