-- ==== Sys2Proof/Machine/Timing.lean ====
section
/-!
DEFINITION. The Mueller-Muller symbol timing recovery (44_timing.md): interpolation, the timing update, the drop and its
two commands.
-/

namespace Sys2Proof.Machine

/-- Look-back `LB` (R271). -/
def lookBack : Interp → Nat
  | .linear => 0
  | .lagrange => 1

/-- Look-ahead `LA` (R271). -/
def lookAhead : Interp → Nat
  | .linear => 1
  | .lagrange => 2

/-- The interpolator that the `mode` operand selects; none where it is above 1 (R270). -/
def interpOf (mode : Word) : Option Interp :=
  if mode = 0 then some .linear else if mode = 1 then some .lagrange else none

/-- A constructed timing recovery (R270). -/
def trConstruct (sps kp ki cmax : F32) (mode : Interp) : TrState :=
  { cfg := true, sps := sps, kp := kp, ki := ki, cmax := cmax, mode := mode, queue := [], base := lookBack mode, mu := 0,
    integ := 0, havePrev := false, prevX := C32.zero, prevD := C32.zero }

/-- `TR_CONFIG` (R270). -/
def execTrConfig (n : Count) (sps kp ki cmax mode : Word) (s : State) : Result :=
  if n ≠ 0 then raise .badLength s
  else if (isFinite sps && fLe f1 sps && fLe sps fSpsMax) = false then raise .invalidParam s
  else if (isFinite kp && isFinite ki) = false then raise .invalidParam s
  else if (isFinite cmax && fLe 0 cmax && fLt cmax sps) = false then raise .invalidParam s
  else
    match interpOf mode with
    | none => raise .invalidParam s
    | some m => complete false [] (s.withTr (trConstruct sps kp ki cmax m))

/-- The timing recovery is ready: an update is possible (R271). -/
def trReady (t : TrState) : Bool := decide (t.base + lookAhead t.mode < t.queue.length)

/-- The linear form of R272 for one component: `q0` at `base`, `q1` at `base + 1`. -/
def lerp (mu om q0 q1 : F32) : Draw F32 := do
  let a ← fMul q0 om
  let b ← fMul q1 mu
  fAdd a b

/-- The four Lagrange weights of R272. -/
def lagrangeWeights (mu : F32) : Draw (F32 × F32 × F32 × F32) := do
  let m1 ← fSub mu f1
  let m2 ← fSub mu f2
  let p1 ← fAdd mu f1
  let mm1 ← fMul mu m1
  let mm1m2 ← fMul mm1 m2
  let cM ← fDiv (fNeg mm1m2) f6
  let p1m1 ← fMul p1 m1
  let p1m1m2 ← fMul p1m1 m2
  let c0 ← fDiv p1m1m2 f2
  let p1mu ← fMul p1 mu
  let p1mum2 ← fMul p1mu m2
  let c1 ← fDiv (fNeg p1mum2) f2
  let p1mu' ← fMul p1 mu
  let p1mum1 ← fMul p1mu' m1
  let c2 ← fDiv p1mum1 f6
  pure (cM, c0, c1, c2)

/-- The weighted sum of R272 for one component of the four samples. -/
def lagrangeSum (w : F32 × F32 × F32 × F32) (qM q0 q1 q2 : F32) : Draw F32 := do
  let aM ← fMul w.1 qM
  let a0 ← fMul w.2.1 q0
  let s1 ← fAdd aM a0
  let a1 ← fMul w.2.2.1 q1
  let s2 ← fAdd s1 a1
  let a2 ← fMul w.2.2.2 q2
  fAdd s2 a2

/-- `interp` of R272, at `t = base + mu`. -/
def interpolate (t : TrState) : Draw C32 :=
  match t.mode with
  | .linear => do
    let om ← fSub f1 t.mu
    let re ← lerp t.mu om (memRead t.queue t.base).re (memRead t.queue (t.base + 1)).re
    let im ← lerp t.mu om (memRead t.queue t.base).im (memRead t.queue (t.base + 1)).im
    pure ⟨re, im⟩
  | .lagrange => do
    let w ← lagrangeWeights t.mu
    let re ← lagrangeSum w (memRead t.queue (t.base - 1)).re (memRead t.queue t.base).re
      (memRead t.queue (t.base + 1)).re (memRead t.queue (t.base + 2)).re
    let im ← lagrangeSum w (memRead t.queue (t.base - 1)).im (memRead t.queue t.base).im
      (memRead t.queue (t.base + 1)).im (memRead t.queue (t.base + 2)).im
    pure ⟨re, im⟩

/-- The decision on a sample (R273). -/
def decision (x : C32) : C32 := ⟨sgn x.re, sgn x.im⟩

/-- The timing error of R275, R276, from the previous pair and this one. -/
def timingError (dp xp d x : C32) : Draw F32 := do
  let a ← fMul dp.re x.re
  let b ← fMul dp.im x.im
  let l ← fAdd a b
  let c ← fMul d.re xp.re
  let g ← fMul d.im xp.im
  let r ← fAdd c g
  fSub l r

/-- The integrator and the advance of an update (R275, R280): without a previous decision the advance is `sps` and the
integrator stays. -/
def trAdvance (t : TrState) (x : C32) : Draw (F32 × F32) :=
  if t.havePrev then do
    let e ← timingError t.prevD t.prevX (decision x) x
    let ie ← fMul t.ki e
    let i ← fAdd t.integ ie
    let pe ← fMul t.kp e
    let v ← fAdd pe (sanitize i)
    let adv ← fAdd t.sps (clamp (sanitize v) (fNeg t.cmax) t.cmax)
    pure (sanitize i, adv)
  else pure (t.integ, t.sps)

/-- `trStep` of R275: the emitted sample and the state after the update. -/
def trStep (t : TrState) : Draw (C32 × TrState) := do
  let x ← interpolate t
  let a ← trAdvance t x
  let p ← fAdd t.mu a.2
  pure (x, { t with integ := a.1, prevD := decision x, prevX := x, havePrev := true,
                    base := t.base + fFloor p, mu := fFraction p })

/-- The emission loop of R274, R278: `left` symbols may still be emitted. It answers the symbols, whether the capacity
stopped it while ready, and the state. -/
def trLoop : Nat → TrState → Draw (List C32 × Bool × TrState)
  | 0, t => pure ([], trReady t, t)
  | left + 1, t =>
    if trReady t then do
      let r ← trStep t
      let rs ← trLoop left r.2
      pure (r.1 :: rs.1, rs.2.1, rs.2.2)
    else pure ([], false, t)

/-- The number of samples `trDrop` drops (R277). -/
def trDropCount (t : TrState) : Nat := min (t.base - lookBack t.mode) t.queue.length

/-- `trDrop` of R277. -/
def trDrop (t : TrState) : TrState :=
  { t with queue := t.queue.drop (trDropCount t), base := t.base - trDropCount t }

/-- The body of `TR_PROCESS` (R274) after its checks: append, emit up to `cap` symbols, drop. -/
def trProcess (cap : Nat) (xs : List C32) (t : TrState) : Draw (List C32 × Bool × TrState) := do
  let r ← trLoop cap { t with queue := t.queue ++ xs }
  pure (r.1, r.2.1, trDrop r.2.2)

/-- `TR_PROCESS` (R274). -/
def execTrProcess (cap : Word) (xs : List C32) (s : State) : Result :=
  if s.tr.cfg = false then raise .notConfigured s
  else if Config.trQcap < s.tr.queue.length + xs.length then raise .queueOverflow s
  else
    let r := runDraw (trProcess cap.toNat xs s.tr) s.nanDraws
    complete r.1.2.1 (natWord r.1.1.length :: unpairWords r.1.1) ((s.withTr r.1.2.2).withDraws r.2)

end Sys2Proof.Machine
end

