-- ==== Sys2Proof/Machine/Pipe.lean ====
section
/-!
DEFINITION. The orchestrator (46_pipeline.md): its options, the bit decision with differential decoding, and the receive
pipeline over one block.
-/

namespace Sys2Proof.Machine

/-- `PIPE_CONFIG` (R370). -/
def execPipeConfig (n : Count) (flags : Word) (s : State) : Result :=
  if n ≠ 0 then raise .badLength s
  else if flags.extractLsb' 2 6 ≠ 0 ∨ flags.extractLsb' 16 16 ≠ 0 then raise .invalidParam s
  else
    complete false []
      (s.withPipe { fllEn := flags.getLsbD 0, diffEn := flags.getLsbD 1, demap := flags.extractLsb' 8 8, diffPrev := 0 })

/-- `quadrant` of R371. -/
def quadrant (m : C32) : BitVec 2 :=
  if sgn m.re = f1 then (if sgn m.im = f1 then 0 else 3) else (if sgn m.im = f1 then 1 else 2)

/-- The table entry of a quadrant, `demap[2q+1:2q]` (R42, R371). -/
def demapEntry (demap : BitVec 8) (q : BitVec 2) : BitVec 2 := demap.extractLsb' (2 * q.toNat) 2

/-- `symbolBits` of R371, R372: the two bits of a symbol and the orchestrator after it. -/
def symbolBits (p : PipeState) (m : C32) : List Bool × PipeState :=
  let q := quadrant m
  let v := demapEntry p.demap (if p.diffEn then q - p.diffPrev else q)
  ([v.getLsbD 1, v.getLsbD 0], if p.diffEn then { p with diffPrev := q } else p)

/-- The bits of a block's symbols, in order (R373). -/
def demapBlock : PipeState → List C32 → List Bool × PipeState
  | p, [] => ([], p)
  | p, m :: ms =>
    let r := symbolBits p m
    let rs := demapBlock r.2 ms
    (r.1 ++ rs.1, rs.2)

/-- The FLL stage of R373: the loop where it is enabled, nothing where it is not. -/
def fllStage (fllEn : Bool) (fll : FllState) (ys : List C32) : Draw (List C32 × FllState) :=
  if fllEn then runBlock fllStep fll ys else pure (ys, fll)

/-- The states of the four stages before the framer. -/
structure Stages where
  fir : FirState
  fll : FllState
  tr : TrState
  cos : CosState
deriving DecidableEq, Repr

/-- The stages of R373 up to the Costas loop: the Costas outputs, `MORE`, and the stages after the block. Each stage runs
over the whole block before the next, as R374 composes them; R373's loop alternates the first two sample by sample, which
differs in nothing but the order of NaN draws (log entry 3). -/
def pipeSymbols (fllEn : Bool) (cap : Nat) (xs : List C32) (st : Stages) : Draw (List C32 × Bool × Stages) := do
  let ys ← runBlock firStep st.fir xs
  let zs ← fllStage fllEn st.fll ys.1
  let syms ← trProcess cap zs.1 st.tr
  let outs ← runBlock cosStep st.cos syms.1
  pure (outs.1, syms.2.1, { fir := ys.2, fll := zs.2, tr := syms.2.2, cos := outs.2 })

/-- Every stage that the pipeline runs has been constructed (R373). -/
def pipeConfigured (s : State) : Bool :=
  s.fir.cfg && s.tr.cfg && s.cos.cfg && s.fr.cfg && (!s.pipe.fllEn || s.fll.cfg)

/-- The stages of a state. -/
def State.stages (s : State) : Stages := { fir := s.fir, fll := s.fll, tr := s.tr, cos := s.cos }

/-- Replace the stages of a state. -/
def State.withStages (s : State) (st : Stages) : State := { s with fir := st.fir, fll := st.fll, tr := st.tr, cos := st.cos }

/-- `PIPE_PROCESS` (R373). -/
def execPipeProcess (cap : Word) (xs : List C32) (s : State) : Result :=
  if pipeConfigured s = false then raise .notConfigured s
  else if Config.trQcap < s.tr.queue.length + xs.length then raise .queueOverflow s
  else
    let r := runDraw (pipeSymbols s.pipe.fllEn cap.toNat xs s.stages) s.nanDraws
    let bits := demapBlock s.pipe r.1.1
    let frames := frPush Config.frRingCap s.fr bits.1
    complete r.1.2.1 (natWord r.1.1.length :: unpairWords r.1.1 ++ frameWords frames.1)
      ((((s.withStages r.1.2.2).withPipe bits.2).withFr frames.2).withDraws r.2)

end Sys2Proof.Machine
end

