-- ==== Sys2Proof/Machine/Dispatch.lean ====
section
/-!
DEFINITION. What each command does: one arm per row of spec/opcode_table.json, each a call of its meaning. A meaning reads
the operands its decoder assembled and answers the state with its writes and its response; leaving the stream is the
step's part (R115).
-/

namespace Sys2Proof.Machine

def exec (i : Instr) (s : State) : Host.Outcome State Fault Refusal :=
  match i with
  | .nop n => Sys2Proof.Machine.execNop n s
  | .readReg sel => Sys2Proof.Machine.execReadReg sel s
  | .coreReset n => Sys2Proof.Machine.execCoreReset n s
  | .firLoadReal taps => Sys2Proof.Machine.execFirLoadReal taps s
  | .firLoadComplex ws => Sys2Proof.Machine.execFirLoadComplex ws s
  | .firFilter n re im => Sys2Proof.Machine.execFirFilter n re im s
  | .firFilterBlock cap xs => Sys2Proof.Machine.execFirFilterBlock cap xs s
  | .firConvolve cap xs => Sys2Proof.Machine.execFirConvolve cap xs s
  | .fllConfig sps rolloff bw flags taps => Sys2Proof.Machine.execFllConfig sps rolloff bw flags taps s
  | .fllProcess cap xs => Sys2Proof.Machine.execFllProcess cap xs s
  | .costasConfig params => Sys2Proof.Machine.execCostasConfig params s
  | .costasProcess cap xs => Sys2Proof.Machine.execCostasProcess cap xs s
  | .trConfig n sps kp ki cmax mode => Sys2Proof.Machine.execTrConfig n sps kp ki cmax mode s
  | .trProcess cap xs => Sys2Proof.Machine.execTrProcess cap xs s
  | .frConfig msLen meLen flags ms me => Sys2Proof.Machine.execFrConfig msLen meLen flags ms me s
  | .frPushBits n ws => Sys2Proof.Machine.execFrPushBits n ws s
  | .pipeConfig n flags => Sys2Proof.Machine.execPipeConfig n flags s
  | .pipeProcess cap xs => Sys2Proof.Machine.execPipeProcess cap xs s

end Sys2Proof.Machine
end

