-- ==== Sys2Proof/Machine/Step.lean ====
section
/-!
DEFINITION. One step of the CORE: the decode procedure of 30_encoding.md R115 at the head of the command stream.
-/

namespace Sys2Proof.Machine

/-- One step (R115): a whole command executes and leaves the stream; an unassigned header raises ILLEGAL_OPCODE and
leaves it alone (R120); with no word, or too few operand words, the CORE holds all its state (R416, R121). -/
def step (s : State) : Host.Outcome State Fault Refusal :=
  match decode s.cmdIn with
  | .command i rest => afterCommand rest (s.cmdIn.length - rest.length) (exec i s)
  | .illegalOpcode rest => afterCommand rest 1 (raise .illegalOpcode s)
  | .truncated => .next s
  | .idle => .next s

/-- The state with an instruction's words at the head of its command stream, which is where `step` fetches. The words
that stood there follow them (log entry 7). -/
def State.withFetchWord (s : State) (nbits w : Nat) : State := { s with cmdIn := tableWords nbits w ++ s.cmdIn }

end Sys2Proof.Machine
end

