-- ==== Sys2Proof/Safety.lean ====
section
/-!
DEFINITION. What counts as a good state: the invariants that 10_state.md states "true after every command" (R33, R36,
R37, R39, R41), the ranges its tables give, and "no partially-initialized component exists" (60_exceptions.md R402): a
block that is not configured is in its reset state. Also the limits of 00_scope.md R6 as statements over the reals, and the
agreement law of 41_fir.md R172.
-/

namespace Sys2Proof.Machine

/-- A FIR instance with at most `maxTaps` taps (R32, R33). -/
structure FirGood (maxTaps : Nat) (f : FirState) : Prop where
  unconfigured : f.cfg = false → f = FirState.reset
  taps_length : f.taps.length = f.n
  dl_length : f.dl.length = f.n
  within : f.n ≤ maxTaps
  cursor : f.cfg = true → f.cur < f.n
  real_taps : f.cplx = false → ∀ h ∈ f.taps, h.im = 0

/-- A value lies in `[-b, b]`. -/
def InRange (b v : F32) : Prop := fLe (fNeg b) v = true ∧ fLe v b = true

/-- A finite value above zero. -/
def Positive (v : F32) : Prop := isFinite v = true ∧ fLt 0 v = true

/-- The FLL (R35, R36). -/
structure FllGood (l : FllState) : Prop where
  unconfigured : l.cfg = false → l = FllState.reset
  lo_good : FirGood Config.fllMaxTaps l.lo
  up_good : FirGood Config.fllMaxTaps l.up
  lo_cfg : l.lo.cfg = l.cfg
  up_cfg : l.up.cfg = l.cfg
  kind : l.lo.cplx = l.cfg ∧ l.up.cplx = l.cfg
  same_cursor : l.lo.cur = l.up.cur
  same_line : l.lo.dl = l.up.dl
  mirror : l.lo.taps = l.up.taps.map conj
  parameters : l.cfg = true → Positive l.sps ∧ Positive l.bw ∧ fLe 0 l.rolloff = true ∧ fLe l.rolloff f1 = true
  clamp_limit : isFinite l.beta = true ∧ isFinite l.fmax = true ∧ fLe 0 l.fmax = true
  phase_range : InRange twoPiF l.phase
  freq_range : InRange l.fmax l.freq

/-- The Costas loop (R37). -/
structure CosGood (c : CosState) : Prop where
  unconfigured : c.cfg = false → c = CosState.reset
  parameters : c.cfg = true → Positive c.fs ∧ Positive c.bwhz ∧ Positive c.damp
  gains : isFinite c.alpha = true ∧ isFinite c.beta = true
  phase_range : InRange piF c.phase
  freq_finite : isFinite c.freq = true

/-- A decision component is +1.0 or -1.0 (R38). -/
def IsDecision (v : F32) : Prop := v = f1 ∨ v = fMinus1

/-- The timing recovery (R38, R39). -/
structure TrGood (t : TrState) : Prop where
  unconfigured : t.cfg = false → t = TrState.reset
  parameters : t.cfg = true →
    (isFinite t.sps = true ∧ fLe f1 t.sps = true ∧ fLe t.sps fSpsMax = true) ∧
    (isFinite t.kp = true ∧ isFinite t.ki = true) ∧
    (isFinite t.cmax = true ∧ fLe 0 t.cmax = true ∧ fLt t.cmax t.sps = true)
  mu_range : fLe 0 t.mu = true ∧ fLt t.mu f1 = true
  queue_within : t.queue.length ≤ Config.trQcap
  base_from : t.cfg = true → lookBack t.mode ≤ t.base
  normalized : t.base = lookBack t.mode ∨ t.queue = []
  integ_finite : isFinite t.integ = true
  decided : t.havePrev = true → IsDecision t.prevD.re ∧ IsDecision t.prevD.im

/-- The framer (R40, R41), with the fact R324 rests on: the retained tail holds no start marker. -/
structure FrGood (f : FrState) : Prop where
  unconfigured : f.cfg = false → f = FrState.reset
  markers : f.cfg = true →
    (1 ≤ f.startMarker.length ∧ f.startMarker.length ≤ Config.frMaxMarker) ∧
    (1 ≤ f.endMarker.length ∧ f.endMarker.length ≤ Config.frMaxMarker)
  searching : f.inFrame = false → f.ring = [] ∧ f.pk = []
  tail_within : f.tail.length ≤ 8 * f.startMarker.length + 7
  tail_unmatched : f.cfg = true → findMarker f.lsbFirst f.startMarker f.tail = none
  framing : f.inFrame = true → f.tail = [] ∧ f.pk.length ≤ 7 ∧ f.ring.length ≤ Config.frRingCap
  no_end_yet : f.inFrame = true → f.endMarker.length ≤ f.ring.length → lastN f.endMarker.length f.ring ≠ f.endMarker

/-- Every block of a state is good. -/
structure State.Good (s : State) : Prop where
  fir : FirGood Config.firMaxTaps s.fir
  fll : FllGood s.fll
  cos : CosGood s.cos
  tr : TrGood s.tr
  fr : FrGood s.fr

/-- A run that is safe: it never stops. R403 says every run of this hardware is. -/
def neverStops (s : State) : Prop := ∀ k, ∃ t, Sys2Proof.core.run k s = .next t

/-- R6's requirement on `P_COS` and `P_SIN`: 1.0 and +0 exactly at +0, a NaN of a NaN or infinite argument, and on every
finite argument a value within 2 ulp of the real cosine and sine. The obligation
`TrigonometryKeepsItsLimits` says the same. -/
def TrigConforms : Prop :=
  ∀ (p : F32) (k : Nat),
    (runDraw (pCos 0) k = (f1, k) ∧ runDraw (pSin 0) k = (0, k)) ∧
    (isFinite p = false → isNaN (runDraw (pCos p) k).1 = true ∧ isNaN (runDraw (pSin p) k).1 = true) ∧
    (isFinite p = true →
      NearReal (runDraw (pCos p) k).1 (Real.cos (fRat p)) ∧ NearReal (runDraw (pSin p) k).1 (Real.sin (fRat p)))

/-- R172's agreement law, per component: on the finite data that a FIR_CONVOLVE of this build can transform, a component of
the FFT-mode result is finite and within `P_TOL` of the same component of the streaming result of a freshly constructed
instance, whatever NaN encodings that one draws. It holds in every build (`fftAgrees` of Sys2Proof/Laws/Blocks.lean). DESIGN
CHOICE: one tolerance serves all of that data (log entry 4), and of a component whose streaming result overflowed to an
infinity or a NaN the law says nothing, since the spec states no distance from one (log entry 15). -/
def FftAgrees : Prop :=
  0 < pTol ∧
  ∀ (cplx : Bool) (taps xs : List C32) (size j k : Nat) (y : C32), Convolvable taps cplx xs size →
    (runDraw (runBlock firStep (firConstruct cplx taps) xs) k).1.1[j]? = some y →
    (isFinite y.re = true → Within pTol (pFftConv taps cplx xs size j).re (fRat y.re)) ∧
    (isFinite y.im = true → Within pTol (pFftConv taps cplx xs size j).im (fRat y.im))

end Sys2Proof.Machine
end

