-- ==== Sys2Proof/Certificates/Slice0/Obligations.lean ====
section
/-!
DEFINITION. The statements for the provers, `def Obligations.<Name> : Prop`, and the few definitions they are written
with. A statement gives a command's next state whole, as a record update of the old state, so that it is also the
command's frame; the response of a command is what it appends to `resp`.
-/

namespace Sys2Proof.Claims

open Sys2Proof.Machine

/-- The words a command appended to the response stream. -/
def newWords (s t : State) : List Word := t.resp.drop s.resp.length

/-- The status word of a command's response. -/
def statusOf (s t : State) : Word := (newWords s t).headD 0

/-- The `ERR` field of a command's response (R117). -/
def errOf (s t : State) : Nat := (statusOf s t).toNat % 256

/-- The `MORE` bit of a command's response (R117). -/
def moreOf (s t : State) : Bool := (statusOf s t).getLsbD 8

/-- The state that an error response leaves (R401, R402). -/
def failed (s : State) (code : Word) : State := { s with resp := s.resp ++ [code] }

/-- Commands one after another. -/
def execAll : List Instr → State → Result
  | [], s => .next s
  | i :: is, s =>
    match exec i s with
    | .next t => execAll is t
    | .fault r => .fault r
    | .refused r => .refused r

/-- The scalar registers of R45 to R49, each number with the value the rule gives it, flag bits by their weights. -/
def registerTable (s : State) : List (Nat × Word) :=
  [(0x00000, 0x5150534B), (0x00001, 0x00000001), (0x00002, s.cmdpos),
   (0x00010, BitVec.ofNat 32 (s.fir.cfg.toNat + 2 * s.fir.cplx.toNat)),
   (0x00011, BitVec.ofNat 32 s.fir.n), (0x00012, BitVec.ofNat 32 s.fir.cur),
   (0x00020, BitVec.ofNat 32 (s.fll.cfg.toNat + 2 * s.fll.swap.toNat)),
   (0x00021, BitVec.ofNat 32 s.fll.lo.n), (0x00022, s.fll.sps), (0x00023, s.fll.rolloff), (0x00024, s.fll.bw),
   (0x00025, 0x00000000), (0x00026, s.fll.beta), (0x00027, s.fll.fmax), (0x00028, s.fll.phase), (0x00029, s.fll.freq),
   (0x0002A, BitVec.ofNat 32 s.fll.lo.cur),
   (0x00030, BitVec.ofNat 32 s.cos.cfg.toNat), (0x00031, s.cos.fs), (0x00032, s.cos.bwhz), (0x00033, s.cos.damp),
   (0x00034, s.cos.alpha), (0x00035, s.cos.beta), (0x00036, s.cos.phase), (0x00037, s.cos.freq),
   (0x00040, BitVec.ofNat 32 (s.tr.cfg.toNat + 2 * (if s.tr.mode = .lagrange then 1 else 0) + 4 * s.tr.havePrev.toNat
      + 8 * (if s.tr.prevD.re = 0xBF800000 then 1 else 0) + 16 * (if s.tr.prevD.im = 0xBF800000 then 1 else 0))),
   (0x00041, s.tr.sps), (0x00042, s.tr.kp), (0x00043, s.tr.ki), (0x00044, s.tr.cmax), (0x00045, s.tr.integ),
   (0x00046, s.tr.mu), (0x00047, BitVec.ofNat 32 s.tr.base), (0x00048, BitVec.ofNat 32 s.tr.queue.length),
   (0x00049, s.tr.prevX.re), (0x0004A, s.tr.prevX.im),
   (0x00050, BitVec.ofNat 32 (s.fr.cfg.toNat + 2 * s.fr.lsbFirst.toNat + 4 * s.fr.inFrame.toNat
      + 16 * s.fr.align.toNat + 256 * s.fr.bitpos.toNat + 4096 * s.fr.pk.length)),
   (0x00051, BitVec.ofNat 32 s.fr.startMarker.length), (0x00052, BitVec.ofNat 32 s.fr.endMarker.length),
   (0x00053, BitVec.ofNat 32 s.fr.ring.length), (0x00054, BitVec.ofNat 32 s.fr.tail.length),
   (0x00060, BitVec.ofNat 32 (s.pipe.fllEn.toNat + 2 * s.pipe.diffEn.toNat + 256 * s.pipe.demap.toNat
      + 65536 * s.pipe.diffPrev.toNat))]

/-- R78's parameter registers. -/
def parameterTable : List (Nat × Nat) :=
  [(0x000F0, Config.firMaxTaps), (0x000F1, Config.fllMaxTaps), (0x000F2, Config.trQcap), (0x000F3, Config.frRingCap),
   (0x000F4, Config.frMaxMarker), (0x000F5, Config.fftMax)]

/-- The window-0 numbers that R78 lists as unassigned. -/
def unassignedNumber (i : Nat) : Prop :=
  (0x00003 ≤ i ∧ i ≤ 0x0000F) ∨ (0x00013 ≤ i ∧ i ≤ 0x0001F) ∨ (0x0002B ≤ i ∧ i ≤ 0x0002F) ∨ (0x00038 ≤ i ∧ i ≤ 0x0003F) ∨
  (0x0004B ≤ i ∧ i ≤ 0x0004F) ∨ (0x00055 ≤ i ∧ i ≤ 0x0005F) ∨ (0x00061 ≤ i ∧ i ≤ 0x000EF) ∨ (0x000F6 ≤ i ∧ i ≤ 0xFFFFF)

/-- What R50's windows show of each memory. -/
def windowContents (s : State) (w : Nat) : List Word :=
  match w with
  | 1 => s.fir.taps.map C32.re
  | 2 => s.fir.taps.map C32.im
  | 3 => s.fir.dl.map C32.re
  | 4 => s.fir.dl.map C32.im
  | 5 => s.fll.lo.taps.map C32.re
  | 6 => s.fll.lo.taps.map C32.im
  | 7 => s.fll.up.taps.map C32.re
  | 8 => s.fll.up.taps.map C32.im
  | 9 => s.tr.queue.map C32.re
  | 10 => s.tr.queue.map C32.im
  | 11 => s.fr.ring.map (fun b => BitVec.ofNat 32 b.toNat)
  | 12 => s.fr.startMarker.map (fun b => BitVec.ofNat 32 b.toNat)
  | 13 => s.fr.endMarker.map (fun b => BitVec.ofNat 32 b.toNat)
  | _ => []

/-- The opcodes that R120 lists as unassigned. -/
def unassignedOpcode (opc : Nat) : Prop :=
  (0x03 ≤ opc ∧ opc ≤ 0x0F) ∨ (0x15 ≤ opc ∧ opc ≤ 0x1F) ∨ (0x22 ≤ opc ∧ opc ≤ 0x2F) ∨ (0x32 ≤ opc ∧ opc ≤ 0x3F) ∨
  (0x42 ≤ opc ∧ opc ≤ 0x4F) ∨ (0x52 ≤ opc ∧ opc ≤ 0x5F) ∨ (0x62 ≤ opc ∧ opc ≤ 0xFF)

/-- The output of R160's filter step, as a fold over the window elements oldest first: window element `i` against the
reversed taps. -/
def filterOutput (f : FirState) (x : C32) : Draw C32 :=
  (List.range f.n).foldlM (fun acc i => do
    let w := (f.dl.set f.cur x).getD (((f.cur + 1) % f.n + i) % f.n) ⟨0, 0⟩
    let h := f.taps.getD (f.n - 1 - i) ⟨0, 0⟩
    let p ← if f.cplx then cMul h w else rMul h.re w
    cAdd acc p) ⟨0, 0⟩

/-- `size` is the least power of two that is at least `m` (R171). -/
def isFftSize (m size : Nat) : Prop :=
  (∃ k, size = 2 ^ k) ∧ m ≤ size ∧ ∀ k, m ≤ 2 ^ k → size ≤ 2 ^ k

/-- The packed words of a byte sequence (R93): byte `j` in bits `8 * (j mod 4)` and up of word `j / 4`, and zeros in the
bytes of the last word that no byte fills. -/
def packedBytes (f : List Byte) : List Word :=
  (List.range ((f.length + 3) / 4)).map (fun i =>
    BitVec.ofNat 32 (∑ j ∈ Finset.range 4, (f.getD (4 * i + j) 0).toNat * 2 ^ (8 * j)))

/-- A response's frame words (R118): the number of frames, then each one's length and its packed bytes. -/
def framesResponse (frames : List (List Byte)) : List Word :=
  BitVec.ofNat 32 frames.length :: (frames.map (fun f => BitVec.ofNat 32 f.length :: packedBytes f)).flatten

/-- `x` times `(c, -s)` for the cosine `c` and the sine `s` of a phase, by components in R12's order (R204, R244). -/
def rotatedBack (phase : F32) (x : C32) : Draw C32 := do
  let c ← pCos phase
  let s ← pSin phase
  let re ← (do let a ← fMul x.re c; let b ← fMul x.im (fNeg s); fSub a b)
  let im ← (do let a ← fMul x.re (fNeg s); let b ← fMul x.im c; fAdd a b)
  pure ⟨re, im⟩

/-- `re * re + im * im` (R12). -/
def squaredMagnitude (y : C32) : Draw F32 := do
  let a ← fMul y.re y.re
  let b ← fMul y.im y.im
  fAdd a b

/-- `v` moved to the nearer end of `[-b, b]` where it lies outside (R16). -/
def clampedTo (b v : F32) : F32 := if fLt v (fNeg b) then fNeg b else if fLt b v then b else v

/-- What one FLL sample answers and leaves (R204): the rotated sample, and the loop with both filters advanced over it. -/
def fllSample (l : FllState) (x : C32) : Draw (C32 × FllState) := do
  let r ← rotatedBack l.phase x
  let yl ← filterOutput l.lo r
  let yu ← filterOutput l.up r
  let e ← (do let pl ← squaredMagnitude yl; let pu ← squaredMagnitude yu; fSub pl pu)
  let f ← (do let be ← fMul l.beta e; fAdd l.freq be)
  let p ← fAdd l.phase f
  let phase ← wrap p twoPiF
  pure (r, { l with
    phase := phase, freq := clampedTo l.fmax (if isFinite f then f else 0),
    lo := { l.lo with dl := l.lo.dl.set l.lo.cur r, cur := (l.lo.cur + 1) % l.lo.n },
    up := { l.up with dl := l.up.dl.set l.up.cur r, cur := (l.up.cur + 1) % l.up.n } })

/-- The hard decision of R13: -1.0 below zero and for a NaN, else +1.0. -/
def hardDecision (v : F32) : F32 := if fLe 0 v then 0x3F800000 else 0xBF800000

/-- What one Costas sample answers and leaves (R244): the derotated sample and the loop. -/
def costasSample (l : CosState) (x : C32) : Draw (C32 × CosState) := do
  let m ← rotatedBack l.phase x
  let e ← (do let a ← fMul (hardDecision m.re) m.im; let b ← fMul (hardDecision m.im) m.re; fSub a b)
  let f ← (do let be ← fMul l.beta e; fAdd l.freq be)
  let p ← (do let ae ← fMul l.alpha e; let fa ← fAdd f ae; fAdd l.phase fa)
  let phase ← wrap p piF
  pure (m, { l with freq := if isFinite f then f else 0, phase := phase })

/-- R242's gains, operation by operation; none where one of the results is a NaN. -/
def gainsOf (fs bwhz damp : F32) : Option (F32 × F32) := do
  let bw ← (do let w ← fMulCore twoPiF bwhz; fDivCore w fs)
  let bwbw ← fMulCore bw bw
  let d ← (do let dd ← fMulCore f2 damp; let ddb ← fMulCore dd bw; let d1 ← fAddCore f1 ddb; fAddCore d1 bwbw)
  let alpha ← (do let da ← fMulCore f4 damp; let dab ← fMulCore da bw; fDivCore dab d)
  let beta ← (do let b4 ← fMulCore f4 bwbw; fDivCore b4 d)
  pure (alpha, beta)

/-- R272's linear form for one component of the sample at the base and the next one, with `om = 1.0 - mu`. -/
def linearForm (om mu q0 q1 : F32) : Draw F32 := do
  let a ← fMul q0 om
  let b ← fMul q1 mu
  fAdd a b

/-- R272's four weights, of the samples at -1, 0, 1 and 2 from the base. -/
def fourWeights (mu : F32) : Draw (F32 × F32 × F32 × F32) := do
  let m1 ← fSub mu f1
  let m2 ← fSub mu f2
  let p1 ← fAdd mu f1
  let wM ← (do let a ← fMul mu m1; let b ← fMul a m2; fDiv (fNeg b) f6)
  let w0 ← (do let a ← fMul p1 m1; let b ← fMul a m2; fDiv b f2)
  let w1 ← (do let a ← fMul p1 mu; let b ← fMul a m2; fDiv (fNeg b) f2)
  let w2 ← (do let a ← fMul p1 mu; let b ← fMul a m1; fDiv b f6)
  pure (wM, w0, w1, w2)

/-- R272's Lagrange sum for one component. -/
def lagrangeForm (w : F32 × F32 × F32 × F32) (qM q0 q1 q2 : F32) : Draw F32 := do
  let aM ← fMul w.1 qM
  let a0 ← fMul w.2.1 q0
  let b ← fAdd aM a0
  let a1 ← fMul w.2.2.1 q1
  let c ← fAdd b a1
  let a2 ← fMul w.2.2.2 q2
  fAdd c a2

/-- An update of the timing recovery is possible (R271): the sample 1 (linear) or 2 (Lagrange) past the base has come. -/
def updatePossible (t : TrState) : Prop :=
  t.base + (match t.mode with | .linear => 1 | .lagrange => 2) < t.queue.length

/-- `n` timing updates one after another: the samples they emit and the state after the last. -/
def updates : Nat → TrState → Draw (List C32 × TrState)
  | 0, t => pure ([], t)
  | n + 1, t => do
    let r ← trStep t
    let rs ← updates n r.2
    pure (r.1 :: rs.1, rs.2)

/-- The exact sum of R161 for one component, `part` of each product: tap `k` against input `j - k`. -/
def exactConvolution (part : C32 → C32 → Rat) (taps xs : List C32) (j : Nat) : Rat :=
  ∑ k ∈ Finset.range (j + 1), part (taps.getD k ⟨0, 0⟩) (xs.getD (j - k) ⟨0, 0⟩)

/-- Every byte of the marker stands at bit offset `q` and after, eight bits each (R324). -/
def standsAt (lsbFirst : Bool) (ms : List Byte) (wv : List Bool) (q : Nat) : Prop :=
  q + 8 * ms.length ≤ wv.length ∧
  ∀ j, j < ms.length → packBits lsbFirst ((wv.drop (q + 8 * j)).take 8) = ms.getD j 0

/-- The error R201's checks give before the gains are computed, in R404's order. -/
def fllConfigError (sps rolloff bw flags : Word) (count : Nat) : Option Word :=
  if count = 0 then some 0x07
  else if count > Config.fllMaxTaps then some 0x06
  else if !(isFinite sps && fLt 0 sps) then some 0x07
  else if !(fLe 0 rolloff && fLe rolloff f1) then some 0x07
  else if !(isFinite bw && fLt 0 bw) then some 0x07
  else if flags.toNat / 2 ≠ 0 then some 0x07
  else none

/-- The eight bits of a byte in stream order (R322). -/
def streamBits (lsbFirst : Bool) (b : Byte) : List Bool :=
  (List.range 8).map (fun j => b.getLsbD (if lsbFirst then j else 7 - j))

/-- The bits of a byte sequence in stream order. -/
def streamOf (lsbFirst : Bool) (bytes : List Byte) : List Bool := bytes.flatMap (streamBits lsbFirst)

/-- A quarter turn of a sample. -/
def quarterTurn (c : C32) : C32 := ⟨fNeg c.im, c.re⟩

/-- A component that has a sign: neither a zero nor a NaN. -/
def Signed (v : F32) : Prop := isNaN v = false ∧ fMag v ≠ 0

end Sys2Proof.Claims

open Sys2Proof Sys2Proof.Machine Sys2Proof.Claims

/-! ## Encoding -/

/-- R110 to R113: the decoder reads back every command that the encoder writes, with every operand, and leaves the words
after it. -/
def Obligations.EncodedCommandDecodesToItself : Prop :=
  ∀ (i : Instr) (rest : List Word), WellFormed i → decode (encode i ++ rest) = .command i rest

/-- R110, R114: what the decoder accepts is a well-formed command, and its words are exactly that command's encoding. -/
def Obligations.DecodedWordsAreTheCommandsEncoding : Prop :=
  ∀ (ws : List Word) (i : Instr) (rest : List Word), decode ws = .command i rest → WellFormed i ∧ ws = encode i ++ rest

/-- Words written out from R111 to R113 decode to the commands they stand for. -/
def Obligations.WrittenOutWordsDecode : Prop :=
  decode [0x01000028] = .command (.readReg 0x28) [] ∧
  decode [0x10000002, 0x3F000000, 0x3E800000] = .command (.firLoadReal [0x3F000000, 0x3E800000]) [] ∧
  decode [0x30000002, 0x447A0000, 0x41200000] = .command (.costasConfig [0x447A0000, 0x41200000]) [] ∧
  decode [0x50001002, 0x00000000, 0x00004241, 0x00000043] = .command (.frConfig 2 1 0 [0x4241] [0x43]) []

/-! ## The step -/

/-- R115, R31: a step at a stream that starts with a whole command is that command's execution; then the command's words
leave the stream and `cmdpos` advances by their number. -/
def Obligations.StepRunsTheDecodedCommand : Prop :=
  ∀ (s t : State) (i : Instr) (rest : List Word), decode s.cmdIn = .command i rest → exec i s = .next t →
    step s = .next { t with cmdIn := rest, cmdpos := t.cmdpos + BitVec.ofNat 32 (s.cmdIn.length - rest.length) }

/-- R31, R114, R115: whatever the command answers, success or error, a step consumes its header and the `W` operand words
that the header alone decides, `cmdpos` advances by `1 + W` modulo 2^32, and the response stream only grows. -/
def Obligations.StepConsumesHeaderAndOperands : Prop :=
  ∀ (s t : State) (h : Word) (ws : List Word) (f : Format), s.cmdIn = h :: ws → formatOf (headerOpc h) = some f →
    operandCount f (headerN h) ≤ ws.length → step s = .next t →
    t.cmdIn = ws.drop (operandCount f (headerN h)) ∧
    t.cmdpos = s.cmdpos + BitVec.ofNat 32 (1 + operandCount f (headerN h)) ∧
    ∃ st out, t.resp = s.resp ++ st :: out

/-- R120: an unassigned opcode consumes its header word alone and answers ILLEGAL_OPCODE; nothing else changes. -/
def Obligations.UnassignedOpcodeAnswersIllegalOpcode : Prop :=
  ∀ (s : State) (h : Word) (rest : List Word), s.cmdIn = h :: rest → unassignedOpcode (h.toNat / 2 ^ 24) →
    step s = .next { s with cmdIn := rest, cmdpos := s.cmdpos + 1, resp := s.resp ++ [0x00000001] }

/-- R121, R416: with no word, or fewer operand words than the header calls for, the CORE holds all its state. -/
def Obligations.ShortStreamHoldsAllState : Prop :=
  ∀ (s : State), (s.cmdIn = [] ∨
      ∃ h ws f, s.cmdIn = h :: ws ∧ formatOf (headerOpc h) = some f ∧ ws.length < operandCount f (headerN h)) →
    step s = .next s

/-- R403: no run stops, from any state, however long. -/
def Obligations.NoRunEverStops : Prop := ∀ s : State, neverStops s

/-! ## Errors and responses -/

/-- R401, R402: a command whose response carries an error has appended that one status word, with `MORE` and the reserved
bits zero, and changed nothing else; so has the step that rejects an unassigned header, which then leaves the stream. That
`nanDraws` stays too, where a rejected command computed a NaN, is the model's choice (log entry 3). -/
def Obligations.FailedCommandChangesNothing : Prop :=
  (∀ (i : Instr) (s t : State), exec i s = .next t → errOf s t ≠ 0 → t = failed s (BitVec.ofNat 32 (errOf s t))) ∧
  ∀ (s t : State) (rest : List Word), decode s.cmdIn = .illegalOpcode rest → step s = .next t →
    t = { failed s 0x00000001 with cmdIn := rest, cmdpos := s.cmdpos + 1 }

/-- R117, R400: every command appends one response, whose status word has its reserved bits zero and a code that R400
assigns; only TR_PROCESS and PIPE_PROCESS set `MORE`; an error response is the status word alone. -/
def Obligations.EveryCommandAnswersOneStatusWord : Prop :=
  ∀ (i : Instr) (s t : State), exec i s = .next t →
    (∃ out, t.resp = s.resp ++ statusOf s t :: out ∧ (errOf s t ≠ 0 → out = [])) ∧
    (statusOf s t).toNat < 512 ∧ errOf s t ≤ 0x0D ∧
    (moreOf s t = true → errOf s t = 0 ∧ ((∃ cap xs, i = .trProcess cap xs) ∨ ∃ cap xs, i = .pipeProcess cap xs))

/-- R400, R404, R443: a process command of a block that is not constructed answers NOT_CONFIGURED; on a constructed one,
an output span smaller than the input answers CAPACITY, and a timing queue that would grow past its capacity answers
QUEUE_OVERFLOW. No sample is processed. -/
def Obligations.ProcessCommandsCheckBlockSpanAndQueue : Prop :=
  ∀ (s : State) (cap re im : Word) (xs : List C32) (n : Count) (ws : List Word),
    (s.fir.cfg = false →
      exec (.firFilter 0 re im) s = .next (failed s 0x03) ∧ exec (.firFilterBlock cap xs) s = .next (failed s 0x03) ∧
      exec (.firConvolve cap xs) s = .next (failed s 0x03)) ∧
    (s.fll.cfg = false → exec (.fllProcess cap xs) s = .next (failed s 0x03)) ∧
    (s.cos.cfg = false → exec (.costasProcess cap xs) s = .next (failed s 0x03)) ∧
    (s.tr.cfg = false → exec (.trProcess cap xs) s = .next (failed s 0x03)) ∧
    (s.fr.cfg = false → exec (.frPushBits n ws) s = .next (failed s 0x03)) ∧
    (s.fir.cfg = false ∨ s.tr.cfg = false ∨ s.cos.cfg = false ∨ s.fr.cfg = false ∨
        (s.pipe.fllEn = true ∧ s.fll.cfg = false) →
      exec (.pipeProcess cap xs) s = .next (failed s 0x03)) ∧
    (cap.toNat < xs.length →
      (s.fir.cfg = true →
        exec (.firFilterBlock cap xs) s = .next (failed s 0x0A) ∧ exec (.firConvolve cap xs) s = .next (failed s 0x0A)) ∧
      (s.fll.cfg = true → exec (.fllProcess cap xs) s = .next (failed s 0x0A)) ∧
      (s.cos.cfg = true → exec (.costasProcess cap xs) s = .next (failed s 0x0A))) ∧
    (s.tr.queue.length + xs.length > Config.trQcap →
      (s.tr.cfg = true → exec (.trProcess cap xs) s = .next (failed s 0x0B)) ∧
      (s.fir.cfg = true → s.tr.cfg = true → s.cos.cfg = true → s.fr.cfg = true →
        (s.pipe.fllEn = true → s.fll.cfg = true) → exec (.pipeProcess cap xs) s = .next (failed s 0x0B)))

/-! ## Which commands write which state -/

/-- R30, R34, R90: no command writes a block's state but that block's commands, PIPE_PROCESS and CORE_RESET; no command
writes the stream position or the command stream. -/
def Obligations.OnlyABlocksCommandsWriteIt : Prop :=
  ∀ (i : Instr) (s t : State), exec i s = .next t →
    (t.fir ≠ s.fir → (∃ n, i = .coreReset n) ∨ (∃ ts, i = .firLoadReal ts) ∨ (∃ ws, i = .firLoadComplex ws) ∨
      (∃ n a b, i = .firFilter n a b) ∨ (∃ cap xs, i = .firFilterBlock cap xs) ∨ (∃ cap xs, i = .pipeProcess cap xs)) ∧
    (t.fll ≠ s.fll → (∃ n, i = .coreReset n) ∨ (∃ a b c d ts, i = .fllConfig a b c d ts) ∨
      (∃ cap xs, i = .fllProcess cap xs) ∨ (∃ cap xs, i = .pipeProcess cap xs)) ∧
    (t.cos ≠ s.cos → (∃ n, i = .coreReset n) ∨ (∃ ps, i = .costasConfig ps) ∨
      (∃ cap xs, i = .costasProcess cap xs) ∨ (∃ cap xs, i = .pipeProcess cap xs)) ∧
    (t.tr ≠ s.tr → (∃ n, i = .coreReset n) ∨ (∃ n a b c d e, i = .trConfig n a b c d e) ∨
      (∃ cap xs, i = .trProcess cap xs) ∨ (∃ cap xs, i = .pipeProcess cap xs)) ∧
    (t.fr ≠ s.fr → (∃ n, i = .coreReset n) ∨ (∃ a b c d e, i = .frConfig a b c d e) ∨
      (∃ n ws, i = .frPushBits n ws) ∨ (∃ cap xs, i = .pipeProcess cap xs)) ∧
    (t.pipe ≠ s.pipe → (∃ n, i = .coreReset n) ∨ (∃ n a, i = .pipeConfig n a) ∨ (∃ cap xs, i = .pipeProcess cap xs)) ∧
    t.cmdpos = s.cmdpos ∧ t.cmdIn = s.cmdIn

/-- R43, R164, R442: a configured block stays configured until CORE_RESET, and a FIR instance's taps, their number and
their kind stay as they are until its next construction, whatever else runs. -/
def Obligations.ConstructionsLastUntilTheNextOrReset : Prop :=
  ∀ (i : Instr) (s t : State), exec i s = .next t → i ≠ .coreReset 0 →
    ((s.fir.cfg = true → t.fir.cfg = true) ∧ (s.fll.cfg = true → t.fll.cfg = true) ∧
      (s.cos.cfg = true → t.cos.cfg = true) ∧ (s.tr.cfg = true → t.tr.cfg = true) ∧ (s.fr.cfg = true → t.fr.cfg = true)) ∧
    ((∀ ts, i ≠ .firLoadReal ts) → (∀ ws, i ≠ .firLoadComplex ws) →
      t.fir.taps = s.fir.taps ∧ t.fir.n = s.fir.n ∧ t.fir.cplx = s.fir.cplx) ∧
    ((∀ a b c d ts, i ≠ .fllConfig a b c d ts) →
      (t.fll.lo.taps = s.fll.lo.taps ∧ t.fll.lo.n = s.fll.lo.n ∧ t.fll.lo.cplx = s.fll.lo.cplx) ∧
      t.fll.up.taps = s.fll.up.taps ∧ t.fll.up.n = s.fll.up.n ∧ t.fll.up.cplx = s.fll.up.cplx)

/-! ## Reset and the invariants -/

/-- R79, R152, R440: CORE_RESET with `N = 0` puts every block at the reset values of R32 to R42 and goes on with the same
stream position and streams; with any other `N` it answers BAD_LENGTH. The power-on state has the same values and a
stream position of 0. That the model's own field `nanDraws` goes on too is the model's choice (log entry 3). -/
def Obligations.CoreResetRestoresTheResetValues : Prop :=
  let fir : FirState := { cfg := false, cplx := false, n := 0, taps := [], dl := [], cur := 0 }
  let blocks := fun s : State => { s with
    fir := fir,
    fll := { cfg := false, sps := 0, rolloff := 0, bw := 0, swap := false, beta := 0, fmax := 0, phase := 0, freq := 0,
             lo := fir, up := fir },
    cos := { cfg := false, fs := 0, bwhz := 0, damp := 0, alpha := 0, beta := 0, phase := 0, freq := 0 },
    tr := { cfg := false, sps := 0, kp := 0, ki := 0, cmax := 0, mode := .linear, queue := [], base := 0, mu := 0,
            integ := 0, havePrev := false, prevX := ⟨0, 0⟩, prevD := ⟨0, 0⟩ },
    fr := { cfg := false, lsbFirst := false, startMarker := [], endMarker := [], inFrame := false, tail := [], ring := [],
            pk := [], bitpos := 0, align := 0 },
    pipe := { fllEn := false, diffEn := false, demap := 0xE4, diffPrev := 0 },
    fftCache := [] }
  (∀ (s : State), exec (.coreReset 0) s = .next { blocks s with resp := s.resp ++ [0x00000000] }) ∧
  (∀ (s : State) (n : Count), n ≠ 0 → exec (.coreReset n) s = .next (failed s 0x02)) ∧
  blocks State.reset = State.reset ∧ State.reset.cmdpos = 0

/-- R33, R36, R37, R39, R41, R90: the reset state is good, and its memories are within their capacities. -/
def Obligations.ResetStateIsGood : Prop := State.reset.Good ∧ Memory.wf State.reset = true

/-- R33, R162, R163: every step keeps the matched filter good: its memories are as long as its tap count, its cursor is
inside them, and an unconfigured instance is in its reset state. -/
def Obligations.StepKeepsFirGood : Prop :=
  ∀ s t : State, FirGood Config.firMaxTaps s.fir → step s = .next t → FirGood Config.firMaxTaps t.fir

/-- R36: every step keeps the FLL good: its two filters stay mirror images with one cursor and one delay line, its phase
stays in [-2pi, 2pi] and its frequency in [-fmax, fmax]. -/
def Obligations.StepKeepsFllGood : Prop := ∀ s t : State, FllGood s.fll → step s = .next t → FllGood t.fll

/-- R37, R246: every step keeps the Costas loop good: its phase stays in [-pi, pi] and its frequency finite. -/
def Obligations.StepKeepsCosGood : Prop := ∀ s t : State, CosGood s.cos → step s = .next t → CosGood t.cos

/-- R39, R281, R283: every step keeps the timing recovery good: mu in [0, 1), the queue within its capacity, the base at
the look-back unless the queue is empty, a finite integrator, decisions of +1 or -1. -/
def Obligations.StepKeepsTrGood : Prop := ∀ s t : State, TrGood s.tr → step s = .next t → TrGood t.tr

/-- R41: every step keeps the framer good: nothing in the ring or the packer while SEARCHING, no tail while IN_FRAME, a
tail without a start marker, and a ring that does not end in the end marker. -/
def Obligations.StepKeepsFrGood : Prop := ∀ s t : State, FrGood s.fr → step s = .next t → FrGood t.fr

/-- R90: every step keeps every internal memory within its capacity. -/
def Obligations.StepKeepsMemoriesWithinCapacity : Prop :=
  ∀ s t : State, Memory.wf s = true → step s = .next t → Memory.wf t = true

/-! ## Control commands -/

/-- R150: NOP changes nothing but its response, which is OK for `N = 0` and BAD_LENGTH otherwise; one word leaves the
stream either way. -/
def Obligations.NopOnlyAnswers : Prop :=
  ∀ (s : State) (n : Count),
    exec (.nop n) s = .next { s with resp := s.resp ++ [if n = 0 then 0x00000000 else 0x00000002] } ∧
    ∀ rest, s.cmdIn = n.setWidth 32 :: rest →
      step s = .next { s with cmdIn := rest, cmdpos := s.cmdpos + 1,
                              resp := s.resp ++ [if n = 0 then 0x00000000 else 0x00000002] }

/-- R45 to R49, R97, R151: READ_REG of a scalar register answers its value and changes nothing else. (A packer of more
than 7 bits, which no run holds, does not fit its field.) That a number of 2^32 or more, which no run holds either, reads
modulo 2^32 is the model's choice (log entry 10). -/
def Obligations.ReadRegAnswersScalarRegisters : Prop :=
  ∀ (s : State) (i : Nat) (v : Word), s.fr.pk.length ≤ 7 → (i, v) ∈ registerTable s →
    exec (.readReg (BitVec.ofNat 24 i)) s = .next { s with resp := s.resp ++ [0x00000000, v] }

/-- R78, R9: the parameter registers read as the build's values, and every other unassigned number of window 0 answers
BAD_REGISTER. That `P_TR_QCAP` and `P_FR_RING_CAP` lie below 2^32, where R5 states no upper end, is the model's reading of R9
(log entry 1). -/
def Obligations.ReadRegAnswersParametersAndRejectsTheRest : Prop :=
  ∀ (s : State) (i : Nat),
    (∀ v, (i, v) ∈ parameterTable → v < 2 ^ 32 ∧
      exec (.readReg (BitVec.ofNat 24 i)) s = .next { s with resp := s.resp ++ [0x00000000, BitVec.ofNat 32 v] }) ∧
    (unassignedNumber i → exec (.readReg (BitVec.ofNat 24 i)) s = .next (failed s 0x0D))

/-- R50: window `w` at index `i` reads element `i` of its memory; at or past the memory's length, and in windows 14 and
15, the answer is BAD_REGISTER. -/
def Obligations.ReadRegAnswersMemoryWindows : Prop :=
  ∀ (s : State) (w i : Nat), Memory.wf s = true → 1 ≤ w → w < 16 → i < 2 ^ 20 →
    exec (.readReg (BitVec.ofNat 24 (w * 2 ^ 20 + i))) s =
      .next (match (windowContents s w)[i]? with
        | some v => { s with resp := s.resp ++ [0x00000000, v] }
        | none => failed s 0x0D)

/-! ## FIR engine -/

/-- R162: FIR_LOAD_REAL of no taps answers EMPTY_TAPS, of more than the capacity TAPS_TOO_LONG; of any other number it
constructs a real filter on them, with a cleared delay line, the cursor at 0 and the FFT cache empty. -/
def Obligations.FirLoadRealConstructs : Prop :=
  ∀ (s : State) (taps : List Word),
    (taps.length = 0 → exec (.firLoadReal taps) s = .next (failed s 0x04)) ∧
    (taps.length > Config.firMaxTaps → exec (.firLoadReal taps) s = .next (failed s 0x06)) ∧
    (1 ≤ taps.length → taps.length ≤ Config.firMaxTaps →
      exec (.firLoadReal taps) s = .next { s with
        fir := { cfg := true, cplx := false, n := taps.length, taps := taps.map (fun h => ⟨h, 0⟩),
                 dl := List.replicate taps.length ⟨0, 0⟩, cur := 0 },
        fftCache := [], resp := s.resp ++ [0x00000000] })

/-- R163: FIR_LOAD_COMPLEX of no words answers EMPTY_TAPS, of an odd number MISMATCHED_TAPS, of too many taps
TAPS_TOO_LONG; otherwise it constructs a complex filter, tap `k` from words `2k` and `2k + 1`, with a cleared delay line,
the cursor at 0 and the FFT cache empty. -/
def Obligations.FirLoadComplexConstructs : Prop :=
  ∀ (s : State) (ws : List Word),
    (ws.length = 0 → exec (.firLoadComplex ws) s = .next (failed s 0x04)) ∧
    (ws.length % 2 = 1 → exec (.firLoadComplex ws) s = .next (failed s 0x05)) ∧
    (ws.length % 2 = 0 → ws.length / 2 > Config.firMaxTaps → exec (.firLoadComplex ws) s = .next (failed s 0x06)) ∧
    (1 ≤ ws.length → ws.length % 2 = 0 → ws.length / 2 ≤ Config.firMaxTaps →
      exec (.firLoadComplex ws) s = .next { s with
        fir := { cfg := true, cplx := true, n := ws.length / 2,
                 taps := (List.range (ws.length / 2)).map (fun k => ⟨ws.getD (2 * k) 0, ws.getD (2 * k + 1) 0⟩),
                 dl := List.replicate (ws.length / 2) ⟨0, 0⟩, cur := 0 },
        fftCache := [], resp := s.resp ++ [0x00000000] })

/-- R160, R165: FIR_FILTER on a constructed filter answers R160's sum of products, writes the sample at the cursor and
advances the cursor; with a non-zero `N` it answers BAD_LENGTH. -/
def Obligations.FirFilterAnswersTheWindowSum : Prop :=
  ∀ (s : State) (n : Count) (re im : Word),
    (n ≠ 0 → exec (.firFilter n re im) s = .next (failed s 0x02)) ∧
    (s.fir.cfg = true →
      exec (.firFilter 0 re im) s = .next { s with
        fir := { s.fir with dl := s.fir.dl.set s.fir.cur ⟨re, im⟩, cur := (s.fir.cur + 1) % s.fir.n },
        nanDraws := (runDraw (filterOutput s.fir ⟨re, im⟩) s.nanDraws).2,
        resp := s.resp ++ [0x00000000, (runDraw (filterOutput s.fir ⟨re, im⟩) s.nanDraws).1.re,
                           (runDraw (filterOutput s.fir ⟨re, im⟩) s.nanDraws).1.im] })

/-- R166, R167: FIR_FILTER_BLOCK leaves the same filter as a FIR_FILTER of each sample in turn, and its result words are
theirs, in order; a span may be split anywhere. -/
def Obligations.FirFilterBlockIsRepeatedFirFilter : Prop :=
  ∀ (s : State) (cap : Word) (xs : List C32), s.fir.cfg = true → xs.length ≤ cap.toNat →
    ∃ (ys : List C32) (f : FirState) (k : Nat), ys.length = xs.length ∧
      exec (.firFilterBlock cap xs) s =
        .next { s with fir := f, nanDraws := k, resp := s.resp ++ 0x00000000 :: unpairWords ys } ∧
      execAll (xs.map (fun x => .firFilter 0 x.re x.im)) s =
        .next { s with fir := f, nanDraws := k, resp := s.resp ++ ys.flatMap (fun y => [0x00000000, y.re, y.im]) } ∧
      ∀ xs1 xs2, xs = xs1 ++ xs2 → ∃ ys1 ys2, ys = ys1 ++ ys2 ∧
        execAll [.firFilterBlock cap xs1, .firFilterBlock cap xs2] s =
          .next { s with fir := f, nanDraws := k,
                         resp := s.resp ++ 0x00000000 :: unpairWords ys1 ++ 0x00000000 :: unpairWords ys2 }

/-- R170, R171: FIR_CONVOLVE needs the least power of two at or above `N + n - 1`; it answers `N` samples of the build's
FFT-mode result of that size, or FFT_TOO_LARGE, and leaves every block as it was. The build's result is a fixed function of
its operands and counts no NaN draw, on NaN or infinite data too: the model's choice (log entries 4 and 12). So is the
hidden cache of R96, the list of the sizes used (log entry 5). -/
def Obligations.FirConvolveAnswersTheFftResult : Prop :=
  ∀ (s : State) (cap : Word) (xs : List C32), s.fir.cfg = true → xs.length ≤ cap.toNat →
    (xs = [] → exec (.firConvolve cap xs) s = .next { s with resp := s.resp ++ [0x00000000] }) ∧
    ∀ size, xs ≠ [] → isFftSize (xs.length + s.fir.n - 1) size →
      (size ≤ Config.fftMax → exec (.firConvolve cap xs) s = .next { s with
        fftCache := if size ∈ s.fftCache then s.fftCache else s.fftCache ++ [size],
        resp := s.resp ++ 0x00000000 ::
          unpairWords ((List.range xs.length).map (pFftConv s.fir.taps s.fir.cplx xs size)) }) ∧
      (size > Config.fftMax → exec (.firConvolve cap xs) s = .next (failed s 0x0C))

/-- R168: after FIR_LOAD_REAL of finite taps, a unit impulse and then zeros come out as the taps in order, bit for bit, a
tap of -0.0 as +0.0, and then zeros. -/
def Obligations.ImpulseAnswersTheTaps : Prop :=
  ∀ (s s1 s2 : State) (taps : List Word) (cap : Word) (m : Nat), 1 ≤ taps.length → taps.length ≤ Config.firMaxTaps →
    (∀ h ∈ taps, isFinite h = true) → m < cap.toNat →
    exec (.firLoadReal taps) s = .next s1 →
    exec (.firFilterBlock cap (⟨f1, 0⟩ :: List.replicate m ⟨0, 0⟩)) s1 = .next s2 →
    newWords s1 s2 = 0x00000000 :: unpairWords ((List.range (m + 1)).map (fun t =>
      (⟨if taps.getD t 0 = 0x80000000 then 0 else taps.getD t 0, 0⟩ : C32)))

/-- R169: while a sample with a NaN I component stands in the window, the filter's output has a NaN I component, and the
same for Q, with real or complex taps. -/
def Obligations.NaNInTheWindowGivesNaN : Prop :=
  ∀ (f : FirState) (x : C32) (k : Nat), FirGood Config.firMaxTaps f → f.cfg = true →
    ((∃ c ∈ f.dl.set f.cur x, isNaN c.re = true) → isNaN (runDraw (firStep f x) k).1.1.re = true) ∧
    ((∃ c ∈ f.dl.set f.cur x, isNaN c.im = true) → isNaN (runDraw (firStep f x) k).1.1.im = true)

/-! ## FLL -/

/-- R201, R203: FLL_CONFIG's checks in the order of R404, each answering its code and changing nothing. Past them the gain
is `(4 * bw) / sps` and the clamp `2 * (2pi / sps)`, neither a NaN; where one is infinite the answer is INVALID_PARAM, else
the loop is constructed, the lower filter on the taps or on their conjugates by EDGE_SWAP and the upper one on the
mirror. -/
def Obligations.FllConfigConstructsOrRejects : Prop :=
  ∀ (s : State) (sps rolloff bw flags : Word) (taps : List C32),
    (∀ e, fllConfigError sps rolloff bw flags taps.length = some e →
      exec (.fllConfig sps rolloff bw flags taps) s = .next (failed s e)) ∧
    (fllConfigError sps rolloff bw flags taps.length = none →
      ∃ b4 beta w fmax, fMulCore f4 bw = some b4 ∧ fDivCore b4 sps = some beta ∧
        fDivCore twoPiF sps = some w ∧ fMulCore f2 w = some fmax ∧
        exec (.fllConfig sps rolloff bw flags taps) s =
          if isFinite beta && isFinite fmax then
            .next { s with
              fll := {
                cfg := true, sps := sps, rolloff := rolloff, bw := bw, swap := flags.getLsbD 0, beta := beta, fmax := fmax,
                phase := 0, freq := 0,
                lo := {
                  cfg := true, cplx := true, n := taps.length, dl := List.replicate taps.length ⟨0, 0⟩, cur := 0,
                  taps := if flags.getLsbD 0 then taps.map (fun c => ⟨c.re, fNeg c.im⟩) else taps },
                up := {
                  cfg := true, cplx := true, n := taps.length, dl := List.replicate taps.length ⟨0, 0⟩, cur := 0,
                  taps := if flags.getLsbD 0 then taps else taps.map (fun c => ⟨c.re, fNeg c.im⟩) } },
              resp := s.resp ++ [0x00000000] }
          else .next (failed s 0x07))

/-- R204, R205, R206, R208, R210: FLL_PROCESS of one sample answers the sample times `e^{-j*phase}` and leaves R204's loop:
the error is the lower filter's squared magnitude minus the upper's, the unclamped frequency moves the phase, the phase is
wrapped and the frequency clamped. FLL_PROCESS of a block leaves the same loop as one FLL_PROCESS per sample, and its result
words are theirs. The order of NaN draws is the model's (log entry 3). -/
def Obligations.FllProcessIsRepeatedSingleSamples : Prop :=
  (∀ (s : State) (cap : Word) (x : C32), s.fll.cfg = true → 1 ≤ cap.toNat →
    ∃ (r : C32) (l : FllState) (k : Nat), runDraw (fllSample s.fll x) s.nanDraws = ((r, l), k) ∧
      exec (.fllProcess cap [x]) s = .next { s with fll := l, nanDraws := k, resp := s.resp ++ [0x00000000, r.re, r.im] }) ∧
  ∀ (s : State) (cap : Word) (xs : List C32), s.fll.cfg = true → xs.length ≤ cap.toNat →
    ∃ (ys : List C32) (l : FllState) (k : Nat), ys.length = xs.length ∧
      exec (.fllProcess cap xs) s =
        .next { s with fll := l, nanDraws := k, resp := s.resp ++ 0x00000000 :: unpairWords ys } ∧
      execAll (xs.map (fun x => .fllProcess 1 [x])) s =
        .next { s with fll := l, nanDraws := k, resp := s.resp ++ ys.flatMap (fun y => [0x00000000, y.re, y.im]) }

/-- R209: a NaN input leaves the FLL's phase and frequency at +0.0, so that it can lock again. -/
def Obligations.NaNInputRestartsTheFll : Prop :=
  ∀ (l : FllState) (x : C32) (k : Nat), FllGood l → l.cfg = true → isNaN x.re = true ∨ isNaN x.im = true →
    (runDraw (fllStep l x) k).1.2.phase = 0 ∧ (runDraw (fllStep l x) k).1.2.freq = 0

/-! ## Costas loop -/

/-- R241, R242: COSTAS_CONFIG: BAD_LENGTH unless two or three parameters, INVALID_PARAM unless each is finite and positive;
then the gains are R242's, and the loop is constructed with them where both are finite, else, and where a NaN came up on the
way, the answer is INVALID_PARAM. An error draws no NaN encoding: the model's choice (log entry 3). -/
def Obligations.CostasConfigConstructsOrRejects : Prop :=
  ∀ (s : State) (ps : List Word),
    (ps.length ≠ 2 → ps.length ≠ 3 → exec (.costasConfig ps) s = .next (failed s 0x02)) ∧
    ∀ fs bwhz damp, (ps = [fs, bwhz] ∧ damp = 0x3F34FDF4 ∨ ps = [fs, bwhz, damp]) →
      (¬ (Positive fs ∧ Positive bwhz ∧ Positive damp) → exec (.costasConfig ps) s = .next (failed s 0x07)) ∧
      (Positive fs → Positive bwhz → Positive damp →
        exec (.costasConfig ps) s =
          match gainsOf fs bwhz damp with
          | some (alpha, beta) =>
            if isFinite alpha && isFinite beta then
              .next { s with
                cos := { cfg := true, fs := fs, bwhz := bwhz, damp := damp, alpha := alpha, beta := beta, phase := 0, freq := 0 },
                resp := s.resp ++ [0x00000000] }
            else .next (failed s 0x07)
          | none => .next (failed s 0x07))

/-- R243, R244, R245, R248: COSTAS_PROCESS of one sample answers the sample times `e^{-j*phase}` and leaves R244's loop, with
the decisions of R245. COSTAS_PROCESS of a block leaves the same loop as one COSTAS_PROCESS per sample, and its result words
are theirs. The order of NaN draws is the model's (log entry 3). -/
def Obligations.CostasProcessIsRepeatedSingleSamples : Prop :=
  (∀ (s : State) (cap : Word) (x : C32), s.cos.cfg = true → 1 ≤ cap.toNat →
    ∃ (m : C32) (l : CosState) (k : Nat), runDraw (costasSample s.cos x) s.nanDraws = ((m, l), k) ∧
      exec (.costasProcess cap [x]) s = .next { s with cos := l, nanDraws := k, resp := s.resp ++ [0x00000000, m.re, m.im] }) ∧
  ∀ (s : State) (cap : Word) (xs : List C32), s.cos.cfg = true → xs.length ≤ cap.toNat →
    ∃ (ys : List C32) (l : CosState) (k : Nat), ys.length = xs.length ∧
      exec (.costasProcess cap xs) s =
        .next { s with cos := l, nanDraws := k, resp := s.resp ++ 0x00000000 :: unpairWords ys } ∧
      execAll (xs.map (fun x => .costasProcess 1 [x])) s =
        .next { s with cos := l, nanDraws := k, resp := s.resp ++ ys.flatMap (fun y => [0x00000000, y.re, y.im]) }

/-- R246, R245: the discriminator's products are exact, so its error is one rounded subtraction of the components with the
decisions' signs; the frequency and the phase then follow R244. A NaN component, decided -1.0, makes the error a NaN and
restarts the frequency and the phase at +0.0. -/
def Obligations.CostasErrorIsOneRoundedSubtraction : Prop :=
  ∀ (l : CosState) (m : C32) (k : Nat),
    (isNaN m.re = false → isNaN m.im = false →
      runDraw (cosUpdate l m) k = runDraw (do
        let e ← fSub (if fLe 0 m.re then m.im else fNeg m.im) (if fLe 0 m.im then m.re else fNeg m.re)
        let f ← (do let be ← fMul l.beta e; fAdd l.freq be)
        let p ← (do let ae ← fMul l.alpha e; let fa ← fAdd f ae; fAdd l.phase fa)
        let phase ← wrap p piF
        pure { l with freq := if isFinite f then f else 0, phase := phase }) k) ∧
    (isNaN m.re = true ∨ isNaN m.im = true → (runDraw (cosUpdate l m) k).1 = { l with freq := 0, phase := 0 })

/-! ## Timing recovery -/

/-- R270: TR_CONFIG answers BAD_LENGTH for a non-zero `N`, then INVALID_PARAM unless every parameter is in its range; else
it constructs the timing recovery, with an empty queue, the base at the mode's look-back and the loop at zero. -/
def Obligations.TrConfigConstructsOrRejects : Prop :=
  ∀ (s : State) (n : Count) (sps kp ki cmax mode : Word),
    exec (.trConfig n sps kp ki cmax mode) s =
      if n ≠ 0 then .next (failed s 0x02)
      else if (isFinite sps && fLe f1 sps && fLe sps 0x49800000 && isFinite kp && isFinite ki && isFinite cmax &&
          fLe 0 cmax && fLt cmax sps && decide (mode.toNat ≤ 1)) = true then
        .next { s with
          tr := { cfg := true, sps := sps, kp := kp, ki := ki, cmax := cmax,
                  mode := if mode = 0 then .linear else .lagrange, queue := [], base := mode.toNat, mu := 0, integ := 0,
                  havePrev := false, prevX := ⟨0, 0⟩, prevD := ⟨0, 0⟩ },
          resp := s.resp ++ [0x00000000] }
      else .next (failed s 0x07)

/-- R271, R274, R278: TR_PROCESS on a constructed block whose queue has room appends the samples and then makes one update
after another, each where it is possible, until none is or `CAP` symbols have come out, of which `CAP = 0` allows none. It
answers their number and their words, sets `MORE` exactly where an update is still possible then, and drops the consumed
samples. Nothing but the timing recovery changes. The order of NaN draws is the model's (log entry 3). -/
def Obligations.TrProcessEmitsUpToCap : Prop :=
  ∀ (s : State) (cap : Word) (xs : List C32), s.tr.cfg = true → s.tr.queue.length + xs.length ≤ Config.trQcap →
    let start : TrState := { s.tr with queue := s.tr.queue ++ xs }
    ∃ (ys : List C32) (more : Bool) (last : TrState) (k : Nat),
      runDraw (trProcess cap.toNat xs s.tr) s.nanDraws = ((ys, more, trDrop last), k) ∧
      runDraw (updates ys.length start) s.nanDraws = ((ys, last), k) ∧
      (∀ m, m < ys.length → updatePossible (runDraw (updates m start) s.nanDraws).1.2) ∧
      ys.length ≤ cap.toNat ∧ (ys.length < cap.toNat → ¬ updatePossible last) ∧
      (more = true ↔ updatePossible last) ∧ (more = true → ys.length = cap.toNat) ∧
      exec (.trProcess cap xs) s = .next { s with
        tr := trDrop last, nanDraws := k,
        resp := s.resp ++ (if more then 0x00000100 else 0x00000000) :: BitVec.ofNat 32 ys.length :: unpairWords ys }

/-- R279: feeding a sample sequence in two TR_PROCESS commands, none of them stopped by its capacity, emits the same
symbols and leaves the same state as feeding it in one. -/
def Obligations.TrProcessMaySplitItsInput : Prop :=
  ∀ (s s1 s2 s3 : State) (c1 c2 c3 : Word) (xs ys : List C32), s.tr.cfg = true →
    s.tr.queue.length + (xs ++ ys).length ≤ Config.trQcap →
    exec (.trProcess c1 xs) s = .next s1 → exec (.trProcess c2 ys) s1 = .next s2 → exec (.trProcess c3 (xs ++ ys)) s = .next s3 →
    moreOf s s1 = false → moreOf s1 s2 = false → moreOf s s3 = false →
    s3.tr = s2.tr ∧ s3.nanDraws = s2.nanDraws ∧
    (newWords s s3).drop 2 = (newWords s s1).drop 2 ++ (newWords s1 s2).drop 2

/-- R278, R279: a TR_PROCESS stopped by its capacity loses nothing: going on with `N = 0` emits what one command with the
two capacities together would have, and leaves the same state. -/
def Obligations.TrProcessResumesAfterMore : Prop :=
  ∀ (t : TrState) (a b : Nat) (xs : List C32) (k : Nat),
    runDraw (trProcess (a + b) xs t) k = runDraw (do
      let r ← trProcess a xs t
      let q ← trProcess b [] r.2.2
      pure (r.1 ++ q.1, q.2.1, q.2.2)) k

/-- R275, R276, R280, R281, R283: the first update after construction advances by exactly `sps` and leaves the integrator.
Every later one computes R276's error from the previous pair and this one, adds `ki * e` to the integrator and replaces a
non-finite sum by +0.0, does the same with `kp * e` plus the integrator, clamps that to `[-cmax, cmax]` and advances by its
rounded sum with `sps`: a finite value above zero. An update then splits `mu` plus the advance into a whole number, which
the base advances by, and the rest, exactly. The order of NaN draws is the model's (log entry 3). -/
def Obligations.TrAdvanceIsSpsPlusClampedCorrection : Prop :=
  ∀ (t : TrState), TrGood t → t.cfg = true →
    (∀ (x : C32) (k : Nat),
      (t.havePrev = false → runDraw (trAdvance t x) k = ((t.integ, t.sps), k)) ∧
      (t.havePrev = true →
        (∃ corr adv, InRange t.cmax corr ∧ fAddCore t.sps corr = some adv ∧
          (runDraw (trAdvance t x) k).1.2 = adv ∧ isFinite adv = true ∧ fLt 0 adv = true ∧
          isFinite (runDraw (trAdvance t x) k).1.1 = true) ∧
        runDraw (trAdvance t x) k = runDraw (do
          let e ← (do
            let l ← (do let a ← fMul t.prevD.re x.re; let b ← fMul t.prevD.im x.im; fAdd a b)
            let r ← (do let a ← fMul (hardDecision x.re) t.prevX.re; let b ← fMul (hardDecision x.im) t.prevX.im; fAdd a b)
            fSub l r)
          let i ← (do let ie ← fMul t.ki e; fAdd t.integ ie)
          let integ := if isFinite i then i else 0
          let v ← (do let pe ← fMul t.kp e; fAdd pe integ)
          let adv ← fAdd t.sps (clampedTo t.cmax (if isFinite v then v else 0))
          pure (integ, adv)) k)) ∧
    ∀ k : Nat, ∃ (x : C32) (integ adv p mu : F32) (n k1 k2 : Nat),
      runDraw (interpolate t) k = (x, k1) ∧ runDraw (trAdvance t x) k1 = ((integ, adv), k2) ∧
      fAddCore t.mu adv = some p ∧ (n : Int) * 2 ^ 149 ≤ fVal p ∧ fVal p < (n + 1 : Int) * 2 ^ 149 ∧
      isFinite mu = true ∧ fSign mu = false ∧ fVal mu = fVal p - n * 2 ^ 149 ∧
      runDraw (trStep t) k =
        ((x, { t with integ := integ, prevD := ⟨hardDecision x.re, hardDecision x.im⟩, prevX := x, havePrev := true,
                      base := t.base + n, mu := mu }), k2)

/-- R277: dropping consumed samples leaves either the base at the look-back or an empty queue, and no sample from the
look-back of `t` on is lost: it stands at the same distance from the base. -/
def Obligations.TrDropKeepsTheNeededSamples : Prop :=
  ∀ t : TrState, lookBack t.mode ≤ t.base →
    ((trDrop t).base = lookBack t.mode ∨ (trDrop t).queue = []) ∧ lookBack t.mode ≤ (trDrop t).base ∧
    (∀ j, (trDrop t).queue[(trDrop t).base - lookBack t.mode + j]? = t.queue[t.base - lookBack t.mode + j]?) ∧
    { trDrop t with queue := t.queue, base := t.base } = t

/-- R272: the interpolated sample is R272's linear form, or its Lagrange form with the four weights computed once, for
every `mu`. At `mu = 0` both give the value of the sample at the base, where the samples they read are finite. The order of
NaN draws is the model's (log entry 3). -/
def Obligations.InterpolationAtZeroIsTheBaseSample : Prop :=
  ∀ (t : TrState) (k : Nat), lookBack t.mode ≤ t.base → t.base + lookAhead t.mode < t.queue.length →
    let q := fun i : Nat => t.queue.getD i ⟨0, 0⟩
    (t.mode = .linear → runDraw (interpolate t) k = runDraw (do
      let om ← fSub f1 t.mu
      let re ← linearForm om t.mu (q t.base).re (q (t.base + 1)).re
      let im ← linearForm om t.mu (q t.base).im (q (t.base + 1)).im
      pure ⟨re, im⟩) k) ∧
    (t.mode = .lagrange → runDraw (interpolate t) k = runDraw (do
      let w ← fourWeights t.mu
      let re ← lagrangeForm w (q (t.base - 1)).re (q t.base).re (q (t.base + 1)).re (q (t.base + 2)).re
      let im ← lagrangeForm w (q (t.base - 1)).im (q t.base).im (q (t.base + 1)).im (q (t.base + 2)).im
      pure ⟨re, im⟩) k) ∧
    (t.mu = 0 →
      (∀ i, t.base - lookBack t.mode ≤ i → i ≤ t.base + lookAhead t.mode → isFinite (q i).re = true ∧ isFinite (q i).im = true) →
      fVal (runDraw (interpolate t) k).1.re = fVal (q t.base).re ∧
      fVal (runDraw (interpolate t) k).1.im = fVal (q t.base).im)

/-! ## Framer -/

/-- R321: FR_CONFIG answers EMPTY_MARKER, then MARKER_TOO_LONG, then INVALID_PARAM for a reserved flag; else it constructs
the framer, SEARCHING, with its markers from the packed bytes, byte 0 of each word lowest. -/
def Obligations.FrConfigConstructsOrRejects : Prop :=
  ∀ (s : State) (msLen meLen : BitVec 12) (flags : Word) (ms me : List Word),
    exec (.frConfig msLen meLen flags ms me) s =
      if msLen = 0 ∨ meLen = 0 then .next (failed s 0x08)
      else if msLen.toNat > Config.frMaxMarker ∨ meLen.toNat > Config.frMaxMarker then .next (failed s 0x09)
      else if flags.toNat ≥ 2 then .next (failed s 0x07)
      else .next { s with
        fr := { cfg := true, lsbFirst := decide (flags = 1),
                startMarker := (ms.flatMap (fun w => (List.range 4).map (fun j => w.extractLsb' (8 * j) 8))).take msLen.toNat,
                endMarker := (me.flatMap (fun w => (List.range 4).map (fun j => w.extractLsb' (8 * j) 8))).take meLen.toNat,
                inFrame := false, tail := [], ring := [], pk := [], bitpos := 0, align := 0 },
        resp := s.resp ++ [0x00000000] }

/-- R93, R94, R118, R323: FR_PUSH_BITS on a constructed framer pushes bit `i mod 32` of word `i / 32` for each `i < N` and
answers the frames completed, byte `j` of each at bits `8 * (j mod 4)` of its word `j / 4` and the rest of the last word
zero; nothing but the framer changes. -/
def Obligations.FrPushBitsAnswersTheFrames : Prop :=
  ∀ (s : State) (n : Count) (ws : List Word), s.fr.cfg = true → WellFormed (.frPushBits n ws) →
    ∃ frames fr,
      frPush Config.frRingCap s.fr ((List.range n.toNat).map (fun i => (ws.getD (i / 32) 0).getLsbD (i % 32))) = (frames, fr) ∧
      exec (.frPushBits n ws) s = .next { s with fr := fr, resp := s.resp ++ 0x00000000 :: framesResponse frames }

/-- R322: eight bits pack with the first as bit 7, or with LSB_FIRST as bit 0. -/
def Obligations.PackingFollowsTheBitOrder : Prop :=
  ∀ (bits : List Bool) (j : Nat), bits.length = 8 → j < 8 →
    (packBits false bits).getLsbD (7 - j) = bits.getD j false ∧ (packBits true bits).getLsbD j = bits.getD j false

/-- R324: the search finds the least bit offset at which every marker byte stands, and finds one wherever there is one. -/
def Obligations.SearchFindsTheEarliestMarker : Prop :=
  ∀ (lsb : Bool) (ms : List Byte) (wv : List Bool) (p : Nat),
    findMarker lsb ms wv = some p ↔ standsAt lsb ms wv p ∧ ∀ q, q < p → ¬ standsAt lsb ms wv q

/-- R328, R329, R330: pushing bits in two parts completes the same frames and leaves the same framer as pushing them at once,
markers and bytes that span the boundary included. Where SEARCHING finds no start marker in the retained bits and the new
ones, the last `8 * ms + 7` of them, or all where they are fewer, are retained, the stream position advances by the new
ones, and nothing else changes. -/
def Obligations.PushingBitsMayBeSplit : Prop :=
  (∀ (f : FrState) (b1 b2 : List Bool), FrGood f → f.cfg = true →
    frPush Config.frRingCap f (b1 ++ b2) =
      ((frPush Config.frRingCap f b1).1 ++ (frPush Config.frRingCap (frPush Config.frRingCap f b1).2 b2).1,
       (frPush Config.frRingCap (frPush Config.frRingCap f b1).2 b2).2)) ∧
  ∀ (f : FrState) (bits : List Bool), f.inFrame = false →
    (∀ q, ¬ standsAt f.lsbFirst f.startMarker (f.tail ++ bits) q) →
    let kept := min (f.tail ++ bits).length (8 * f.startMarker.length + 7)
    frPush Config.frRingCap f bits =
      ([], { f with tail := (f.tail ++ bits).drop ((f.tail ++ bits).length - kept),
                    bitpos := f.bitpos + BitVec.ofNat 3 bits.length })

/-- R324, R325, R326, R327, R329: a SEARCHING framer, whatever it retains and at whatever stream position, locks at the first
start marker in its retained bits and the new ones, with the stream position of the marker's first bit, modulo 8, as its
alignment. It returns the payload between its markers, whole, in either bit order, where the end marker does not complete
earlier and the ring has room for the payload and the end marker. Where one byte more than the ring holds comes without the
end marker before it, the frame and that byte are dropped, and the bits after it are searched with nothing retained; the
alignment stays. -/
def Obligations.FramedPayloadComesBack : Prop :=
  ∀ (f : FrState) (pre head : List Bool), f.inFrame = false → f.startMarker ≠ [] → f.endMarker ≠ [] →
    f.tail ++ head = pre ++ streamOf f.lsbFirst f.startMarker →
    (∀ q, q < pre.length → ¬ standsAt f.lsbFirst f.startMarker (f.tail ++ head) q) →
    let at8 := f.bitpos - BitVec.ofNat 3 f.tail.length + BitVec.ofNat 3 pre.length
    let locked : FrState := { f with tail := [], ring := [], pk := [], bitpos := at8, align := at8 }
    frPush Config.frRingCap f head = ([], { locked with inFrame := true }) ∧
    (∀ payload : List Byte, payload.length + f.endMarker.length ≤ Config.frRingCap →
      (∀ j, f.endMarker.length ≤ j → j < payload.length + f.endMarker.length →
        lastN f.endMarker.length ((payload ++ f.endMarker).take j) ≠ f.endMarker) →
      frPush Config.frRingCap f (head ++ streamOf f.lsbFirst (payload ++ f.endMarker)) = ([payload], locked)) ∧
    ∀ (body : List Byte) (rest : List Bool), body.length = Config.frRingCap + 1 →
      (∀ j, f.endMarker.length ≤ j → j ≤ Config.frRingCap → lastN f.endMarker.length (body.take j) ≠ f.endMarker) →
      frPush Config.frRingCap f (head ++ streamOf f.lsbFirst body ++ rest) = frPush Config.frRingCap locked rest

/-! ## Orchestrator -/

/-- R370: PIPE_CONFIG answers BAD_LENGTH for a non-zero `N`, then INVALID_PARAM for a reserved bit; else it sets the two
enables and the table from the flags and clears the previous quadrant. -/
def Obligations.PipeConfigSetsOptions : Prop :=
  ∀ (s : State) (n : Count) (flags : Word),
    exec (.pipeConfig n flags) s =
      if n ≠ 0 then .next (failed s 0x02)
      else if flags.toNat / 4 % 64 ≠ 0 ∨ flags.toNat / 65536 ≠ 0 then .next (failed s 0x07)
      else .next { s with
        pipe := { fllEn := decide (flags.toNat % 2 = 1), diffEn := decide (flags.toNat / 2 % 2 = 1),
                  demap := BitVec.ofNat 8 (flags.toNat / 256), diffPrev := 0 },
        resp := s.resp ++ [0x00000000] }

/-- R371, R372, R373: the two bits of a symbol: quadrants 0 to 3 counter-clockwise from (+,+), a zero counting as plus and a
NaN as minus, through the table entry, bit 1 first. With differential decoding the entry is that of the quadrant minus the
previous one, modulo 4, and the previous one becomes this one; without it nothing changes. A block's bits are those of its
symbols in order, each decoded with the options that the one before left. -/
def Obligations.SymbolBitsFollowTheTable : Prop :=
  ∀ (p : PipeState) (m : C32),
    let q : Nat := if fLe 0 m.re then (if fLe 0 m.im then 0 else 3) else (if fLe 0 m.im then 1 else 2)
    (p.diffEn = false → symbolBits p m = ([p.demap.getLsbD (2 * q + 1), p.demap.getLsbD (2 * q)], p)) ∧
    (p.diffEn = true →
      let qd : Nat := (q + 4 - p.diffPrev.toNat) % 4
      symbolBits p m = ([p.demap.getLsbD (2 * qd + 1), p.demap.getLsbD (2 * qd)], { p with diffPrev := BitVec.ofNat 2 q })) ∧
    demapBlock p [] = ([], p) ∧
    ∀ ms : List C32, demapBlock p (m :: ms) =
      ((symbolBits p m).1 ++ (demapBlock (symbolBits p m).2 ms).1, (demapBlock (symbolBits p m).2 ms).2)

/-- R372: with differential decoding, turning every symbol by a quarter and the previous quadrant with it changes no
bit: the 4-fold ambiguity cancels. -/
def Obligations.DifferentialDecodingCancelsRotation : Prop :=
  ∀ (p : PipeState) (ms : List C32), p.diffEn = true → (∀ m ∈ ms, Signed m.re ∧ Signed m.im) →
    demapBlock { p with diffPrev := p.diffPrev + 1 } (ms.map quarterTurn) =
      ((demapBlock p ms).1, { (demapBlock p ms).2 with diffPrev := (demapBlock p ms).2.diffPrev + 1 })

/-- R373, R374: PIPE_PROCESS on constructed stages with room in the queue is FIR_FILTER_BLOCK of the block, FLL_PROCESS of
its output where enabled, TR_PROCESS with CAP, COSTAS_PROCESS of the symbols, and the framer on their demapped bits: the
same states, the Costas outputs and the frames as its result words. -/
def Obligations.PipeProcessComposesTheStages : Prop :=
  ∀ (s : State) (cap : Word) (xs : List C32), s.fir.cfg = true → s.tr.cfg = true → s.cos.cfg = true → s.fr.cfg = true →
    (s.pipe.fllEn = true → s.fll.cfg = true) → s.tr.queue.length + xs.length ≤ Config.trQcap →
    ∃ (ys zs syms outs : List C32) (fir : FirState) (fll : FllState) (tr : TrState) (cos : CosState) (more : Bool)
      (k1 k2 k3 k4 : Nat),
      exec (.firFilterBlock 0xFFFFFFFF xs) s =
        .next { s with fir := fir, nanDraws := k1, resp := s.resp ++ 0x00000000 :: unpairWords ys } ∧
      (s.pipe.fllEn = true → exec (.fllProcess 0xFFFFFFFF ys) { s with nanDraws := k1 } =
        .next { s with fll := fll, nanDraws := k2, resp := s.resp ++ 0x00000000 :: unpairWords zs }) ∧
      (s.pipe.fllEn = false → fll = s.fll ∧ k2 = k1 ∧ zs = ys) ∧
      exec (.trProcess cap zs) { s with nanDraws := k2 } =
        .next { s with tr := tr, nanDraws := k3,
                       resp := s.resp ++ (if more then 0x00000100 else 0x00000000) :: BitVec.ofNat 32 syms.length ::
                         unpairWords syms } ∧
      exec (.costasProcess 0xFFFFFFFF syms) { s with nanDraws := k3 } =
        .next { s with cos := cos, nanDraws := k4, resp := s.resp ++ 0x00000000 :: unpairWords outs } ∧
      exec (.pipeProcess cap xs) s =
        .next { s with
          fir := fir, fll := fll, tr := tr, cos := cos, nanDraws := k4,
          pipe := (demapBlock s.pipe outs).2,
          fr := (frPush Config.frRingCap s.fr (demapBlock s.pipe outs).1).2,
          resp := s.resp ++ (if more then 0x00000100 else 0x00000000) :: BitVec.ofNat 32 outs.length ::
            (unpairWords outs ++ framesResponse (frPush Config.frRingCap s.fr (demapBlock s.pipe outs).1).1) }

/-! ## Numbers -/

/-- R10: a finite sum, product or quotient (by a non-zero value) is a binary32 value nearest to the exact one, and where
another is equally near, the result is the one whose last bit is 0. `d` is the distance from the exact result, in units
that make it an integer. -/
def Obligations.ArithmeticRoundsToNearestTiesToEven : Prop :=
  ∀ a b r c : F32, isFinite a = true → isFinite b = true → isFinite r = true → isFinite c = true →
    let nearest := fun d : F32 → Int => d r ≤ d c ∧ (d r = d c → fVal r ≠ fVal c → r.getLsbD 0 = false)
    (fAddCore a b = some r → nearest (fun v => |fVal v - (fVal a + fVal b)|)) ∧
    (fSubCore a b = some r → nearest (fun v => |fVal v - (fVal a - fVal b)|)) ∧
    (fMulCore a b = some r → nearest (fun v => |fVal v * 2 ^ 149 - fVal a * fVal b|)) ∧
    (fDivCore a b = some r → fMag b ≠ 0 → nearest (fun v => |fVal v * fVal b - fVal a * 2 ^ 149|))

/-- R10: multiplying by +1.0 or -1.0 is exact. -/
def Obligations.MultiplyingByOneIsExact : Prop :=
  ∀ v : F32, isNaN v = false → fMulCore f1 v = some v ∧ fMulCore fMinus1 v = some (fNeg v)

/-- R15: wrapping replaces a non-finite value by +0.0, moves a value outside the range `[-B, B]` by one step of `2 * pi`
towards it, and restarts at +0.0 where that is not enough. So it leaves a value of the range as it is and brings every other
one, NaN and infinities included, into the range, drawing no NaN. -/
def Obligations.WrapBringsIntoRange : Prop :=
  ∀ (v b : F32) (k : Nat), b = piF ∨ b = twoPiF →
    InRange b (runDraw (wrap v b) k).1 ∧ (runDraw (wrap v b) k).2 = k ∧ (InRange b v → (runDraw (wrap v b) k).1 = v) ∧
    (isFinite v = false → (runDraw (wrap v b) k).1 = 0) ∧
    (isFinite v = true → ¬ InRange b v → ∃ moved,
      (if fLt b v then fSubCore v twoPiF else fAddCore v twoPiF) = some moved ∧
      (InRange b moved → (runDraw (wrap v b) k).1 = moved) ∧ (¬ InRange b moved → (runDraw (wrap v b) k).1 = 0))

/-- R6, I3: cosine and sine are exactly 1.0 and +0 at +0, a NaN of a NaN or infinite argument, and on every finite argument
within 2 ulp of the real cosine and sine of its exact value; whatever encoding is drawn for a NaN is one. That the ulp is
the larger one of the value and the real number is the model's reading (log entry 2). -/
def Obligations.TrigonometryKeepsItsLimits : Prop :=
  ∀ (p : F32) (k : Nat),
    runDraw (expj 0) k = (⟨f1, 0⟩, k) ∧
    (isFinite p = false → isNaN (runDraw (pCos p) k).1 = true ∧ isNaN (runDraw (pSin p) k).1 = true) ∧
    (isFinite p = true →
      NearReal (runDraw (pCos p) k).1 (Real.cos (fRat p)) ∧ NearReal (runDraw (pSin p) k).1 (Real.sin (fRat p)))

/-! ## The two convolution modes -/

/-- R172, R6: on finite taps and samples, each component of FIR_CONVOLVE is finite and within `P_TOL` of the same component of
FIR_FILTER_BLOCK on a freshly constructed instance with the same taps, and within `P_TOL` of the exact sum of R161. Where the
streaming result overflowed to an infinity or a NaN, from which the spec states no distance, the second limit alone holds,
where a binary32 value meets it: the model's choice (log entry 15). `P_TOL` is the build's free positive number, one for all
the finite data that its FIR_CONVOLVE can transform: the model's choice too (log entry 4). -/
def Obligations.ConvolveAgreesWithStreaming : Prop :=
  ∀ (s : State) (cap : Word) (xs : List C32) (size : Nat), FirGood Config.firMaxTaps s.fir → s.fir.cfg = true →
    WellFormed (.firConvolve cap xs) → xs.length ≤ cap.toNat →
    isFftSize (xs.length + s.fir.n - 1) size → size ≤ Config.fftMax →
    (∀ c ∈ s.fir.taps ++ xs, isFinite c.re = true ∧ isFinite c.im = true) →
    let near := fun (v : F32) (a : Rat) => isFinite v = true ∧ |fRat v - a| ≤ pTol
    let agree := fun (z y : F32) (exact : Rat) =>
      (isFinite y = true → near z (fRat y)) ∧ (isFinite y = true ∨ (∃ w, near w exact) → near z exact)
    0 < pTol ∧
    ∃ (zs ys : List C32) (t u : State), zs.length = xs.length ∧ ys.length = xs.length ∧
      exec (.firConvolve cap xs) s = .next t ∧ newWords s t = 0x00000000 :: unpairWords zs ∧
      exec (.firFilterBlock cap xs) { s with fir := { s.fir with dl := List.replicate s.fir.n ⟨0, 0⟩, cur := 0 } } = .next u ∧
      newWords s u = 0x00000000 :: unpairWords ys ∧
      ∀ j, j < xs.length →
        agree (zs.getD j ⟨0, 0⟩).re (ys.getD j ⟨0, 0⟩).re
          (exactConvolution (fun h x => fRat h.re * fRat x.re - fRat h.im * fRat x.im) s.fir.taps xs j) ∧
        agree (zs.getD j ⟨0, 0⟩).im (ys.getD j ⟨0, 0⟩).im
          (exactConvolution (fun h x => fRat h.re * fRat x.im + fRat h.im * fRat x.re) s.fir.taps xs j)
end

