-- ==== Sys2Proof/Laws/State.lean ====
section
/-!
SUPPORT. One lemma per field per update of State, true by definition, so that no later proof unfolds a record update.
-/

namespace Sys2Proof.Machine

@[simp] theorem State.withFir_fir (s : State) (f : FirState) : (s.withFir f).fir = f := rfl
@[simp] theorem State.withFir_fll (s : State) (f : FirState) : (s.withFir f).fll = s.fll := rfl
@[simp] theorem State.withFir_cos (s : State) (f : FirState) : (s.withFir f).cos = s.cos := rfl
@[simp] theorem State.withFir_tr (s : State) (f : FirState) : (s.withFir f).tr = s.tr := rfl
@[simp] theorem State.withFir_fr (s : State) (f : FirState) : (s.withFir f).fr = s.fr := rfl
@[simp] theorem State.withFir_pipe (s : State) (f : FirState) : (s.withFir f).pipe = s.pipe := rfl
@[simp] theorem State.withFir_fftCache (s : State) (f : FirState) : (s.withFir f).fftCache = s.fftCache := rfl
@[simp] theorem State.withFir_cmdpos (s : State) (f : FirState) : (s.withFir f).cmdpos = s.cmdpos := rfl
@[simp] theorem State.withFir_cmdIn (s : State) (f : FirState) : (s.withFir f).cmdIn = s.cmdIn := rfl
@[simp] theorem State.withFir_resp (s : State) (f : FirState) : (s.withFir f).resp = s.resp := rfl
@[simp] theorem State.withFir_nanDraws (s : State) (f : FirState) : (s.withFir f).nanDraws = s.nanDraws := rfl

@[simp] theorem State.withFll_fir (s : State) (f : FllState) : (s.withFll f).fir = s.fir := rfl
@[simp] theorem State.withFll_fll (s : State) (f : FllState) : (s.withFll f).fll = f := rfl
@[simp] theorem State.withFll_cos (s : State) (f : FllState) : (s.withFll f).cos = s.cos := rfl
@[simp] theorem State.withFll_tr (s : State) (f : FllState) : (s.withFll f).tr = s.tr := rfl
@[simp] theorem State.withFll_fr (s : State) (f : FllState) : (s.withFll f).fr = s.fr := rfl
@[simp] theorem State.withFll_pipe (s : State) (f : FllState) : (s.withFll f).pipe = s.pipe := rfl
@[simp] theorem State.withFll_fftCache (s : State) (f : FllState) : (s.withFll f).fftCache = s.fftCache := rfl
@[simp] theorem State.withFll_cmdpos (s : State) (f : FllState) : (s.withFll f).cmdpos = s.cmdpos := rfl
@[simp] theorem State.withFll_cmdIn (s : State) (f : FllState) : (s.withFll f).cmdIn = s.cmdIn := rfl
@[simp] theorem State.withFll_resp (s : State) (f : FllState) : (s.withFll f).resp = s.resp := rfl
@[simp] theorem State.withFll_nanDraws (s : State) (f : FllState) : (s.withFll f).nanDraws = s.nanDraws := rfl

@[simp] theorem State.withCos_fir (s : State) (c : CosState) : (s.withCos c).fir = s.fir := rfl
@[simp] theorem State.withCos_fll (s : State) (c : CosState) : (s.withCos c).fll = s.fll := rfl
@[simp] theorem State.withCos_cos (s : State) (c : CosState) : (s.withCos c).cos = c := rfl
@[simp] theorem State.withCos_tr (s : State) (c : CosState) : (s.withCos c).tr = s.tr := rfl
@[simp] theorem State.withCos_fr (s : State) (c : CosState) : (s.withCos c).fr = s.fr := rfl
@[simp] theorem State.withCos_pipe (s : State) (c : CosState) : (s.withCos c).pipe = s.pipe := rfl
@[simp] theorem State.withCos_fftCache (s : State) (c : CosState) : (s.withCos c).fftCache = s.fftCache := rfl
@[simp] theorem State.withCos_cmdpos (s : State) (c : CosState) : (s.withCos c).cmdpos = s.cmdpos := rfl
@[simp] theorem State.withCos_cmdIn (s : State) (c : CosState) : (s.withCos c).cmdIn = s.cmdIn := rfl
@[simp] theorem State.withCos_resp (s : State) (c : CosState) : (s.withCos c).resp = s.resp := rfl
@[simp] theorem State.withCos_nanDraws (s : State) (c : CosState) : (s.withCos c).nanDraws = s.nanDraws := rfl

@[simp] theorem State.withTr_fir (s : State) (t : TrState) : (s.withTr t).fir = s.fir := rfl
@[simp] theorem State.withTr_fll (s : State) (t : TrState) : (s.withTr t).fll = s.fll := rfl
@[simp] theorem State.withTr_cos (s : State) (t : TrState) : (s.withTr t).cos = s.cos := rfl
@[simp] theorem State.withTr_tr (s : State) (t : TrState) : (s.withTr t).tr = t := rfl
@[simp] theorem State.withTr_fr (s : State) (t : TrState) : (s.withTr t).fr = s.fr := rfl
@[simp] theorem State.withTr_pipe (s : State) (t : TrState) : (s.withTr t).pipe = s.pipe := rfl
@[simp] theorem State.withTr_fftCache (s : State) (t : TrState) : (s.withTr t).fftCache = s.fftCache := rfl
@[simp] theorem State.withTr_cmdpos (s : State) (t : TrState) : (s.withTr t).cmdpos = s.cmdpos := rfl
@[simp] theorem State.withTr_cmdIn (s : State) (t : TrState) : (s.withTr t).cmdIn = s.cmdIn := rfl
@[simp] theorem State.withTr_resp (s : State) (t : TrState) : (s.withTr t).resp = s.resp := rfl
@[simp] theorem State.withTr_nanDraws (s : State) (t : TrState) : (s.withTr t).nanDraws = s.nanDraws := rfl

@[simp] theorem State.withFr_fir (s : State) (f : FrState) : (s.withFr f).fir = s.fir := rfl
@[simp] theorem State.withFr_fll (s : State) (f : FrState) : (s.withFr f).fll = s.fll := rfl
@[simp] theorem State.withFr_cos (s : State) (f : FrState) : (s.withFr f).cos = s.cos := rfl
@[simp] theorem State.withFr_tr (s : State) (f : FrState) : (s.withFr f).tr = s.tr := rfl
@[simp] theorem State.withFr_fr (s : State) (f : FrState) : (s.withFr f).fr = f := rfl
@[simp] theorem State.withFr_pipe (s : State) (f : FrState) : (s.withFr f).pipe = s.pipe := rfl
@[simp] theorem State.withFr_fftCache (s : State) (f : FrState) : (s.withFr f).fftCache = s.fftCache := rfl
@[simp] theorem State.withFr_cmdpos (s : State) (f : FrState) : (s.withFr f).cmdpos = s.cmdpos := rfl
@[simp] theorem State.withFr_cmdIn (s : State) (f : FrState) : (s.withFr f).cmdIn = s.cmdIn := rfl
@[simp] theorem State.withFr_resp (s : State) (f : FrState) : (s.withFr f).resp = s.resp := rfl
@[simp] theorem State.withFr_nanDraws (s : State) (f : FrState) : (s.withFr f).nanDraws = s.nanDraws := rfl

@[simp] theorem State.withPipe_fir (s : State) (p : PipeState) : (s.withPipe p).fir = s.fir := rfl
@[simp] theorem State.withPipe_fll (s : State) (p : PipeState) : (s.withPipe p).fll = s.fll := rfl
@[simp] theorem State.withPipe_cos (s : State) (p : PipeState) : (s.withPipe p).cos = s.cos := rfl
@[simp] theorem State.withPipe_tr (s : State) (p : PipeState) : (s.withPipe p).tr = s.tr := rfl
@[simp] theorem State.withPipe_fr (s : State) (p : PipeState) : (s.withPipe p).fr = s.fr := rfl
@[simp] theorem State.withPipe_pipe (s : State) (p : PipeState) : (s.withPipe p).pipe = p := rfl
@[simp] theorem State.withPipe_fftCache (s : State) (p : PipeState) : (s.withPipe p).fftCache = s.fftCache := rfl
@[simp] theorem State.withPipe_cmdpos (s : State) (p : PipeState) : (s.withPipe p).cmdpos = s.cmdpos := rfl
@[simp] theorem State.withPipe_cmdIn (s : State) (p : PipeState) : (s.withPipe p).cmdIn = s.cmdIn := rfl
@[simp] theorem State.withPipe_resp (s : State) (p : PipeState) : (s.withPipe p).resp = s.resp := rfl
@[simp] theorem State.withPipe_nanDraws (s : State) (p : PipeState) : (s.withPipe p).nanDraws = s.nanDraws := rfl

@[simp] theorem State.withCache_fir (s : State) (c : List Nat) : (s.withCache c).fir = s.fir := rfl
@[simp] theorem State.withCache_fll (s : State) (c : List Nat) : (s.withCache c).fll = s.fll := rfl
@[simp] theorem State.withCache_cos (s : State) (c : List Nat) : (s.withCache c).cos = s.cos := rfl
@[simp] theorem State.withCache_tr (s : State) (c : List Nat) : (s.withCache c).tr = s.tr := rfl
@[simp] theorem State.withCache_fr (s : State) (c : List Nat) : (s.withCache c).fr = s.fr := rfl
@[simp] theorem State.withCache_pipe (s : State) (c : List Nat) : (s.withCache c).pipe = s.pipe := rfl
@[simp] theorem State.withCache_fftCache (s : State) (c : List Nat) : (s.withCache c).fftCache = c := rfl
@[simp] theorem State.withCache_cmdpos (s : State) (c : List Nat) : (s.withCache c).cmdpos = s.cmdpos := rfl
@[simp] theorem State.withCache_cmdIn (s : State) (c : List Nat) : (s.withCache c).cmdIn = s.cmdIn := rfl
@[simp] theorem State.withCache_resp (s : State) (c : List Nat) : (s.withCache c).resp = s.resp := rfl
@[simp] theorem State.withCache_nanDraws (s : State) (c : List Nat) : (s.withCache c).nanDraws = s.nanDraws := rfl

@[simp] theorem State.withDraws_fir (s : State) (k : Nat) : (s.withDraws k).fir = s.fir := rfl
@[simp] theorem State.withDraws_fll (s : State) (k : Nat) : (s.withDraws k).fll = s.fll := rfl
@[simp] theorem State.withDraws_cos (s : State) (k : Nat) : (s.withDraws k).cos = s.cos := rfl
@[simp] theorem State.withDraws_tr (s : State) (k : Nat) : (s.withDraws k).tr = s.tr := rfl
@[simp] theorem State.withDraws_fr (s : State) (k : Nat) : (s.withDraws k).fr = s.fr := rfl
@[simp] theorem State.withDraws_pipe (s : State) (k : Nat) : (s.withDraws k).pipe = s.pipe := rfl
@[simp] theorem State.withDraws_fftCache (s : State) (k : Nat) : (s.withDraws k).fftCache = s.fftCache := rfl
@[simp] theorem State.withDraws_cmdpos (s : State) (k : Nat) : (s.withDraws k).cmdpos = s.cmdpos := rfl
@[simp] theorem State.withDraws_cmdIn (s : State) (k : Nat) : (s.withDraws k).cmdIn = s.cmdIn := rfl
@[simp] theorem State.withDraws_resp (s : State) (k : Nat) : (s.withDraws k).resp = s.resp := rfl
@[simp] theorem State.withDraws_nanDraws (s : State) (k : Nat) : (s.withDraws k).nanDraws = k := rfl

@[simp] theorem State.emit_fir (s : State) (ws : List Word) : (s.emit ws).fir = s.fir := rfl
@[simp] theorem State.emit_fll (s : State) (ws : List Word) : (s.emit ws).fll = s.fll := rfl
@[simp] theorem State.emit_cos (s : State) (ws : List Word) : (s.emit ws).cos = s.cos := rfl
@[simp] theorem State.emit_tr (s : State) (ws : List Word) : (s.emit ws).tr = s.tr := rfl
@[simp] theorem State.emit_fr (s : State) (ws : List Word) : (s.emit ws).fr = s.fr := rfl
@[simp] theorem State.emit_pipe (s : State) (ws : List Word) : (s.emit ws).pipe = s.pipe := rfl
@[simp] theorem State.emit_fftCache (s : State) (ws : List Word) : (s.emit ws).fftCache = s.fftCache := rfl
@[simp] theorem State.emit_cmdpos (s : State) (ws : List Word) : (s.emit ws).cmdpos = s.cmdpos := rfl
@[simp] theorem State.emit_cmdIn (s : State) (ws : List Word) : (s.emit ws).cmdIn = s.cmdIn := rfl
@[simp] theorem State.emit_resp (s : State) (ws : List Word) : (s.emit ws).resp = s.resp ++ ws := rfl
@[simp] theorem State.emit_nanDraws (s : State) (ws : List Word) : (s.emit ws).nanDraws = s.nanDraws := rfl

@[simp] theorem State.withStages_fir (s : State) (st : Stages) : (s.withStages st).fir = st.fir := rfl
@[simp] theorem State.withStages_fll (s : State) (st : Stages) : (s.withStages st).fll = st.fll := rfl
@[simp] theorem State.withStages_cos (s : State) (st : Stages) : (s.withStages st).cos = st.cos := rfl
@[simp] theorem State.withStages_tr (s : State) (st : Stages) : (s.withStages st).tr = st.tr := rfl
@[simp] theorem State.withStages_fr (s : State) (st : Stages) : (s.withStages st).fr = s.fr := rfl
@[simp] theorem State.withStages_pipe (s : State) (st : Stages) : (s.withStages st).pipe = s.pipe := rfl
@[simp] theorem State.withStages_fftCache (s : State) (st : Stages) : (s.withStages st).fftCache = s.fftCache := rfl
@[simp] theorem State.withStages_cmdpos (s : State) (st : Stages) : (s.withStages st).cmdpos = s.cmdpos := rfl
@[simp] theorem State.withStages_cmdIn (s : State) (st : Stages) : (s.withStages st).cmdIn = s.cmdIn := rfl
@[simp] theorem State.withStages_resp (s : State) (st : Stages) : (s.withStages st).resp = s.resp := rfl
@[simp] theorem State.withStages_nanDraws (s : State) (st : Stages) : (s.withStages st).nanDraws = s.nanDraws := rfl

@[simp] theorem State.consume_fir (s : State) (rest : List Word) (n : Nat) : (s.consume rest n).fir = s.fir := rfl
@[simp] theorem State.consume_fll (s : State) (rest : List Word) (n : Nat) : (s.consume rest n).fll = s.fll := rfl
@[simp] theorem State.consume_cos (s : State) (rest : List Word) (n : Nat) : (s.consume rest n).cos = s.cos := rfl
@[simp] theorem State.consume_tr (s : State) (rest : List Word) (n : Nat) : (s.consume rest n).tr = s.tr := rfl
@[simp] theorem State.consume_fr (s : State) (rest : List Word) (n : Nat) : (s.consume rest n).fr = s.fr := rfl
@[simp] theorem State.consume_pipe (s : State) (rest : List Word) (n : Nat) : (s.consume rest n).pipe = s.pipe := rfl
@[simp] theorem State.consume_fftCache (s : State) (rest : List Word) (n : Nat) : (s.consume rest n).fftCache = s.fftCache := rfl
@[simp] theorem State.consume_cmdpos (s : State) (rest : List Word) (n : Nat) : (s.consume rest n).cmdpos = s.cmdpos + BitVec.ofNat 32 n := rfl
@[simp] theorem State.consume_cmdIn (s : State) (rest : List Word) (n : Nat) : (s.consume rest n).cmdIn = rest := rfl
@[simp] theorem State.consume_resp (s : State) (rest : List Word) (n : Nat) : (s.consume rest n).resp = s.resp := rfl
@[simp] theorem State.consume_nanDraws (s : State) (rest : List Word) (n : Nat) : (s.consume rest n).nanDraws = s.nanDraws := rfl

@[simp] theorem State.coreReset_fir (s : State) : s.coreReset.fir = FirState.reset := rfl
@[simp] theorem State.coreReset_fll (s : State) : s.coreReset.fll = FllState.reset := rfl
@[simp] theorem State.coreReset_cos (s : State) : s.coreReset.cos = CosState.reset := rfl
@[simp] theorem State.coreReset_tr (s : State) : s.coreReset.tr = TrState.reset := rfl
@[simp] theorem State.coreReset_fr (s : State) : s.coreReset.fr = FrState.reset := rfl
@[simp] theorem State.coreReset_pipe (s : State) : s.coreReset.pipe = PipeState.reset := rfl
@[simp] theorem State.coreReset_fftCache (s : State) : s.coreReset.fftCache = [] := rfl
@[simp] theorem State.coreReset_cmdpos (s : State) : s.coreReset.cmdpos = s.cmdpos := rfl
@[simp] theorem State.coreReset_cmdIn (s : State) : s.coreReset.cmdIn = s.cmdIn := rfl
@[simp] theorem State.coreReset_resp (s : State) : s.coreReset.resp = s.resp := rfl
@[simp] theorem State.coreReset_nanDraws (s : State) : s.coreReset.nanDraws = s.nanDraws := rfl

@[simp] theorem State.reset_fir : State.reset.fir = FirState.reset := rfl
@[simp] theorem State.reset_fll : State.reset.fll = FllState.reset := rfl
@[simp] theorem State.reset_cos : State.reset.cos = CosState.reset := rfl
@[simp] theorem State.reset_tr : State.reset.tr = TrState.reset := rfl
@[simp] theorem State.reset_fr : State.reset.fr = FrState.reset := rfl
@[simp] theorem State.reset_pipe : State.reset.pipe = PipeState.reset := rfl
@[simp] theorem State.reset_fftCache : State.reset.fftCache = [] := rfl
@[simp] theorem State.reset_cmdpos : State.reset.cmdpos = 0 := rfl
@[simp] theorem State.reset_cmdIn : State.reset.cmdIn = [] := rfl
@[simp] theorem State.reset_resp : State.reset.resp = [] := rfl
@[simp] theorem State.reset_nanDraws : State.reset.nanDraws = 0 := rfl

@[simp] theorem State.stages_fir (s : State) : s.stages.fir = s.fir := rfl
@[simp] theorem State.stages_fll (s : State) : s.stages.fll = s.fll := rfl
@[simp] theorem State.stages_tr (s : State) : s.stages.tr = s.tr := rfl
@[simp] theorem State.stages_cos (s : State) : s.stages.cos = s.cos := rfl

end Sys2Proof.Machine
end

