-- ==== Sys2Proof/Laws/Ops.lean ====
section
/-!
SUPPORT. What each shared operation can do, said once: raising and completing, leaving the stream, the internal memories,
running arithmetic with NaN draws, and a block of samples.
-/

namespace Sys2Proof.Machine

/-! ## Raising, completing, leaving the stream -/

theorem raise_eq (e : ErrorCode) (s : State) : raise e s = .next (s.emit [statusWord (errorNumber e) false]) := rfl

theorem complete_eq (more : Bool) (ws : List Word) (s : State) :
    complete more ws s = .next (s.emit (statusWord 0 more :: ws)) := rfl

theorem raise_next_iff (e : ErrorCode) (s t : State) :
    raise e s = .next t ↔ t = s.emit [statusWord (errorNumber e) false] := by
  rw [raise_eq]; constructor
  · intro h; cases h; rfl
  · rintro rfl; rfl

theorem complete_next_iff (more : Bool) (ws : List Word) (s t : State) :
    complete more ws s = .next t ↔ t = s.emit (statusWord 0 more :: ws) := by
  rw [complete_eq]; constructor
  · intro h; cases h; rfl
  · rintro rfl; rfl

/-- A command that leaves the stream after an answer `next` was a command that answered `next`. -/
theorem afterCommand_next_iff (rest : List Word) (n : Nat) (r : Result) (t : State) :
    afterCommand rest n r = .next t ↔ ∃ s, r = .next s ∧ t = s.consume rest n := by
  cases r with
  | next s =>
    constructor
    · intro h; cases h; exact ⟨s, rfl, rfl⟩
    · rintro ⟨u, hu, rfl⟩; cases hu; rfl
  | fault f => cases f
  | refused f =>
    constructor
    · intro h; cases h
    · rintro ⟨_, hu, _⟩; cases hu

/-- What one step can do (R115): run a whole command, reject an unassigned header, or hold. -/
theorem step_cases {s t : State} (h : step s = .next t) :
    (∃ i rest u, decode s.cmdIn = .command i rest ∧ exec i s = .next u ∧
      t = u.consume rest (s.cmdIn.length - rest.length)) ∨
    (∃ rest, decode s.cmdIn = .illegalOpcode rest ∧ t = (s.emit [statusWord 0x01 false]).consume rest 1) ∨
    t = s := by
  unfold step at h
  split at h
  · rename_i i rest hd
    obtain ⟨u, hu, rfl⟩ := (afterCommand_next_iff _ _ _ _).1 h
    exact .inl ⟨i, rest, u, hd, hu, rfl⟩
  · rename_i rest hd
    obtain ⟨u, hu, rfl⟩ := (afterCommand_next_iff _ _ _ _).1 h
    rw [raise_next_iff] at hu
    subst hu
    exact .inr (.inl ⟨rest, hd, rfl⟩)
  · cases h; exact .inr (.inr rfl)
  · cases h; exact .inr (.inr rfl)

/-! ## The status word -/

theorem statusWord_ok : statusWord 0 false = 0x00000000 := by decide
theorem statusWord_more : statusWord 0 true = 0x00000100 := by decide

theorem statusWord_error (e : ErrorCode) :
    statusWord (errorNumber e) false = BitVec.ofNat 32 (errorNumber e).toNat := by
  cases e <;> decide

/-! ## The internal memories -/

@[simp] theorem memWrite_length (m : List C32) (i : Nat) (v : C32) : (memWrite m i v).length = m.length := by
  simp [memWrite]

@[simp] theorem memClear_length (k : Nat) : (memClear k).length = k := by simp [memClear]

theorem memRead_memWrite_same (m : List C32) (i : Nat) (v : C32) (h : i < m.length) :
    memRead (memWrite m i v) i = v := by
  simp [memRead, memWrite, h]

theorem memRead_memWrite_other (m : List C32) (i j : Nat) (v : C32) (h : i ≠ j) :
    memRead (memWrite m i v) j = memRead m j := by
  simp [memRead, memWrite, List.getD, List.getElem?_set_ne h]

theorem memRead_memClear (k i : Nat) : memRead (memClear k) i = C32.zero := by
  simp only [memRead, memClear, List.getD, List.getElem?_replicate]
  split <;> rfl

/-- The queue, the ring and the tail stay within their capacities under the operations that grow them. -/
theorem queue_append_within (q xs : List C32) (h : ¬ Config.trQcap < q.length + xs.length) :
    (q ++ xs).length ≤ Config.trQcap := by
  simpa using Nat.le_of_not_lt h

theorem ring_append_within (cap : Nat) (r : List Byte) (b : Byte) (h : r.length ≤ cap) (hne : r.length ≠ cap) :
    (r ++ [b]).length ≤ cap := by
  simp; omega

theorem lastN_length {α : Type} (k : Nat) (l : List α) : (lastN k l).length = min k l.length := by
  simp [lastN]; omega

theorem unpackBytes_length_le (len : Nat) (ws : List Word) : (unpackBytes len ws).length ≤ len := by
  simp [unpackBytes]

theorem trDrop_queue_length_le (t : TrState) : (trDrop t).queue.length ≤ t.queue.length := by
  simp [trDrop]

/-- `Memory.wf` as propositions. -/
theorem memory_wf_iff (s : State) : Memory.wf s = true ↔
    (s.fir.taps.length = s.fir.n ∧ s.fir.dl.length = s.fir.n ∧ s.fir.n ≤ Config.firMaxTaps) ∧
    (s.fll.lo.taps.length = s.fll.lo.n ∧ s.fll.lo.dl.length = s.fll.lo.n ∧ s.fll.lo.n ≤ Config.fllMaxTaps) ∧
    (s.fll.up.taps.length = s.fll.up.n ∧ s.fll.up.dl.length = s.fll.up.n ∧ s.fll.up.n ≤ Config.fllMaxTaps) ∧
    s.tr.queue.length ≤ Config.trQcap ∧
    (s.fr.startMarker.length ≤ Config.frMaxMarker ∧ s.fr.endMarker.length ≤ Config.frMaxMarker) ∧
    s.fr.ring.length ≤ Config.frRingCap ∧ s.fr.tail.length ≤ 8 * s.fr.startMarker.length + 7 ∧ s.fr.pk.length ≤ 7 := by
  simp only [Memory.wf, Bool.and_eq_true, beq_iff_eq, decide_eq_true_eq]
  tauto

theorem reset_memories_wf : Memory.wf State.reset = true := by
  rw [memory_wf_iff]
  simp [FirState.reset, FllState.reset, TrState.reset, FrState.reset]

theorem memWrite_keeps_fir_wf (s : State) (i : Nat) (v : C32) (h : Memory.wf s = true) :
    Memory.wf (s.withFir { s.fir with dl := memWrite s.fir.dl i v }) = true := by
  rw [memory_wf_iff] at h ⊢
  simpa using h

/-! ## Arithmetic with NaN draws -/

@[simp] theorem runDraw_pure {α : Type} (a : α) (k : Nat) : runDraw (pure a : Draw α) k = (a, k) := rfl

@[simp] theorem runDraw_bind {α β : Type} (m : Draw α) (f : α → Draw β) (k : Nat) :
    runDraw (m >>= f) k = runDraw (f (runDraw m k).1) (runDraw m k).2 := rfl

theorem runDraw_ite {α : Type} (c : Prop) [Decidable c] (a b : Draw α) (k : Nat) :
    runDraw (if c then a else b) k = if c then runDraw a k else runDraw b k := by split <;> rfl

theorem Draw.ext_run {α : Type} {a b : Draw α} (h : ∀ k, runDraw a k = runDraw b k) : a = b := funext h

theorem runDraw_orNaN_some (v : F32) (k : Nat) : runDraw (orNaN (some v)) k = (v, k) := rfl

theorem runDraw_orNaN_none (k : Nat) : runDraw (orNaN none) k = (nanOf (Config.nanBits k), k + 1) := rfl

theorem nanOf_isNaN (v : F32) : isNaN (nanOf v) = true := by
  have key : ∀ w : F32, isNaN (w ||| 0x7FC00000) = true := by
    intro w
    have he : (w ||| 0x7FC00000).extractLsb' 23 8 = 0xFF := by
      ext i hi; simp; interval_cases i <;> simp
    have hf : ((w ||| 0x7FC00000).extractLsb' 0 23) ≠ 0 := by
      intro h
      have := congrArg (fun b : BitVec 23 => b.getLsbD 22) h
      simp at this
    simp only [isNaN, fExp, fFrac, he]
    simp only [Bool.and_eq_true, bne_iff_ne, ne_eq, beq_iff_eq]
    refine ⟨by decide, fun h => hf (BitVec.eq_of_toNat_eq ?_)⟩
    simpa using h
  unfold nanOf
  split
  · assumption
  · exact key v

/-- An operation's result is its value, or a NaN encoding drawn for it. -/
theorem runDraw_orNaN (o : Option F32) (k : Nat) :
    (∃ v, o = some v ∧ runDraw (orNaN o) k = (v, k)) ∨
    (o = none ∧ isNaN (runDraw (orNaN o) k).1 = true ∧ (runDraw (orNaN o) k).2 = k + 1) := by
  cases o with
  | some v => exact .inl ⟨v, rfl, rfl⟩
  | none => exact .inr ⟨rfl, nanOf_isNaN _, rfl⟩

/-! ## A block of samples -/

section
variable {σ : Type} (f : σ → C32 → Draw (C32 × σ))

@[simp] theorem runBlock_nil (s : σ) (k : Nat) : runDraw (runBlock f s []) k = (([], s), k) := rfl

theorem runBlock_cons (s : σ) (x : C32) (xs : List C32) (k : Nat) :
    runDraw (runBlock f s (x :: xs)) k =
      (((runDraw (f s x) k).1.1 :: (runDraw (runBlock f (runDraw (f s x) k).1.2 xs) (runDraw (f s x) k).2).1.1,
        (runDraw (runBlock f (runDraw (f s x) k).1.2 xs) (runDraw (f s x) k).2).1.2),
       (runDraw (runBlock f (runDraw (f s x) k).1.2 xs) (runDraw (f s x) k).2).2) := rfl

/-- A block gives one output per sample. -/
theorem runBlock_length (s : σ) (xs : List C32) (k : Nat) :
    (runDraw (runBlock f s xs) k).1.1.length = xs.length := by
  induction xs generalizing s k with
  | nil => rfl
  | cons x xs ih => rw [runBlock_cons]; simp [ih]

/-- A property of a stage that each of its steps keeps holds after a block. -/
theorem runBlock_keeps {P : σ → Prop} (hstep : ∀ s x k, P s → P (runDraw (f s x) k).1.2) (s : σ) (xs : List C32) (k : Nat)
    (h : P s) : P (runDraw (runBlock f s xs) k).1.2 := by
  induction xs generalizing s k with
  | nil => exact h
  | cons x xs ih => rw [runBlock_cons]; exact ih _ _ (hstep s x k h)

/-- A block may be cut anywhere. -/
theorem runBlock_append (s : σ) (xs ys : List C32) (k : Nat) :
    runDraw (runBlock f s (xs ++ ys)) k =
      (((runDraw (runBlock f s xs) k).1.1 ++
          (runDraw (runBlock f (runDraw (runBlock f s xs) k).1.2 ys) (runDraw (runBlock f s xs) k).2).1.1,
        (runDraw (runBlock f (runDraw (runBlock f s xs) k).1.2 ys) (runDraw (runBlock f s xs) k).2).1.2),
       (runDraw (runBlock f (runDraw (runBlock f s xs) k).1.2 ys) (runDraw (runBlock f s xs) k).2).2) := by
  induction xs generalizing s k with
  | nil => rfl
  | cons x xs ih => rw [List.cons_append, runBlock_cons, ih, runBlock_cons]; rfl
end

end Sys2Proof.Machine
end

