-- ==== Sys2Proof/Laws/Float.lean ====
section
/-!
SUPPORT. Binary32 facts over those of Sys2Proof/Machine/Rounding.lean: comparisons and ranges, and the operations whose
result needs no rounding.
-/

namespace Sys2Proof.Machine

/-! ## Comparisons and ranges -/

theorem fLe_iff (a b : F32) : fLe a b = true ↔ isNaN a = false ∧ isNaN b = false ∧ fVal a ≤ fVal b := by
  simp [fLe, and_assoc]

theorem fLt_iff (a b : F32) : fLt a b = true ↔ isNaN a = false ∧ isNaN b = false ∧ fVal a < fVal b := by
  simp [fLt, and_assoc]

theorem isNaN_of_isFinite {v : F32} (h : isFinite v = true) : isNaN v = false := by
  rw [isFinite_iff] at h
  rw [Bool.eq_false_iff, ne_eq, isNaN_iff]; omega

theorem isInf_of_isFinite {v : F32} (h : isFinite v = true) : isInf v = false := by
  rw [isFinite_iff] at h
  rw [Bool.eq_false_iff, ne_eq, isInf_iff]; omega

/-- A value is finite, an infinity or a NaN. -/
theorem isFinite_eq (v : F32) : isFinite v = (!isNaN v && !isInf v) := by
  have h := lowBits_lt v
  rw [Bool.eq_iff_iff, Bool.and_eq_true, Bool.not_eq_true', Bool.not_eq_true', isFinite_iff, Bool.eq_false_iff,
    Bool.eq_false_iff, ne_eq, ne_eq, isNaN_iff, isInf_iff]
  omega

theorem fVal_zero : fVal 0 = 0 := by decide

theorem fVal_eq_zero (v : F32) : fVal v = 0 ↔ lowBits v = 0 := by
  rw [← Int.natAbs_eq_zero, fVal_natAbs, fMag_eq_zero]

/-- A range symmetric around zero is a bound on the magnitude. -/
theorem inRange_abs (b v : F32) : (fLe (fNeg b) v = true ∧ fLe v b = true) ↔
    isNaN b = false ∧ isNaN v = false ∧ |fVal v| ≤ fVal b := by
  rw [fLe_iff, fLe_iff, isNaN_fNeg, fVal_fNeg, abs_le]; tauto

/-- A value no greater in magnitude than a finite one is finite. -/
theorem isFinite_of_abs_le {b v : F32} (hb : isFinite b = true) (h : |fVal v| ≤ |fVal b|) :
    isFinite v = true := by
  rw [isFinite_iff] at hb ⊢
  have h2 : fMag v ≤ fMag b := by
    rw [Int.abs_eq_natAbs, Int.abs_eq_natAbs, fVal_natAbs, fVal_natAbs] at h; exact_mod_cast h
  have := mt (fMag_lt_iff b v).2 (by omega)
  omega

theorem isFinite_sanitize (v : F32) : isFinite (sanitize v) = true := by
  unfold sanitize; split
  · assumption
  · decide

theorem sanitize_eq {v : F32} (h : isFinite v = true) : sanitize v = v := if_pos h

/-- `clamp` of a finite value lies between its limits, where they are in order. -/
theorem clamp_within {v lo hi : F32} (hv : isNaN v = false) (h : fLe lo hi = true) :
    fLe lo (clamp v lo hi) = true ∧ fLe (clamp v lo hi) hi = true := by
  unfold clamp
  rw [fLe_iff] at h
  split
  · simp only [fLe_iff]; exact ⟨⟨h.1, h.1, le_rfl⟩, h⟩
  · split
    · simp only [fLe_iff]; exact ⟨h, h.2.1, h.2.1, le_rfl⟩
    · rename_i h1 h2
      rw [fLt_iff] at h1 h2
      simp only [fLe_iff]
      refine ⟨⟨h.1, hv, ?_⟩, hv, h.2.1, ?_⟩
      · by_contra hc; exact h1 ⟨hv, h.1, by omega⟩
      · by_contra hc; exact h2 ⟨h.2.1, hv, by omega⟩

/-- The hard decision is +1.0 or -1.0 (R13). -/
theorem sgn_cases (v : F32) : sgn v = f1 ∨ sgn v = fMinus1 := by unfold sgn; split <;> simp

theorem sgn_eq_f1 (v : F32) : sgn v = f1 ↔ fLe 0 v = true := by
  unfold sgn; split
  · simp_all
  · simp_all [f1, fMinus1]

/-! ## Operations whose result needs no rounding -/

/-- The bits of a finite value are the rounding of its own magnitude. -/
theorem roundMag_fMag {v : F32} (h : isFinite v = true) (k : Nat) (hk : 0 < k) : roundMag (fMag v * k) k = lowBits v := by
  rw [fMag_lowBits]; exact roundMag_exact _ _ hk ((isFinite_iff v).1 h)

/-- A sum that binary32 has is that sum. -/
theorem fAddCore_exact {a b c : F32} (ha : isFinite a = true) (hb : isFinite b = true) (hc : isFinite c = true)
    (h : fVal a + fVal b = fVal c) : ∃ r, fAddCore a b = some r ∧ isFinite r = true ∧ fVal r = fVal c := by
  rw [fAddCore, isNaN_of_isFinite ha, isNaN_of_isFinite hb, isInf_of_isFinite ha, isInf_of_isFinite hb, h]
  simp only [Bool.or_self, Bool.false_eq_true, if_false]
  split
  · rename_i h0
    refine ⟨_, rfl, ?_, ?_⟩
    · rw [isFinite_iff, lowBits_fPack _ _ (by norm_num)]; norm_num
    · rw [fVal_fPack _ _ (by norm_num), h0]; split <;> rfl
  · have hr := roundMag_fMag hc 1 (by norm_num)
    rw [mul_one, ← fVal_natAbs] at hr
    refine ⟨_, rfl, ?_, ?_⟩
    · rw [isFinite_iff, hr, lowBits_fPack _ _ (lowBits_lt c)]; exact (isFinite_iff c).1 hc
    · rw [hr, fVal_fPack _ _ (lowBits_lt c), ← fMag_lowBits, ← fVal_natAbs]
      simp only [decide_eq_true_eq]; split <;> omega

/-- A product of finite values is finite or an infinity, with the sign of its factors, and exact where binary32 has it. -/
theorem fMulCore_finite {a b : F32} (ha : isFinite a = true) (hb : isFinite b = true) :
    fMulCore a b = some (fPack (fSign a != fSign b) (roundMag (fMag a * fMag b) (2 ^ 149))) := by
  rw [fMulCore, isNaN_of_isFinite ha, isNaN_of_isFinite hb, isInf_of_isFinite ha, isInf_of_isFinite hb]
  simp

theorem fMulCore_exact {a b c : F32} (ha : isFinite a = true) (hb : isFinite b = true) (hc : isFinite c = true)
    (h : fMag a * fMag b = fMag c * 2 ^ 149) (hs : fSign c = (fSign a != fSign b)) : fMulCore a b = some c := by
  rw [fMulCore_finite ha hb, h, roundMag_fMag hc _ (by positivity), ← hs, fPack_fields]

/-- A sum is a NaN exactly where an operand is one or two unlike infinities meet. -/
theorem fAddCore_eq_none (a b : F32) : fAddCore a b = none ↔
    isNaN a = true ∨ isNaN b = true ∨ (isInf a = true ∧ isInf b = true ∧ fSign a ≠ fSign b) := by
  unfold fAddCore
  cases isNaN a <;> cases isNaN b <;> cases isInf a <;> cases isInf b <;> simp
  split <;> simp

/-- A product is a NaN exactly where an operand is one or an infinity meets a zero. -/
theorem fMulCore_eq_none (a b : F32) : fMulCore a b = none ↔
    isNaN a = true ∨ isNaN b = true ∨ ((isInf a = true ∨ isInf b = true) ∧ (fMag a = 0 ∨ fMag b = 0)) := by
  unfold fMulCore
  cases isNaN a <;> cases isNaN b <;> cases isInf a <;> cases isInf b <;> simp <;> tauto

/-- No operation's value is a NaN: a NaN is what `none` stands for. -/
theorem fPack_roundMag_not_nan (s : Bool) (n d : Nat) : isNaN (fPack s (roundMag n d)) = false := by
  have := roundMag_le n d
  rw [Bool.eq_false_iff, ne_eq, isNaN_iff, lowBits_fPack _ _ (by omega)]; omega

theorem fAddCore_not_nan {a b r : F32} (h : fAddCore a b = some r) : isNaN r = false := by
  unfold fAddCore at h
  split at h
  · cases h
  · rename_i hn
    simp only [Bool.or_eq_true, not_or, Bool.not_eq_true] at hn
    split at h
    · split at h
      · cases h
      · cases h; exact hn.1
    · split at h
      · cases h; exact hn.2
      · split at h <;> cases h
        · cases fSign a && fSign b <;> decide
        · exact fPack_roundMag_not_nan _ _ _

theorem fMulCore_not_nan {a b r : F32} (h : fMulCore a b = some r) : isNaN r = false := by
  unfold fMulCore at h
  split at h
  · cases h
  · split at h
    · split at h <;> cases h
      cases fSign a != fSign b <;> decide
    · cases h; exact fPack_roundMag_not_nan _ _ _

end Sys2Proof.Machine
end

