-- ==== Sys2Proof/Laws/Blocks.lean ====
section
/-!
SUPPORT. What each block's step leaves behind, said once: the filter step, the agreement of the two convolution modes
(R172), the cosine and the sine (R6), the loops, the timing update and its drop, the framer's moves, and that every meaning
raises or completes.
-/

namespace Sys2Proof.Machine

/-! ## The filter step -/

/-- A filter step leaves the pushed filter, whatever its output is (R160). -/
theorem firStep_state (f : FirState) (x : C32) (k : Nat) : (runDraw (firStep f x) k).1.2 = firPush f x := rfl

@[simp] theorem firPush_cfg (f : FirState) (x : C32) : (firPush f x).cfg = f.cfg := rfl
@[simp] theorem firPush_cplx (f : FirState) (x : C32) : (firPush f x).cplx = f.cplx := rfl
@[simp] theorem firPush_n (f : FirState) (x : C32) : (firPush f x).n = f.n := rfl
@[simp] theorem firPush_taps (f : FirState) (x : C32) : (firPush f x).taps = f.taps := rfl
@[simp] theorem firPush_cur (f : FirState) (x : C32) : (firPush f x).cur = (f.cur + 1) % f.n := rfl
@[simp] theorem firPush_dl (f : FirState) (x : C32) : (firPush f x).dl = memWrite f.dl f.cur x := rfl

/-- A block of filter steps leaves the taps, their number and their kind (R164). -/
theorem runBlock_firStep_fixed (f : FirState) (xs : List C32) (k : Nat) :
    (runDraw (runBlock firStep f xs) k).1.2.taps = f.taps ∧ (runDraw (runBlock firStep f xs) k).1.2.n = f.n ∧
    (runDraw (runBlock firStep f xs) k).1.2.cplx = f.cplx ∧ (runDraw (runBlock firStep f xs) k).1.2.cfg = f.cfg ∧
    (runDraw (runBlock firStep f xs) k).1.2.dl.length = f.dl.length := by
  refine runBlock_keeps firStep (P := fun g => g.taps = f.taps ∧ g.n = f.n ∧ g.cplx = f.cplx ∧ g.cfg = f.cfg ∧
    g.dl.length = f.dl.length) ?_ f xs k ⟨rfl, rfl, rfl, rfl, rfl⟩
  intro g x k h
  rw [firStep_state]; simpa using h

/-! ## NaN draws and the agreement of the two convolution modes -/

/-- Equal, or two NaN encodings. -/
def SameF (a b : F32) : Prop := a = b ∨ (isNaN a = true ∧ isNaN b = true)

/-- The same sample up to NaN encodings. -/
def SameC (a b : C32) : Prop := SameF a.re b.re ∧ SameF a.im b.im

theorem SameF.refl (a : F32) : SameF a a := .inl rfl

theorem SameF.symm {a b : F32} (h : SameF a b) : SameF b a := h.imp Eq.symm And.symm

theorem SameC.refl (a : C32) : SameC a a := ⟨.refl _, .refl _⟩

/-- A finite value is the same as nothing but itself. -/
theorem SameF.eq_of_finite {a b : F32} (h : SameF a b) (hb : isFinite b = true) : a = b := by
  rcases h with h | ⟨-, h⟩
  · exact h
  · rw [isNaN_of_isFinite hb] at h; exact Bool.noConfusion h

theorem SameF.neg {a b : F32} (h : SameF a b) : SameF (fNeg a) (fNeg b) := by
  rcases h with rfl | ⟨ha, hb⟩
  · exact .refl _
  · exact .inr ⟨by simpa using ha, by simpa using hb⟩

/-- An operation's result depends on the draws in nothing but a NaN's encoding. -/
theorem orNaN_same (o : Option F32) (k k' : Nat) : SameF (runDraw (orNaN o) k).1 (runDraw (orNaN o) k').1 := by
  cases o with
  | some v => exact .refl v
  | none => exact .inr ⟨nanOf_isNaN _, nanOf_isNaN _⟩

theorem fAddCore_same {a a' b b' : F32} (ha : SameF a a') (hb : SameF b b') : fAddCore a b = fAddCore a' b' := by
  rcases ha with rfl | ⟨h, h'⟩
  · rcases hb with rfl | ⟨h, h'⟩
    · rfl
    · simp [fAddCore, h, h']
  · simp [fAddCore, h, h']

theorem fMulCore_same {a a' b b' : F32} (ha : SameF a a') (hb : SameF b b') : fMulCore a b = fMulCore a' b' := by
  rcases ha with rfl | ⟨h, h'⟩
  · rcases hb with rfl | ⟨h, h'⟩
    · rfl
    · simp [fMulCore, h, h']
  · simp [fMulCore, h, h']

theorem fAdd_same {a a' b b' : F32} (ha : SameF a a') (hb : SameF b b') (k k' : Nat) :
    SameF (runDraw (fAdd a b) k).1 (runDraw (fAdd a' b') k').1 := by
  unfold fAdd; rw [fAddCore_same ha hb]; exact orNaN_same _ _ _

theorem fSub_same {a a' b b' : F32} (ha : SameF a a') (hb : SameF b b') (k k' : Nat) :
    SameF (runDraw (fSub a b) k).1 (runDraw (fSub a' b') k').1 := by
  unfold fSub fSubCore; rw [fAddCore_same ha hb.neg]; exact orNaN_same _ _ _

theorem fMul_same {a a' b b' : F32} (ha : SameF a a') (hb : SameF b b') (k k' : Nat) :
    SameF (runDraw (fMul a b) k).1 (runDraw (fMul a' b') k').1 := by
  unfold fMul; rw [fMulCore_same ha hb]; exact orNaN_same _ _ _

theorem cAdd_same {a a' b b' : C32} (ha : SameC a a') (hb : SameC b b') (k k' : Nat) :
    SameC (runDraw (cAdd a b) k).1 (runDraw (cAdd a' b') k').1 :=
  ⟨fAdd_same ha.1 hb.1 _ _, fAdd_same ha.2 hb.2 _ _⟩

theorem cMul_same (a b : C32) (k k' : Nat) : SameC (runDraw (cMul a b) k).1 (runDraw (cMul a b) k').1 :=
  ⟨fSub_same (orNaN_same _ _ _) (orNaN_same _ _ _) _ _, fAdd_same (orNaN_same _ _ _) (orNaN_same _ _ _) _ _⟩

theorem rMul_same (h : F32) (a : C32) (k k' : Nat) : SameC (runDraw (rMul h a) k).1 (runDraw (rMul h a) k').1 :=
  ⟨orNaN_same _ _ _, orNaN_same _ _ _⟩

/-- The accumulation of R160 depends on the draws in nothing but NaN encodings. -/
theorem firAccumulate_same (f : FirState) (left i : Nat) {a b : C32} (h : SameC a b) (k k' : Nat) :
    SameC (runDraw (firAccumulate f left i a) k).1 (runDraw (firAccumulate f left i b) k').1 := by
  induction left generalizing i a b k k' with
  | zero => exact h
  | succ left ih =>
    cases hc : f.cplx
    · simp only [firAccumulate, hc, Bool.false_eq_true, if_false, runDraw_bind]
      exact ih _ (cAdd_same h (rMul_same _ _ _ _) _ _) _ _
    · simp only [firAccumulate, hc, if_true, runDraw_bind]
      exact ih _ (cAdd_same h (cMul_same _ _ _ _) _ _) _ _

/-- The outputs of a block of filter steps depend on the draws in nothing but NaN encodings, and the filter it leaves does
not depend on them. -/
theorem runBlock_firStep_same (f : FirState) (xs : List C32) (k k' : Nat) :
    List.Forall₂ SameC (runDraw (runBlock firStep f xs) k).1.1 (runDraw (runBlock firStep f xs) k').1.1 ∧
    (runDraw (runBlock firStep f xs) k).1.2 = (runDraw (runBlock firStep f xs) k').1.2 := by
  induction xs generalizing f k k' with
  | nil => exact ⟨.nil, rfl⟩
  | cons x xs ih =>
    rw [runBlock_cons, runBlock_cons, firStep_state, firStep_state]
    exact ⟨.cons (firAccumulate_same _ _ _ (.refl _) _ _) (ih _ _ _).1, (ih _ _ _).2⟩

/-- The limits that R6 and R172 put on the build's FFT-mode result. -/
theorem pFftConv_limits (cplx : Bool) (taps xs : List C32) (size j : Nat) (hdata : Convolvable taps cplx xs size)
    (hj : j < xs.length) :
    FftLimits pTol (pFftConv taps cplx xs size j).re (memRead (directResult cplx taps xs) j).re
      (exactSlice (exactRe cplx) taps xs j) ∧
    FftLimits pTol (pFftConv taps cplx xs size j).im (memRead (directResult cplx taps xs) j).im
      (exactSlice (exactIm cplx) taps xs j) :=
  buildFft.property.2 taps xs cplx size j hdata hj

/-- R172 holds in every build. -/
theorem fftAgrees : FftAgrees := by
  refine ⟨buildFft.property.1, ?_⟩
  intro cplx taps xs size j k y hdata hy
  obtain ⟨hl, hsame⟩ := List.forall₂_iff_get.1 (runBlock_firStep_same (firConstruct cplx taps) xs k 0).1
  obtain ⟨hj, hyj⟩ := List.getElem?_eq_some_iff.1 hy
  have hs : SameC y (memRead (directResult cplx taps xs) j) := by
    have := hsame j hj (hl ▸ hj)
    rw [List.get_eq_getElem, hyj] at this
    simpa [memRead, List.getD, directResult, ← hl, hj] using this
  rw [runBlock_length] at hj
  obtain ⟨h1, h2⟩ := pFftConv_limits cplx taps xs size j hdata hj
  constructor <;> intro h
  · have he := hs.1.symm.eq_of_finite h
    rw [← he] at h ⊢; exact h1.1 h
  · have he := hs.2.symm.eq_of_finite h
    rw [← he] at h ⊢; exact h2.1 h

/-! ## The cosine and the sine -/

/-- On a finite argument other than +0, `P_COS` and `P_SIN` are the build's functions, and they keep R6's limit. -/
theorem trig_finite (p : F32) (k : Nat) (h : isFinite p = true) (h0 : p ≠ 0) :
    runDraw (pCos p) k = (buildCos.val p, k) ∧ runDraw (pSin p) k = (buildSin.val p, k) ∧
    NearReal (buildCos.val p) (Real.cos (fRat p)) ∧ NearReal (buildSin.val p) (Real.sin (fRat p)) := by
  refine ⟨?_, ?_, buildCos.property p h, buildSin.property p h⟩ <;>
    simp only [pCos, pSin, h, h0, Bool.not_true, Bool.false_eq_true, if_false, runDraw_pure]

/-- A value is near itself. -/
theorem nearReal_self (v : F32) (h : isFinite v = true) : NearReal v (fRat v) := by
  have hu : (0 : ℚ) ≤ ulpOf v := div_nonneg (pow_nonneg two_pos.le _) (pow_nonneg two_pos.le _)
  have hu' : (0 : ℝ) ≤ (ulpOf v : ℝ) := by exact_mod_cast hu
  exact ⟨h, v, h, Set.left_mem_uIcc, by rw [sub_self, abs_zero]; exact mul_nonneg two_pos.le hu'⟩

/-! ## The loops -/

/-- What an FLL step leaves (R204): both filters push the rotated sample, the phase is a wrapped value and the frequency a
clamped one, and nothing else changes. -/
theorem fllStep_state (l : FllState) (x : C32) (k : Nat) : ∃ r p f k' k'',
    (runDraw (fllStep l x) k).1.1 = r ∧
    (runDraw (fllStep l x) k).1.2 = { l with
      phase := (runDraw (wrap p twoPiF) k').1, freq := clamp (sanitize f) (fNeg l.fmax) l.fmax,
      lo := firPush l.lo r, up := firPush l.up r } ∧
    (runDraw (fllStep l x) k).2 = k'' := ⟨_, _, _, _, _, rfl, rfl, rfl⟩

/-- What a Costas step leaves (R244): a wrapped phase and a finite frequency, and nothing else changes. -/
theorem cosStep_state (l : CosState) (x : C32) (k : Nat) : ∃ p f k',
    (runDraw (cosStep l x) k).1.2 = { l with phase := (runDraw (wrap p piF) k').1, freq := sanitize f } :=
  ⟨_, _, _, rfl⟩

/-! ## The timing recovery -/

/-- What a timing update leaves (R275). -/
theorem trStep_state (t : TrState) (k : Nat) : ∃ x a p k1 k2,
    runDraw (interpolate t) k = (x, k1) ∧ runDraw (trAdvance t x) k1 = (a, k2) ∧ (runDraw (fAdd t.mu a.2) k2).1 = p ∧
    (runDraw (trStep t) k).1 = (x, { t with integ := a.1, prevD := decision x, prevX := x, havePrev := true,
                                            base := t.base + fFloor p, mu := fFraction p }) :=
  ⟨_, _, _, _, _, rfl, rfl, rfl, rfl⟩

/-- An update reads nothing but the queue around `base`, and leaves the queue and the parameters (R275). -/
theorem trStep_fixed (t : TrState) (k : Nat) :
    (runDraw (trStep t) k).1.2.queue = t.queue ∧ (runDraw (trStep t) k).1.2.mode = t.mode ∧
    (runDraw (trStep t) k).1.2.sps = t.sps ∧ (runDraw (trStep t) k).1.2.cmax = t.cmax ∧
    (runDraw (trStep t) k).1.2.kp = t.kp ∧ (runDraw (trStep t) k).1.2.ki = t.ki ∧
    (runDraw (trStep t) k).1.2.cfg = t.cfg := ⟨rfl, rfl, rfl, rfl, rfl, rfl, rfl⟩

theorem trLoop_zero (t : TrState) (k : Nat) : runDraw (trLoop 0 t) k = (([], trReady t, t), k) := rfl

theorem trLoop_not_ready (n : Nat) (t : TrState) (k : Nat) (h : trReady t = false) :
    runDraw (trLoop n t) k = (([], false, t), k) := by
  cases n with
  | zero => rw [trLoop_zero, h]
  | succ n => rw [trLoop, if_neg (by simp [h])]; rfl

theorem trLoop_ready (n : Nat) (t : TrState) (k : Nat) (h : trReady t = true) :
    runDraw (trLoop (n + 1) t) k = runDraw (do
      let r ← trStep t
      let rs ← trLoop n r.2
      pure (r.1 :: rs.1, rs.2.1, rs.2.2)) k := by
  rw [trLoop, if_pos h]

/-- A property that each update keeps holds after the emission loop (R274). -/
theorem trLoop_keeps {P : TrState → Prop} (hstep : ∀ t k, trReady t = true → P t → P (runDraw (trStep t) k).1.2)
    (n : Nat) (t : TrState) (k : Nat) (h : P t) : P (runDraw (trLoop n t) k).1.2.2 := by
  induction n generalizing t k with
  | zero => exact h
  | succ n ih =>
    cases hr : trReady t with
    | false => rw [trLoop_not_ready _ _ _ hr]; exact h
    | true => rw [trLoop_ready _ _ _ hr]; exact ih _ _ (hstep t k hr h)

/-- The loop emits at most `n` symbols, and says that it was stopped only after `n` (R278). -/
theorem trLoop_length (n : Nat) (t : TrState) (k : Nat) :
    (runDraw (trLoop n t) k).1.1.length ≤ n ∧
    ((runDraw (trLoop n t) k).1.2.1 = true → (runDraw (trLoop n t) k).1.1.length = n) := by
  induction n generalizing t k with
  | zero => exact ⟨le_rfl, fun _ => rfl⟩
  | succ n ih =>
    cases hr : trReady t with
    | false => rw [trLoop_not_ready _ _ _ hr]; exact ⟨Nat.zero_le _, fun h => Bool.noConfusion h⟩
    | true =>
      rw [trLoop_ready _ _ _ hr]
      have := ih (runDraw (trStep t) k).1.2 (runDraw (trStep t) k).2
      exact ⟨Nat.succ_le_succ this.1, fun h => congrArg Nat.succ (this.2 h)⟩

@[simp] theorem trDrop_mode (t : TrState) : (trDrop t).mode = t.mode := rfl
@[simp] theorem trDrop_mu (t : TrState) : (trDrop t).mu = t.mu := rfl
@[simp] theorem trDrop_integ (t : TrState) : (trDrop t).integ = t.integ := rfl
@[simp] theorem trDrop_cfg (t : TrState) : (trDrop t).cfg = t.cfg := rfl

/-! ## The framer -/

/-- A payload byte either drops the frame, closes it or joins the ring (R325 to R327). -/
theorem frByte_cases (cap : Nat) (f : FrState) (b : Byte) :
    (f.ring.length = cap ∧ frByte cap f b = ([], frSearch f)) ∨
    (f.ring.length ≠ cap ∧ f.endMarker.length ≤ f.ring.length + 1 ∧ lastN f.endMarker.length (f.ring ++ [b]) = f.endMarker ∧
      frByte cap f b = ([(f.ring ++ [b]).take (f.ring.length + 1 - f.endMarker.length)], frSearch f)) ∨
    (f.ring.length ≠ cap ∧
      ¬ (f.endMarker.length ≤ f.ring.length + 1 ∧ lastN f.endMarker.length (f.ring ++ [b]) = f.endMarker) ∧
      frByte cap f b = ([], { f with ring := f.ring ++ [b] })) := by
  unfold frByte
  split
  · exact .inl ⟨‹_›, rfl⟩
  · split
    · rename_i h; exact .inr (.inl ⟨‹_›, h.1, h.2, rfl⟩)
    · exact .inr (.inr ⟨‹_›, ‹_›, rfl⟩)

/-- A bit in a frame either fills the packer's byte or joins it (R325). -/
theorem frBit_cases (cap : Nat) (f : FrState) (b : Bool) :
    (f.pk.length = 7 ∧ frBit cap f b =
      frByte cap { f with pk := [], bitpos := f.bitpos + 1 } (packBits f.lsbFirst (f.pk ++ [b]))) ∨
    (f.pk.length ≠ 7 ∧ frBit cap f b = ([], { f with pk := f.pk ++ [b], bitpos := f.bitpos + 1 })) := by
  unfold frBit
  split
  · exact .inl ⟨by omega, rfl⟩
  · exact .inr ⟨by omega, rfl⟩

/-- A property that the framer's three moves keep holds after a push (R324). -/
theorem frLoop_keeps {P : FrState → Prop} (cap : Nat)
    (hbit : ∀ f b, P f → f.inFrame = true → P (frBit cap f b).2)
    (hkeep : ∀ f bits, P f → f.inFrame = false → findMarker f.lsbFirst f.startMarker (f.tail ++ bits) = none →
      P (frKeepTail f bits))
    (hlock : ∀ f bits p, P f → f.inFrame = false → findMarker f.lsbFirst f.startMarker (f.tail ++ bits) = some p →
      P (frLock f p))
    (rounds : Nat) (f : FrState) (bits : List Bool) (h : P f) : P (frLoop cap rounds f bits).2 := by
  induction rounds generalizing f bits with
  | zero => exact h
  | succ rounds ih =>
    simp only [frLoop]
    split
    · rename_i hin
      cases bits with
      | nil => exact h
      | cons b rest => exact ih _ _ (hbit f b h hin)
    · rename_i hin
      rw [Bool.not_eq_true] at hin
      cases hm : findMarker f.lsbFirst f.startMarker (f.tail ++ bits) with
      | none => exact hkeep f bits h hin hm
      | some p => exact ih _ _ (hlock f bits p h hin hm)

/-! ## Every command -/

/-- A result that raises one error, or completes with its result words on a state whose stream position and streams are
those of `s`. -/
def Ends (s : State) (r : Result) : Prop :=
  (∃ e, r = raise e s) ∨
  (∃ more ws u, r = complete more ws u ∧ u.cmdpos = s.cmdpos ∧ u.cmdIn = s.cmdIn ∧ u.resp = s.resp)

theorem ends_raise (e : ErrorCode) (s : State) : Ends s (raise e s) := .inl ⟨e, rfl⟩

theorem ends_complete {s u : State} (more : Bool) (ws : List Word) (h1 : u.cmdpos = s.cmdpos) (h2 : u.cmdIn = s.cmdIn)
    (h3 : u.resp = s.resp) : Ends s (complete more ws u) := .inr ⟨more, ws, u, rfl, h1, h2, h3⟩

theorem ends_ite {s : State} (c : Prop) [Decidable c] {a b : Result} (ha : Ends s a) (hb : Ends s b) :
    Ends s (if c then a else b) := by
  split <;> assumption

/-- Every meaning raises one error or completes (R401, R117). -/
theorem exec_ends (i : Instr) (s : State) : Ends s (exec i s) := by
  cases i <;>
    simp only [exec, execNop, execReadReg, execCoreReset, execFirLoadReal, execFirLoadComplex, execFirFilter,
      execFirFilterBlock, execFirConvolve, execFllConfig, execFllProcess, execCostasConfig, costasConfigure,
      execCostasProcess, execTrConfig, execTrProcess, execFrConfig, execFrPushBits, execPipeConfig, execPipeProcess] <;>
    (repeat' first
      | with_reducible apply ends_raise
      | with_reducible apply ends_complete
      | with_reducible apply ends_ite
      | split) <;>
    rfl

/-- Every command answers a next state (R403). -/
theorem exec_next (i : Instr) (s : State) : ∃ t, exec i s = .next t := by
  rcases exec_ends i s with ⟨e, h⟩ | ⟨more, ws, u, h, -⟩
  · exact ⟨_, h.trans (raise_eq e s)⟩
  · exact ⟨_, h.trans (complete_eq more ws u)⟩

end Sys2Proof.Machine
end

