-- ==== Sys2Proof/Laws/PerInstr.lean ====
section
/-!
SUPPORT. The statements about every command as syntax, one lemma per constructor. `EncodeLength`: the encoding of a
well-formed command is its header and the `W` operand words of R112, which the header alone decides (R114).
-/

namespace Sys2Proof.Laws

theorem unpairWords_length (xs : List C32) : (unpairWords xs).length = 2 * xs.length := by
  induction xs with
  | nil => rfl
  | cons x xs ih => simp only [unpairWords, List.length_cons, ih]; omega

theorem headerOpc_header (o : Byte) (n : Count) : headerOpc (header o n) = o := by
  apply BitVec.eq_of_getLsbD_eq
  intro i hi
  simp only [headerOpc, header, BitVec.getLsbD_extractLsb', BitVec.getLsbD_append]
  simp; omega

theorem headerN_header (o : Byte) (n : Count) : headerN (header o n) = n := by
  apply BitVec.eq_of_getLsbD_eq
  intro i hi
  simp only [headerN, header, BitVec.getLsbD_extractLsb', BitVec.getLsbD_append]
  simp [hi]
theorem msLenOf_append (me ms : BitVec 12) : msLenOf (me ++ ms) = ms := by
  apply BitVec.eq_of_getLsbD_eq
  intro i hi
  simp only [msLenOf, BitVec.getLsbD_extractLsb', BitVec.getLsbD_append]
  simp [hi]
theorem meLenOf_append (me ms : BitVec 12) : meLenOf (me ++ ms) = me := by
  apply BitVec.eq_of_getLsbD_eq
  intro i hi
  simp only [meLenOf, BitVec.getLsbD_extractLsb', BitVec.getLsbD_append]
  simp; omega
theorem ofNat_count {k : Nat} (h : k < 2 ^ 24) : (BitVec.ofNat 24 k).toNat = k := by
  rw [BitVec.toNat_ofNat]; exact Nat.mod_eq_of_lt h
/-- R112, R114: the words of a command are a header and the operand words that the header calls for. -/
def EncodeLength.Statement (i : Instr) : Prop :=
  WellFormed i → ∃ h ops f, encode i = h :: ops ∧ formatOf (headerOpc h) = some f ∧ ops.length = operandCount f (headerN h)

theorem EncodeLength.nop (n : Count) : Statement (.nop n) := by
  intro h
  refine ⟨_, _, .f0, rfl, by rw [headerOpc_header]; rfl, ?_⟩
  rfl

theorem EncodeLength.readReg (n : Count) : Statement (.readReg n) := by
  intro h
  refine ⟨_, _, .fr, rfl, by rw [headerOpc_header]; rfl, ?_⟩
  rfl

theorem EncodeLength.coreReset (n : Count) : Statement (.coreReset n) := by
  intro h
  refine ⟨_, _, .f0, rfl, by rw [headerOpc_header]; rfl, ?_⟩
  rfl

theorem EncodeLength.firLoadReal (ts : List Word) : Statement (.firLoadReal ts) := by
  intro h
  refine ⟨_, _, .ft, rfl, by rw [headerOpc_header]; rfl, ?_⟩
  simp only [WellFormed, Instr.wf, decide_eq_true_eq] at h
  rw [headerN_header, operandCount, ofNat_count h]

theorem EncodeLength.firLoadComplex (ws : List Word) : Statement (.firLoadComplex ws) := by
  intro h
  refine ⟨_, _, .ft, rfl, by rw [headerOpc_header]; rfl, ?_⟩
  simp only [WellFormed, Instr.wf, decide_eq_true_eq] at h
  rw [headerN_header, operandCount, ofNat_count h]

theorem EncodeLength.firFilter (n : Count) (i q : Word) : Statement (.firFilter n i q) := by
  intro h
  refine ⟨_, _, .fs, rfl, by rw [headerOpc_header]; rfl, ?_⟩
  rfl

theorem EncodeLength.firFilterBlock (cap : Word) (xs : List C32) : Statement (.firFilterBlock cap xs) := by
  intro h
  refine ⟨_, _, .fb, rfl, by rw [headerOpc_header]; rfl, ?_⟩
  simp only [WellFormed, Instr.wf, decide_eq_true_eq] at h
  rw [headerN_header, operandCount, ofNat_count h]
  simp only [List.length_cons, unpairWords_length]; omega

theorem EncodeLength.firConvolve (cap : Word) (xs : List C32) : Statement (.firConvolve cap xs) := by
  intro h
  refine ⟨_, _, .fb, rfl, by rw [headerOpc_header]; rfl, ?_⟩
  simp only [WellFormed, Instr.wf, decide_eq_true_eq] at h
  rw [headerN_header, operandCount, ofNat_count h]
  simp only [List.length_cons, unpairWords_length]; omega

theorem EncodeLength.fllConfig (a b c d : Word) (ts : List C32) : Statement (.fllConfig a b c d ts) := by
  intro h
  refine ⟨_, _, .ff, rfl, by rw [headerOpc_header]; rfl, ?_⟩
  simp only [WellFormed, Instr.wf, decide_eq_true_eq] at h
  rw [headerN_header, operandCount, ofNat_count h]
  simp only [List.length_cons, unpairWords_length]; omega

theorem EncodeLength.fllProcess (cap : Word) (xs : List C32) : Statement (.fllProcess cap xs) := by
  intro h
  refine ⟨_, _, .fb, rfl, by rw [headerOpc_header]; rfl, ?_⟩
  simp only [WellFormed, Instr.wf, decide_eq_true_eq] at h
  rw [headerN_header, operandCount, ofNat_count h]
  simp only [List.length_cons, unpairWords_length]; omega

theorem EncodeLength.costasConfig (ps : List Word) : Statement (.costasConfig ps) := by
  intro h
  refine ⟨_, _, .fc, rfl, by rw [headerOpc_header]; rfl, ?_⟩
  simp only [WellFormed, Instr.wf, decide_eq_true_eq] at h
  rw [headerN_header, operandCount, ofNat_count h]

theorem EncodeLength.costasProcess (cap : Word) (xs : List C32) : Statement (.costasProcess cap xs) := by
  intro h
  refine ⟨_, _, .fb, rfl, by rw [headerOpc_header]; rfl, ?_⟩
  simp only [WellFormed, Instr.wf, decide_eq_true_eq] at h
  rw [headerN_header, operandCount, ofNat_count h]
  simp only [List.length_cons, unpairWords_length]; omega

theorem EncodeLength.trConfig (n : Count) (a b c d e : Word) : Statement (.trConfig n a b c d e) := by
  intro h
  refine ⟨_, _, .fk5, rfl, by rw [headerOpc_header]; rfl, ?_⟩
  rfl

theorem EncodeLength.trProcess (cap : Word) (xs : List C32) : Statement (.trProcess cap xs) := by
  intro h
  refine ⟨_, _, .fb, rfl, by rw [headerOpc_header]; rfl, ?_⟩
  simp only [WellFormed, Instr.wf, decide_eq_true_eq] at h
  rw [headerN_header, operandCount, ofNat_count h]
  simp only [List.length_cons, unpairWords_length]; omega

theorem EncodeLength.frConfig (k l : BitVec 12) (f : Word) (ms me : List Word) : Statement (.frConfig k l f ms me) := by
  intro h
  refine ⟨_, _, .fm, rfl, by rw [headerOpc_header]; rfl, ?_⟩
  simp only [WellFormed, Instr.wf, Bool.and_eq_true, beq_iff_eq] at h
  rw [headerN_header, operandCount, msLenOf_append, meLenOf_append]
  simp only [List.length_cons, List.length_append]; omega

theorem EncodeLength.frPushBits (n : Count) (ws : List Word) : Statement (.frPushBits n ws) := by
  intro h
  refine ⟨_, _, .fx, rfl, by rw [headerOpc_header]; rfl, ?_⟩
  simp only [WellFormed, Instr.wf, beq_iff_eq] at h
  rw [headerN_header, operandCount, h]

theorem EncodeLength.pipeConfig (n : Count) (f : Word) : Statement (.pipeConfig n f) := by
  intro h
  refine ⟨_, _, .fk1, rfl, by rw [headerOpc_header]; rfl, ?_⟩
  rfl

theorem EncodeLength.pipeProcess (cap : Word) (xs : List C32) : Statement (.pipeProcess cap xs) := by
  intro h
  refine ⟨_, _, .fb, rfl, by rw [headerOpc_header]; rfl, ?_⟩
  simp only [WellFormed, Instr.wf, decide_eq_true_eq] at h
  rw [headerN_header, operandCount, ofNat_count h]
  simp only [List.length_cons, unpairWords_length]; omega

end Sys2Proof.Laws
end

