-- ==== Sys2Proof/Tests/Slice0.lean ====
section
/-!
SUPPORT. Small tests: each check of WellFormed refuses a term, words written out from the spec decode to the commands they
stand for, one or two steps per command with results from 95_test_vectors.md (the vector is named at each test), and for
every obligation with hypotheses a state and operands that meet them.
-/

namespace Sys2Proof.Tests

open Sys2Proof.Machine Sys2Proof.Claims

/-! ## WellFormed refuses -/

/-- A list one longer than `N` can count, over any type. -/
theorem test_wf_long_list (α : Type) (a : α) : ¬ (List.replicate (2 ^ 24) a).length < 2 ^ 24 := by
  rw [List.length_replicate]; omega

theorem test_wf_fir_load_real_too_long : ¬ WellFormed (.firLoadReal (List.replicate (2 ^ 24) 0)) := by
  rw [WellFormed, Instr.wf, decide_eq_true_eq]; exact test_wf_long_list _ _

theorem test_wf_fir_load_complex_too_long : ¬ WellFormed (.firLoadComplex (List.replicate (2 ^ 24) 0)) := by
  rw [WellFormed, Instr.wf, decide_eq_true_eq]; exact test_wf_long_list _ _

theorem test_wf_fll_config_too_long : ¬ WellFormed (.fllConfig 0 0 0 0 (List.replicate (2 ^ 24) C32.zero)) := by
  rw [WellFormed, Instr.wf, decide_eq_true_eq]; exact test_wf_long_list _ _

theorem test_wf_costas_config_too_long : ¬ WellFormed (.costasConfig (List.replicate (2 ^ 24) 0)) := by
  rw [WellFormed, Instr.wf, decide_eq_true_eq]; exact test_wf_long_list _ _

theorem test_wf_blocks_too_long :
    ¬ WellFormed (.firFilterBlock 0 (List.replicate (2 ^ 24) C32.zero)) ∧
    ¬ WellFormed (.firConvolve 0 (List.replicate (2 ^ 24) C32.zero)) ∧
    ¬ WellFormed (.fllProcess 0 (List.replicate (2 ^ 24) C32.zero)) ∧
    ¬ WellFormed (.costasProcess 0 (List.replicate (2 ^ 24) C32.zero)) ∧
    ¬ WellFormed (.trProcess 0 (List.replicate (2 ^ 24) C32.zero)) ∧
    ¬ WellFormed (.pipeProcess 0 (List.replicate (2 ^ 24) C32.zero)) := by
  refine ⟨?_, ?_, ?_, ?_, ?_, ?_⟩ <;> rw [WellFormed, Instr.wf, decide_eq_true_eq] <;> exact test_wf_long_list _ _

/-- Five marker bytes take two words, not one, and one byte takes one, not none. -/
theorem test_wf_markers_of_wrong_length :
    ¬ WellFormed (.frConfig 5 1 0 [0] [0]) ∧ ¬ WellFormed (.frConfig 5 1 0 [0, 0] []) := by decide

/-- 33 bits take two words. -/
theorem test_wf_bits_of_wrong_length : ¬ WellFormed (.frPushBits 33 [0]) := by decide

/-! ## Decoding: words written out from 30_encoding.md R111 to R113 -/

theorem test_decode_control :
    decode [0x00000000] = .command (.nop 0) [] ∧
    decode [0x01900007] = .command (.readReg 0x900007) [] ∧
    decode [0x02000000, 0x00000005] = .command (.coreReset 0) [0x00000005] := by decide

theorem test_decode_fir :
    decode [0x10000002, 0x3F000000, 0x3E800000] = .command (.firLoadReal [0x3F000000, 0x3E800000]) [] ∧
    decode [0x11000002, 0x3F800000, 0x40000000] = .command (.firLoadComplex [0x3F800000, 0x40000000]) [] ∧
    decode [0x12000000, 0x40000000, 0x00000001] = .command (.firFilter 0 0x40000000 0x00000001) [] ∧
    decode [0x13000001, 0x00000003, 0x3F800000, 0x40000000] =
      .command (.firFilterBlock 3 [⟨0x3F800000, 0x40000000⟩]) [] ∧
    decode [0x14000000, 0x00000003] = .command (.firConvolve 3 []) [] := by decide

theorem test_decode_fll :
    decode [0x20000001, 0x40800000, 0x3EB33333, 0x3D800000, 0x00000001, 0x3F800000, 0x40000000] =
      .command (.fllConfig 0x40800000 0x3EB33333 0x3D800000 1 [⟨0x3F800000, 0x40000000⟩]) [] ∧
    decode [0x21000000, 0x00000009] = .command (.fllProcess 9 []) [] := by decide

theorem test_decode_costas :
    decode [0x30000002, 0x447A0000, 0x41200000] = .command (.costasConfig [0x447A0000, 0x41200000]) [] ∧
    decode [0x31000001, 0x00000001, 0x3F800000, 0x40000000] =
      .command (.costasProcess 1 [⟨0x3F800000, 0x40000000⟩]) [] := by decide

theorem test_decode_timing :
    decode [0x40000000, 0x40000000, 0x3F000000, 0x3E000000, 0x3E800000, 0x00000001] =
      .command (.trConfig 0 0x40000000 0x3F000000 0x3E000000 0x3E800000 1) [] ∧
    decode [0x41000001, 0x00000008, 0x3F800000, 0x40000000] = .command (.trProcess 8 [⟨0x3F800000, 0x40000000⟩]) [] := by
  decide

theorem test_decode_framer :
    decode [0x50001005, 0x00000001, 0x44434241, 0x00000045, 0x00000046] =
      .command (.frConfig 5 1 1 [0x44434241, 0x00000045] [0x00000046]) [] ∧
    decode [0x5100002B, 0xB0B21415, 0x00000614] = .command (.frPushBits 43 [0xB0B21415, 0x00000614]) [] := by decide

theorem test_decode_pipe :
    decode [0x60000000, 0x0000E402] = .command (.pipeConfig 0 0xE402) [] ∧
    decode [0x61000001, 0x00000001, 0x3F800000, 0x40000000] = .command (.pipeProcess 1 [⟨0x3F800000, 0x40000000⟩]) [] := by
  decide

/-- R121, R120, R416: too few operand words, an unassigned opcode, no word. -/
theorem test_decode_no_command :
    decode [0x12000000, 0x40000000] = .truncated ∧ decode [0x03000000, 0x00000007] = .illegalOpcode [0x00000007] ∧
    decode [] = .idle := by decide

/-! ## A small configured state -/

/-- Every block configured: V-FIR's taps (0.5, 0.25), V-FLL-2's loop, V-COS-8's gains, V-TR-1's parameters, V-FR-1's
markers. -/
def demo : State :=
  { State.reset with
    fir := firConstruct false [⟨0x3F000000, 0⟩, ⟨0x3E800000, 0⟩]
    fll := fllConstruct 0x40800000 0x3EB33333 0x3F800000 false [⟨0x3F800000, 0⟩, ⟨0, 0x3F800000⟩] 0x3F800000 0x40490FDB
    cos := costasConstruct 0x3F800000 0x3F800000 dampDefault 0x3EB84D34 0x404CBD0F
    tr := trConstruct 0x40000000 0x3F000000 0x3E000000 0x3E800000 .linear
    fr := frConstruct false [0x41, 0x42] [0x43]
    pipe := { fllEn := false, diffEn := true, demap := 0xE4, diffPrev := 1 } }

/-- A state with words at its command port. -/
def sending (ws : List Word) : State := State.reset.hostSend ws

/-- The response stream after a command. -/
def answer : Result → List Word
  | .next t => t.resp
  | _ => []

/-- A field of the state after a command. -/
def after {α : Type} (f : State → α) : Result → Option α
  | .next t => some (f t)
  | _ => none

theorem one_le_firMaxTaps : 1 ≤ Config.firMaxTaps := Nat.le_add_right _ _
theorem one_le_fllMaxTaps : 1 ≤ Config.fllMaxTaps := Nat.le_add_right _ _
theorem four_le_trQcap : 4 ≤ Config.trQcap := Nat.le_add_right _ _
theorem one_le_frRingCap : 1 ≤ Config.frRingCap := Nat.le_add_right _ _
theorem one_le_frMaxMarker : 1 ≤ Config.frMaxMarker := Nat.le_add_right _ _
theorem one_le_fftMax : 1 ≤ Config.fftMax := Nat.one_le_two_pow

/-! ## Steps, from 95_test_vectors.md -/

/-- V-CTL-1 and V-CTL-2. -/
theorem test_nop : answer (exec (.nop 0) State.reset) = [0] ∧ answer (exec (.nop 1) State.reset) = [2] := by decide

/-- V-CTL-3 and V-CTL-5. -/
theorem test_readReg :
    answer (exec (.readReg 0x000000) State.reset) = [0, 0x5150534B] ∧
    answer (exec (.readReg 0x000060) State.reset) = [0, 0xE400] := by decide

/-- V-CTL-7 and V-CTL-8. -/
theorem test_readReg_rejects :
    answer (exec (.readReg 0xE00000) State.reset) = [0xD] ∧ answer (exec (.readReg 0x100000) State.reset) = [0xD] := by
  decide

/-- V-CTL-13. -/
theorem test_coreReset :
    after (fun t => (t.fir, t.fll, t.cos, t.tr, t.fr, t.pipe)) (exec (.coreReset 0) demo) =
      some (FirState.reset, FllState.reset, CosState.reset, TrState.reset, FrState.reset, PipeState.reset) := by decide

/-- V-CTL-12: nothing is reset. -/
theorem test_coreReset_bad_length : after (fun t => (t.fir, t.resp)) (exec (.coreReset 1) demo) = some (demo.fir, [2]) := by
  decide

/-- A one-tap load in every build, V-FIR-5's tap. -/
theorem test_firLoadReal :
    exec (.firLoadReal [0x80000000]) State.reset =
      .next { State.reset with
        fir := { cfg := true, cplx := false, n := 1, taps := [⟨0x80000000, 0⟩], dl := [⟨0, 0⟩], cur := 0 }, resp := [0] } := by
  have h : ¬ Config.firMaxTaps < 1 := not_lt.2 one_le_firMaxTaps
  simp only [exec, execFirLoadReal, List.length_cons, List.length_nil, Nat.zero_add, if_neg h]; rfl

/-- V-FIR-2's tap in every build; V-FIR-6's odd count. -/
theorem test_firLoadComplex :
    after State.fir (exec (.firLoadComplex [0x3F800000, 0x40000000]) State.reset) =
      some { cfg := true, cplx := true, n := 1, taps := [⟨0x3F800000, 0x40000000⟩], dl := [⟨0, 0⟩], cur := 0 } ∧
    answer (exec (.firLoadComplex [0x3F800000, 0, 0x3F800000]) State.reset) = [5] := by
  have h : ¬ Config.firMaxTaps < 1 := not_lt.2 one_le_firMaxTaps
  constructor
  · simp only [exec, execFirLoadComplex, List.length_cons, List.length_nil, Nat.zero_add, Nat.reduceAdd, Nat.reduceDiv, if_neg h]
    decide
  · decide

/-- V-FIR-2: (1+j)·j = -1+j, in a complex filter. -/
theorem test_firFilter_complex :
    answer (exec (.firFilter 0 0 0x3F800000) { State.reset with fir := firConstruct true [⟨0x3F800000, 0x3F800000⟩] }) =
      [0, 0xBF800000, 0x3F800000] := by decide

/-- P1 at position 22: the window (0, 2) with the older sample's tap 0.25. -/
theorem test_firFilter_real :
    after (fun t => (t.resp, t.fir.dl, t.fir.cur))
      (exec (.firFilter 0 0x40000000 0)
        { demo with fir := { demo.fir with dl := [⟨0, 0⟩, ⟨0, 0⟩], cur := 1 } }) =
      some ([0, 0x3F800000, 0], [⟨0, 0⟩, ⟨0x40000000, 0⟩], 0) := by decide

/-- V-FIR-4: the accumulation goes oldest first and rounds each time. -/
theorem test_firFilterBlock_rounding :
    answer (exec (.firFilterBlock 3 (List.replicate 3 ⟨0x3F800000, 0xBF800000⟩))
        { demo with fir := firConstruct false [⟨0x3DCCCCCD, 0⟩, ⟨0x3E4CCCCD, 0⟩, ⟨0x3E99999A, 0⟩] }) =
      [0, 0x3DCCCCCD, 0xBDCCCCCD, 0x3E99999A, 0xBE99999A, 0x3F19999A, 0xBF19999A] := by decide

/-- V-FIR-5. -/
theorem test_firFilterBlock_negative_zero_tap :
    answer (exec (.firFilterBlock 2 [⟨0x3F800000, 0⟩, ⟨0, 0⟩])
        { demo with fir := firConstruct false [⟨0x80000000, 0⟩, ⟨0x40000000, 0⟩] }) = [0, 0, 0, 0x40000000, 0] := by decide

/-- V-FIR-7, and V-FIR-10's order of checks. -/
theorem test_firConvolve :
    answer (exec (.firConvolve 0 []) demo) = [0] ∧
    answer (exec (.firConvolve 4 (List.replicate 5 C32.zero)) demo) = [0xA] := by decide

/-- V-FIR-9 and V-FIR-10: the sizes of 2 + 3 - 1 and of 5 + 3 - 1. -/
theorem test_firConvolve_size : fftSize (2 + 3 - 1) = 4 ∧ fftSize (5 + 3 - 1) = 8 := by decide

/-- V-FIR-9's expected components, as the direct result that P_TOL is measured from. -/
theorem test_firConvolve_direct :
    directResult false [⟨0x3F800000, 0⟩, ⟨0x40000000, 0⟩, ⟨0x40400000, 0⟩] [⟨0x3F800000, 0⟩, ⟨0x3F800000, 0⟩] =
      [⟨0x3F800000, 0⟩, ⟨0x40400000, 0⟩] := by decide

/-- V-FLL-1's gains, in every build. -/
theorem test_fllConfig :
    after (fun t => (t.fll.beta, t.fll.fmax, t.fll.up.taps))
      (exec (.fllConfig 0x40800000 0x3EB33333 0x3D800000 0 [⟨0x3F800000, 0x3F800000⟩]) State.reset) =
      some (0x3D800000, 0x40490FDB, [⟨0x3F800000, 0xBF800000⟩]) := by
  have h : ¬ Config.fllMaxTaps < 1 := not_lt.2 one_le_fllMaxTaps
  simp only [exec, execFllConfig, List.length_cons, List.length_nil, Nat.zero_add, if_neg h]; decide

/-- V-FLL-5: an infinite gain. -/
theorem test_fllConfig_infinite_gain :
    answer (exec (.fllConfig 0x00000001 0x3EB33333 0x3F800000 0 [⟨0x3F800000, 0⟩]) State.reset) = [7] := by
  have h : ¬ Config.fllMaxTaps < 1 := not_lt.2 one_le_fllMaxTaps
  simp only [exec, execFllConfig, List.length_cons, List.length_nil, Nat.zero_add, if_neg h]; decide

/-- V-FLL-2: the second step's error is 4, and the frequency is clamped. -/
theorem test_fllProcess :
    after (fun t => (t.resp, t.fll.phase, t.fll.freq))
      (exec (.fllProcess 2 [⟨0x3F800000, 0⟩, ⟨0, 0x3F800000⟩]) demo) =
      some ([0, 0x3F800000, 0, 0, 0x3F800000], 0x40800000, 0x40490FDB) := by decide

/-- V-FLL-4: with the filters swapped and a gain of 2, the phase wraps and the frequency is clamped below. -/
theorem test_fllProcess_swap :
    after (fun t => (t.fll.phase, t.fll.freq))
      (exec (.fllProcess 2 [⟨0x3F800000, 0⟩, ⟨0, 0x3F800000⟩])
        { demo with fll := fllConstruct 0x40800000 0x3EB33333 0x40000000 true [⟨0x3F800000, 0⟩, ⟨0, 0x3F800000⟩]
                             0x40000000 0x40490FDB }) = some (0xBFDBC094, 0xC0490FDB) := by decide

/-- V-COS-1: the gains under the default damping. -/
theorem test_costasConfig :
    after (fun t => (t.cos.damp, t.cos.alpha, t.cos.beta)) (exec (.costasConfig [0x447A0000, 0x41200000]) State.reset) =
      some (0x3F34FDF4, 0x3E2680BB, 0x3C6CC1B1) := by decide

/-- V-COS-9: one parameter, and a rate of zero. -/
theorem test_costasConfig_errors :
    answer (exec (.costasConfig [0x447A0000]) State.reset) = [2] ∧
    answer (exec (.costasConfig [0, 0x41200000]) State.reset) = [7] := by decide

/-- V-COS-8: the phase wraps and the frequency does not. -/
theorem test_costasProcess :
    after (fun t => (t.resp, t.cos.phase, t.cos.freq)) (exec (.costasProcess 1 [⟨0x3F800000, 0x40400000⟩]) demo) =
      some ([0, 0x3F800000, 0x40400000], 0x3F55B6D8, 0x40CCBD0F) := by decide

/-- V-COS-5: two negative zeros make no error; the rotation by 0 gives (-0, +0). -/
theorem test_costasProcess_negative_zero :
    answer (exec (.costasProcess 1 [⟨0x80000000, 0x80000000⟩]) demo) = [0, 0x80000000, 0] := by decide

/-- V-TR-7: the largest samples per symbol is legal. -/
theorem test_trConfig :
    after (fun t => (t.tr.sps, t.tr.base)) (exec (.trConfig 0 0x49800000 0 0 0 1) State.reset) = some (0x49800000, 1) := by
  decide

/-- V-TR-7: the next value above it is not, nor is a mode of 2. -/
theorem test_trConfig_errors :
    answer (exec (.trConfig 0 0x49800008 0 0 0 0) State.reset) = [7] ∧
    answer (exec (.trConfig 0 0x40000000 0 0 0 2) State.reset) = [7] := by decide

/-- V-TR-1: three symbols of six samples, and the state after them. -/
theorem test_trProcess :
    (fun r : List C32 × Bool × TrState => (r.1, r.2.1, r.2.2.mu, r.2.2.integ, r.2.2.queue.length))
      (runDraw (trProcess 8 [⟨0x3F800000, 0x3F800000⟩, ⟨0x3F000000, 0⟩, ⟨0xBF800000, 0xBF000000⟩, ⟨0, 0x3F000000⟩,
        ⟨0x3F800000, 0x3F800000⟩, ⟨0x3F000000, 0xBF000000⟩] demo.tr) 0).1 =
      ([⟨0x3F800000, 0x3F800000⟩, ⟨0xBF800000, 0xBF000000⟩, ⟨0x3F600000, 0x3F200000⟩], false, 0x3EA00000, 0x3D800000, 0) := by decide

/-- V-TR-6: the Lagrange interpolator at base 1 and at 2.5. -/
theorem test_trProcess_lagrange :
    (fun r : List C32 × Bool × TrState => (r.1, r.2.2.base, r.2.2.queue.length))
      (runDraw (trProcess 8 [⟨0, 0⟩, ⟨0x3F800000, 0xBF800000⟩, ⟨0x40800000, 0xC0000000⟩, ⟨0x41100000, 0xC0400000⟩,
        ⟨0x41800000, 0xC0800000⟩, ⟨0x41C80000, 0xC0A00000⟩] (trConstruct 0x3FC00000 0 0 0 .lagrange)) 0).1 =
      ([⟨0x3F800000, 0xBF800000⟩, ⟨0x40C80000, 0xC0200000⟩], 1, 3) := by decide

/-- V-FR-7: an empty marker. -/
theorem test_frConfig_empty : answer (exec (.frConfig 0 1 0 [] [0x43]) State.reset) = [8] := by decide

/-- One-byte markers in every build; the bytes above them are ignored (R93). -/
theorem test_frConfig :
    after (fun t => (t.fr.startMarker, t.fr.endMarker, t.fr.lsbFirst))
      (exec (.frConfig 1 1 1 [0x00004241] [0x00000043]) State.reset) = some ([0x41], [0x43], true) := by
  have h : ¬ (Config.frMaxMarker < (1 : BitVec 12).toNat ∨ Config.frMaxMarker < (1 : BitVec 12).toNat) := by
    have := one_le_frMaxMarker
    rw [show (1 : BitVec 12).toNat = 1 from rfl]; omega
  simp only [exec, execFrConfig, if_neg h]; decide

/-- V-FR-1, over the framer's function: the frame "hi" behind three bits, with a ring of 3. -/
theorem test_frPushBits :
    (fun r : List (List Byte) × FrState => (r.1, r.2.align, r.2.bitpos, r.2.tail))
      (frPush 3 demo.fr (unpackBits 43 [0xB0B21415, 0x00000614])) = ([[0x68, 0x69]], 3, 3, []) := by decide

/-- V-FR-5: with a ring of 4, the overflowed frame is dropped and the search goes on behind it. -/
theorem test_frPushBits_overflow :
    (fun r : List (List Byte) × FrState => (r.1, r.2.inFrame, r.2.tail.length))
      (frPush 4 demo.fr (unpackBits 72 [0x96164282, 0xB636D656, 0x000000C2])) = ([], false, 16) := by decide

/-- A PIPE_CONFIG with every option. -/
theorem test_pipeConfig :
    after State.pipe (exec (.pipeConfig 0 0xB403) demo) =
      some { fllEn := true, diffEn := true, demap := 0xB4, diffPrev := 0 } := by decide

/-- V-PIPE-4. -/
theorem test_pipeConfig_errors :
    answer (exec (.pipeConfig 0 4) State.reset) = [7] ∧ answer (exec (.pipeConfig 1 0) State.reset) = [2] := by decide

/-- V-PIPE-4: nothing configured. -/
theorem test_pipeProcess_not_configured : answer (exec (.pipeProcess 0 []) State.reset) = [3] := by decide

/-- V-PIPE-3 in part: differential bits of the quadrants 0, 0, 1, 3 after a previous 0. -/
theorem test_pipeProcess_bits :
    (demapBlock { demo.pipe with diffPrev := 0 }
      [⟨0x3F800000, 0x3F800000⟩, ⟨0x3F800000, 0x3F800000⟩, ⟨0xBF800000, 0x3F800000⟩, ⟨0x3F800000, 0xBF800000⟩]).1 =
      [false, false, false, false, false, true, true, false] := by decide

/-- V-CTL-10 and V-CTL-14: an unassigned header leaves alone, and the stream position stands before its command. -/
theorem test_step :
    after (fun t => (t.resp, t.cmdIn, t.cmdpos)) (step (sending [0x03000000, 0x01000002])) = some ([1], [0x01000002], 1) ∧
    after (fun t => t.resp) (step (sending [0x01000002])) = some [0, 0] := by decide

/-- The fetch helper lays a header and zero operands out and the step runs them. -/
theorem test_withFetchWord :
    decodeTableWord 32 0x12000000 = some (.firFilter 0 0 0) ∧
    after (fun t => (t.resp, t.cmdpos)) (step (State.reset.withFetchWord 32 0x12000000)) = some ([3], 3) := by decide

/-! ## The demo state is good -/

theorem firGood_construct (m : Nat) (cplx : Bool) (taps : List C32) (h0 : 1 ≤ taps.length) (h1 : taps.length ≤ m)
    (hr : cplx = false → ∀ h ∈ taps, h.im = 0) : FirGood m (firConstruct cplx taps) where
  unconfigured := fun h => Bool.noConfusion h
  taps_length := rfl
  dl_length := memClear_length _
  within := h1
  cursor := fun _ => h0
  real_taps := hr

theorem demo_fir_good : FirGood Config.firMaxTaps { demo.fir with taps := [⟨0x3F000000, 0⟩], n := 1, dl := [⟨0, 0⟩] } :=
  firGood_construct _ false [⟨0x3F000000, 0⟩] (by decide) one_le_firMaxTaps (by decide)

theorem demo_cos_good : CosGood demo.cos where
  unconfigured := by decide
  parameters := by unfold Positive; decide
  gains := by decide
  phase_range := by unfold InRange; decide
  freq_finite := by decide

theorem demo_tr_good : TrGood demo.tr where
  unconfigured := by decide
  parameters := by decide
  mu_range := by decide
  queue_within := Nat.zero_le _
  base_from := by decide
  normalized := .inr rfl
  integ_finite := by decide
  decided := fun h => absurd h (by decide)

/-- One-tap blocks and one-byte markers, which every build has room for. -/
def small : State :=
  { demo with
    fir := firConstruct false [⟨0x3F000000, 0⟩]
    fll := fllConstruct 0x40800000 0x3EB33333 0x3F800000 false [⟨0x3F800000, 0x3F800000⟩] 0x3F800000 0x40490FDB
    fr := frConstruct false [0x41] [0x43] }

theorem small_fir_good : FirGood Config.firMaxTaps small.fir :=
  firGood_construct _ _ _ (by decide) one_le_firMaxTaps (by decide)

theorem small_fll_good : FllGood small.fll where
  unconfigured := fun h => absurd h (by decide)
  lo_good := firGood_construct _ _ _ (by decide) one_le_fllMaxTaps (by decide)
  up_good := firGood_construct _ _ _ (by decide) one_le_fllMaxTaps (by decide)
  lo_cfg := rfl
  up_cfg := rfl
  kind := ⟨rfl, rfl⟩
  same_cursor := rfl
  same_line := rfl
  mirror := by decide
  parameters := by unfold Positive; decide
  clamp_limit := by decide
  phase_range := by unfold InRange; decide
  freq_range := by unfold InRange; decide

theorem small_fr_good : FrGood small.fr where
  unconfigured := fun h => absurd h (by decide)
  markers := fun _ => ⟨⟨by decide, one_le_frMaxMarker⟩, by decide, one_le_frMaxMarker⟩
  searching := fun _ => ⟨rfl, rfl⟩
  tail_within := by decide
  tail_unmatched := by decide
  framing := fun h => absurd h (by decide)
  no_end_yet := fun h => absurd h (by decide)

theorem small_wf : Memory.wf small = true := by
  have h1 := one_le_firMaxTaps
  have h2 := one_le_fllMaxTaps
  have h3 := one_le_frMaxMarker
  rw [memory_wf_iff]
  exact ⟨⟨rfl, rfl, h1⟩, ⟨rfl, rfl, h2⟩, ⟨rfl, rfl, h2⟩, Nat.zero_le _, ⟨h3, h3⟩, Nat.zero_le _, by decide, by decide⟩

/-- A TR_PROCESS of at most four samples, which every queue has room for. -/
def trAfter (cap : Word) (xs : List C32) (s : State) : State :=
  let r := runDraw (trProcess cap.toNat xs s.tr) s.nanDraws
  ((s.withTr r.1.2.2).withDraws r.2).emit (statusWord 0 r.1.2.1 :: natWord r.1.1.length :: unpairWords r.1.1)

theorem exec_trProcess_small (cap : Word) (xs : List C32) (s : State) (hc : s.tr.cfg = true)
    (h : s.tr.queue.length + xs.length ≤ 4) : exec (.trProcess cap xs) s = .next (trAfter cap xs s) := by
  have hq : ¬ Config.trQcap < s.tr.queue.length + xs.length := not_lt.2 (h.trans four_le_trQcap)
  simp only [exec, execTrProcess, hc, if_neg hq]; rfl

/-- A PIPE_PROCESS of at most four samples whose symbols complete no frame. -/
def pipeAfter (cap : Word) (xs : List C32) (s : State) : State :=
  let r := runDraw (pipeSymbols s.pipe.fllEn cap.toNat xs s.stages) s.nanDraws
  let bits := demapBlock s.pipe r.1.1
  let frames := frPush Config.frRingCap s.fr bits.1
  ((((s.withStages r.1.2.2).withPipe bits.2).withFr frames.2).withDraws r.2).emit
    (statusWord 0 r.1.2.1 :: natWord r.1.1.length :: (unpairWords r.1.1 ++ frameWords frames.1))

theorem exec_pipeProcess_small (cap : Word) (xs : List C32) (s : State) (hc : pipeConfigured s = true)
    (h : s.tr.queue.length + xs.length ≤ 4) : exec (.pipeProcess cap xs) s = .next (pipeAfter cap xs s) := by
  have hq : ¬ Config.trQcap < s.tr.queue.length + xs.length := not_lt.2 (h.trans four_le_trQcap)
  simp only [exec, execPipeProcess, hc, if_neg hq]; rfl

/-! ## Witnesses: the hypotheses of each obligation can be met -/

theorem test_witness_EncodedCommandDecodesToItself :
    WellFormed (.frConfig 5 1 0 [0x44434241, 0x45] [0x46]) ∧ WellFormed (.frPushBits 0xFFFFFF (List.replicate 524288 0)) := by
  refine ⟨by decide, ?_⟩
  rw [WellFormed, Instr.wf, List.length_replicate]; decide

theorem test_witness_DecodedWordsAreTheCommandsEncoding :
    decode [0x12000000, 0x40000000, 0x00000001, 0x00000007] = .command (.firFilter 0 0x40000000 0x00000001) [0x00000007] := by
  decide

theorem test_witness_StepRunsTheDecodedCommand :
    decode (sending [0x02000001, 0x00000000]).cmdIn = .command (.coreReset 1) [0x00000000] ∧
    exec (.coreReset 1) (sending [0x02000001, 0x00000000]) =
      .next { sending [0x02000001, 0x00000000] with resp := [2] } := ⟨by decide, rfl⟩

theorem test_witness_StepConsumesHeaderAndOperands :
    (sending [0x12000000, 0x40000000, 0x00000001]).cmdIn = 0x12000000 :: [0x40000000, 0x00000001] ∧
    formatOf (headerOpc 0x12000000) = some .fs ∧ operandCount .fs (headerN 0x12000000) ≤ [0x40000000#32, 0x00000001].length ∧
    ∃ t, step (sending [0x12000000, 0x40000000, 0x00000001]) = .next t := ⟨rfl, by decide, by decide, _, rfl⟩

/-- Both ends of each of R120's ranges. -/
theorem test_witness_UnassignedOpcodeAnswersIllegalOpcode :
    (∀ opc ∈ [0x03, 0x0F, 0x15, 0x1F, 0x22, 0x2F, 0x32, 0x3F, 0x42, 0x4F, 0x52, 0x5F, 0x62, 0xFF], unassignedOpcode opc) ∧
    (∀ opc ∈ [0x00, 0x02, 0x10, 0x14, 0x20, 0x21, 0x30, 0x31, 0x40, 0x41, 0x50, 0x51, 0x60, 0x61], ¬ unassignedOpcode opc) ∧
    (sending [0xFF123456]).cmdIn = 0xFF123456 :: [] ∧ (0xFF123456#32).toNat / 2 ^ 24 = 0xFF := by
  unfold unassignedOpcode; exact ⟨by decide, by decide, rfl, by decide⟩

theorem test_witness_ShortStreamHoldsAllState :
    State.reset.cmdIn = [] ∧
    ((sending [0x12000000, 0x40000000]).cmdIn = 0x12000000 :: [0x40000000] ∧ formatOf (headerOpc 0x12000000) = some .fs ∧
      [0x40000000#32].length < operandCount .fs (headerN 0x12000000)) := ⟨rfl, rfl, by decide, by decide⟩

theorem test_witness_FailedCommandChangesNothing :
    exec (.nop 1) demo = .next { demo with resp := [2] } ∧ errOf demo { demo with resp := [2] } ≠ 0 ∧
    decode (sending [0x03000000]).cmdIn = .illegalOpcode [] ∧ ∃ t, step (sending [0x03000000]) = .next t :=
  ⟨rfl, by decide, by decide, _, rfl⟩

/-- A timing recovery that its capacity stops answers with `MORE`; so does the pipeline. -/
theorem test_witness_EveryCommandAnswersOneStatusWord :
    (∃ t, exec (.nop 1) demo = .next t ∧ errOf demo t ≠ 0) ∧
    (∃ t, exec (.trProcess 0 [⟨0, 0⟩, ⟨0, 0⟩]) demo = .next t ∧ moreOf demo t = true) ∧
    ∃ t, exec (.pipeProcess 0 [⟨0, 0⟩, ⟨0, 0⟩]) demo = .next t ∧ moreOf demo t = true := by
  exact ⟨⟨_, rfl, by decide⟩, ⟨_, exec_trProcess_small _ _ _ rfl (by decide), by decide⟩,
    ⟨_, exec_pipeProcess_small _ _ _ rfl (by decide), by decide⟩⟩

theorem test_witness_ProcessCommandsCheckBlockSpanAndQueue :
    (State.reset.fir.cfg = false ∧ State.reset.fll.cfg = false ∧ State.reset.cos.cfg = false ∧ State.reset.tr.cfg = false ∧
      State.reset.fr.cfg = false) ∧
    ({ demo with pipe := { demo.pipe with fllEn := true }, fll := FllState.reset }.pipe.fllEn = true) ∧
    ((0 : Word).toNat < [C32.zero].length ∧ demo.fir.cfg = true ∧ demo.fll.cfg = true ∧ demo.cos.cfg = true) ∧
    (∀ q : List C32, q = List.replicate Config.trQcap C32.zero → q.length + [C32.zero].length > Config.trQcap) ∧
    (demo.tr.cfg = true ∧ demo.fr.cfg = true ∧ (demo.pipe.fllEn = true → demo.fll.cfg = true)) := by
  refine ⟨by decide, rfl, by decide, ?_, by decide⟩
  rintro q rfl
  rw [List.length_replicate]; exact Nat.lt_succ_self _

/-- CORE_RESET changes every block of the demo state. -/
theorem test_witness_OnlyABlocksCommandsWriteIt :
    ∃ t, exec (.coreReset 0) demo = .next t ∧ t.fir ≠ demo.fir ∧ t.fll ≠ demo.fll ∧ t.cos ≠ demo.cos ∧ t.tr ≠ demo.tr ∧
      t.fr ≠ demo.fr ∧ t.pipe ≠ demo.pipe := ⟨_, rfl, by decide⟩

theorem test_witness_ConstructionsLastUntilTheNextOrReset :
    ∃ t, exec (.firFilter 0 0x40000000 0) demo = .next t ∧ Instr.firFilter 0 0x40000000 0 ≠ .coreReset 0 ∧
      demo.fir.cfg = true ∧ demo.fll.cfg = true ∧ demo.cos.cfg = true ∧ demo.tr.cfg = true ∧ demo.fr.cfg = true ∧
      (∀ ts, Instr.firFilter 0 0x40000000 0 ≠ .firLoadReal ts) ∧ (∀ ws, Instr.firFilter 0 0x40000000 0 ≠ .firLoadComplex ws) ∧
      ∀ a b c d ts, Instr.firFilter 0 0x40000000 0 ≠ .fllConfig a b c d ts :=
  ⟨_, rfl, by decide, rfl, rfl, rfl, rfl, rfl, by simp, by simp, by simp⟩

/-- CORE_RESET with a non-zero `N`. -/
theorem test_witness_CoreResetRestoresTheResetValues : (1 : Count) ≠ 0 ∧ (0xFFFFFF : Count) ≠ 0 := by decide

theorem test_witness_StepKeepsFirGood :
    FirGood Config.firMaxTaps { small with cmdIn := [0x12000000, 0x40000000, 0] }.fir ∧
    ∃ t, step { small with cmdIn := [0x12000000, 0x40000000, 0] } = .next t ∧ t.fir ≠ small.fir :=
  ⟨small_fir_good, _, rfl, by decide⟩

theorem test_witness_StepKeepsFllGood :
    FllGood { small with cmdIn := [0x21000001, 1, 0x3F800000, 0] }.fll ∧
    ∃ t, step { small with cmdIn := [0x21000001, 1, 0x3F800000, 0] } = .next t ∧ t.fll ≠ small.fll :=
  ⟨small_fll_good, _, rfl, by decide⟩

theorem test_witness_StepKeepsCosGood :
    CosGood { small with cmdIn := [0x31000001, 1, 0x3F800000, 0x40400000] }.cos ∧
    ∃ t, step { small with cmdIn := [0x31000001, 1, 0x3F800000, 0x40400000] } = .next t ∧ t.cos ≠ small.cos :=
  ⟨demo_cos_good, _, rfl, by decide⟩

theorem test_witness_StepKeepsTrGood :
    TrGood { small with cmdIn := [0x02000000] }.tr ∧
    ∃ t, step { small with cmdIn := [0x02000000] } = .next t ∧ t.tr ≠ small.tr := ⟨demo_tr_good, _, rfl, by decide⟩

theorem test_witness_StepKeepsFrGood :
    FrGood { small with cmdIn := [0x51000008, 0x82] }.fr ∧
    ∃ t, step { small with cmdIn := [0x51000008, 0x82] } = .next t ∧ t.fr.inFrame = true := ⟨small_fr_good, _, rfl, by decide⟩

theorem test_witness_StepKeepsMemoriesWithinCapacity :
    Memory.wf { small with cmdIn := [0x12000000, 0x40000000, 0] } = true ∧
    ∃ t, step { small with cmdIn := [0x12000000, 0x40000000, 0] } = .next t := ⟨by rw [memory_wf_iff]; exact (memory_wf_iff small).1 small_wf, _, rfl⟩

theorem test_witness_NopOnlyAnswers :
    (sending [0x00FFFFFF, 0x02000000]).cmdIn = (0xFFFFFF : Count).setWidth 32 :: [0x02000000] := by decide

theorem test_witness_ReadRegAnswersScalarRegisters :
    demo.fr.pk.length ≤ 7 ∧ (0x00024, 0x3F800000) ∈ registerTable demo ∧ (0x00060, 0x0001E402) ∈ registerTable demo := by
  decide

/-- Both ends of R78's ranges, and the registers around them. -/
theorem test_witness_ReadRegAnswersParametersAndRejectsTheRest :
    (0x000F0, Config.firMaxTaps) ∈ parameterTable ∧
    (∀ i ∈ [0x00003, 0x0000F, 0x00013, 0x0001F, 0x0002B, 0x0002F, 0x00038, 0x0003F, 0x0004B, 0x0004F, 0x00055, 0x0005F,
      0x00061, 0x000EF, 0x000F6, 0xFFFFF], unassignedNumber i) ∧
    (∀ i ∈ [0x00002, 0x00010, 0x00012, 0x00020, 0x0002A, 0x00030, 0x00037, 0x00040, 0x0004A, 0x00050, 0x00054, 0x00060,
      0x000F0, 0x000F5], ¬ unassignedNumber i) := by
  unfold unassignedNumber
  exact ⟨List.mem_cons_self .., by decide, by decide⟩

/-- The first and the last window, the first and the last index, and an index inside and one past a memory. -/
theorem test_witness_ReadRegAnswersMemoryWindows :
    Memory.wf small = true ∧ (1 ≤ 1 ∧ 1 < 16 ∧ 1 ≤ 15 ∧ 15 < 16) ∧ (0 < 2 ^ 20 ∧ 2 ^ 20 - 1 < 2 ^ 20) ∧
    (windowContents small 1)[0]? = some 0x3F000000 ∧ (windowContents small 1)[1]? = none ∧
    (windowContents small 15)[0]? = none := ⟨small_wf, by decide, by decide, by decide, by decide, by decide⟩

theorem test_witness_FirLoadRealConstructs :
    ([] : List Word).length = 0 ∧ (List.replicate (Config.firMaxTaps + 1) (0 : Word)).length > Config.firMaxTaps ∧
    (1 ≤ [(0 : Word)].length ∧ [(0 : Word)].length ≤ Config.firMaxTaps) ∧
    (List.replicate Config.firMaxTaps (0 : Word)).length ≤ Config.firMaxTaps := by
  rw [List.length_replicate, List.length_replicate]
  exact ⟨rfl, Nat.lt_succ_self _, ⟨le_rfl, one_le_firMaxTaps⟩, le_rfl⟩

theorem test_witness_FirLoadComplexConstructs :
    ([] : List Word).length = 0 ∧ [(0 : Word)].length % 2 = 1 ∧
    ((List.replicate (2 * (Config.firMaxTaps + 1)) (0 : Word)).length % 2 = 0 ∧
      (List.replicate (2 * (Config.firMaxTaps + 1)) (0 : Word)).length / 2 > Config.firMaxTaps) ∧
    (1 ≤ [(0 : Word), 0].length ∧ [(0 : Word), 0].length % 2 = 0 ∧ [(0 : Word), 0].length / 2 ≤ Config.firMaxTaps) := by
  rw [List.length_replicate]
  exact ⟨rfl, rfl, by omega, by decide, rfl, one_le_firMaxTaps⟩

theorem test_witness_FirFilterAnswersTheWindowSum : (1 : Count) ≠ 0 ∧ demo.fir.cfg = true := by decide

theorem test_witness_FirFilterBlockIsRepeatedFirFilter :
    demo.fir.cfg = true ∧ [C32.zero, C32.zero].length ≤ (2 : Word).toNat ∧ [C32.zero, C32.zero] = [C32.zero] ++ [C32.zero] := by
  decide

/-- Sizes at and next to a power of two, and builds' bound from both sides. -/
theorem test_witness_FirConvolveAnswersTheFftResult :
    demo.fir.cfg = true ∧ [C32.zero].length ≤ (1 : Word).toNat ∧ [C32.zero] ≠ [] ∧ isFftSize 2 2 ∧ isFftSize 3 4 ∧
    2 ^ 0 ≤ Config.fftMax ∧ 2 ^ 32 > Config.fftMax := by
  refine ⟨by decide, by decide, by decide, ⟨⟨1, rfl⟩, le_rfl, fun k h => h⟩, ⟨⟨2, rfl⟩, by decide, fun k h => ?_⟩,
    one_le_fftMax, Nat.pow_lt_pow_right (by decide) (Nat.mod_lt _ (by decide))⟩
  rcases Nat.lt_or_ge k 2 with hk | hk
  · interval_cases k <;> omega
  · exact Nat.pow_le_pow_right (n := 2) (by decide) hk

/-- One tap and one sample, of size 1, in every build, with a finite streaming result in both components; and one whose
streaming result overflows. -/
theorem test_witness_ConvolveAgreesWithStreaming :
    let s := { State.reset with fir := firConstruct false [⟨f2, 0⟩] }
    FirGood Config.firMaxTaps s.fir ∧ s.fir.cfg = true ∧ WellFormed (.firConvolve 1 [⟨f1, piF⟩]) ∧
    [(⟨f1, piF⟩ : C32)].length ≤ (1 : Word).toNat ∧
    isFftSize ([(⟨f1, piF⟩ : C32)].length + s.fir.n - 1) 1 ∧ 1 ≤ Config.fftMax ∧
    (∀ c ∈ s.fir.taps ++ [(⟨f1, piF⟩ : C32)], isFinite c.re = true ∧ isFinite c.im = true) ∧
    directResult false [⟨f2, 0⟩] [⟨f1, piF⟩] = [⟨f2, twoPiF⟩] ∧ isFinite f2 = true ∧ isFinite twoPiF = true ∧
    directResult false [⟨f2, 0⟩] [⟨0x7F7FFFFF, 0⟩] = [⟨0x7F800000, 0⟩] := by
  refine ⟨⟨fun h => Bool.noConfusion h, rfl, rfl, one_le_firMaxTaps, fun _ => Nat.one_pos, fun _ => by decide⟩, rfl, by decide, le_rfl,
    ⟨⟨0, rfl⟩, le_rfl, fun k h => h⟩, one_le_fftMax, by decide, by decide, by decide, by decide, by decide⟩

theorem test_witness_ImpulseAnswersTheTaps :
    1 ≤ [(0x80000000 : Word)].length ∧ [(0x80000000 : Word)].length ≤ Config.firMaxTaps ∧
    (∀ h ∈ [(0x80000000 : Word)], isFinite h = true) ∧ 1 < (2 : Word).toNat ∧
    ∃ s1 s2, exec (.firLoadReal [0x80000000]) State.reset = .next s1 ∧
      exec (.firFilterBlock 2 (⟨f1, 0⟩ :: List.replicate 1 ⟨0, 0⟩)) s1 = .next s2 :=
  ⟨le_rfl, one_le_firMaxTaps, fun h hh => by rw [List.mem_singleton.1 hh]; decide, by decide, _, _, test_firLoadReal, rfl⟩

theorem test_witness_NaNInTheWindowGivesNaN :
    FirGood Config.firMaxTaps small.fir ∧ small.fir.cfg = true ∧
    (∃ c ∈ small.fir.dl.set small.fir.cur ⟨0x7FC00000, 0⟩, isNaN c.re = true) ∧
    ∃ c ∈ small.fir.dl.set small.fir.cur ⟨0, 0xFF800001⟩, isNaN c.im = true :=
  ⟨small_fir_good, rfl, ⟨⟨0x7FC00000, 0⟩, by decide, by decide⟩, ⟨0, 0xFF800001⟩, by decide, by decide⟩

/-- One operand for each error, in R404's order, and operands that pass, with a finite and with an infinite gain. -/
theorem test_witness_FllConfigConstructsOrRejects :
    fllConfigError 0x40800000 0 0x3F800000 0 0 = some 0x07 ∧
    fllConfigError 0x40800000 0 0x3F800000 0 (Config.fllMaxTaps + 1) = some 0x06 ∧
    fllConfigError 0 0 0x3F800000 0 1 = some 0x07 ∧ fllConfigError 0x40800000 0x3FC00000 0x3F800000 0 1 = some 0x07 ∧
    fllConfigError 0x40800000 0 0 0 1 = some 0x07 ∧ fllConfigError 0x40800000 0 0x3F800000 2 1 = some 0x07 ∧
    fllConfigError 0x40800000 0x3F800000 0x3F800000 1 1 = none ∧ fllConfigError 0x00000001 0 0x3F800000 0 1 = none := by
  have h1 : ¬ (1 > Config.fllMaxTaps) := not_lt.2 one_le_fllMaxTaps
  have h2 : Config.fllMaxTaps + 1 > Config.fllMaxTaps := Nat.lt_succ_self _
  have h3 : ¬ (Config.fllMaxTaps + 1 = 0) := Nat.succ_ne_zero _
  simp only [fllConfigError, if_neg h1, if_pos h2, if_neg h3]
  decide

theorem test_witness_FllProcessIsRepeatedSingleSamples :
    demo.fll.cfg = true ∧ 1 ≤ (1 : Word).toNat ∧ [C32.zero, C32.zero].length ≤ (2 : Word).toNat := by decide

theorem test_witness_NaNInputRestartsTheFll :
    FllGood small.fll ∧ small.fll.cfg = true ∧ isNaN (⟨0x7FC00000, 0⟩ : C32).re = true ∧
    isNaN (⟨0, 0xFF800001⟩ : C32).im = true := ⟨small_fll_good, rfl, by decide, by decide⟩

/-- Each number of parameters, a parameter that is not positive, and positive parameters with finite gains, with an infinite
one and with a NaN on the way. -/
theorem test_witness_CostasConfigConstructsOrRejects :
    ([] : List Word).length ≠ 2 ∧ ([] : List Word).length ≠ 3 ∧ ¬ Positive 0 ∧ ¬ Positive 0x7F800000 ∧ Positive 0x00000001 ∧
    (Positive 0x447A0000 ∧ Positive 0x41200000 ∧ Positive 0x3F34FDF4) ∧
    gainsOf 0x447A0000 0x41200000 0x3F34FDF4 = some (0x3E2680BB, 0x3C6CC1B1) ∧
    (Positive f1 ∧ Positive 0x3E22F983 ∧ Positive 0x7E800000 ∧
      (gainsOf f1 0x3E22F983 0x7E800000).map (fun g => isFinite g.1) = some false) ∧
    (Positive 0x7F7FFFFF ∧ gainsOf 0x7F7FFFFF 0x00000001 0x7F7FFFFF = none) := by
  unfold Positive
  exact ⟨by decide, by decide, by decide, by decide, by decide, by decide, by decide, by decide, by decide⟩

theorem test_witness_CostasProcessIsRepeatedSingleSamples :
    demo.cos.cfg = true ∧ 1 ≤ (1 : Word).toNat ∧ [C32.zero, C32.zero].length ≤ (2 : Word).toNat := by decide

theorem test_witness_CostasErrorIsOneRoundedSubtraction :
    (isNaN (⟨0x80000000, 0x7F800000⟩ : C32).re = false ∧ isNaN (⟨0x80000000, 0x7F800000⟩ : C32).im = false) ∧
    isNaN (⟨0x7FC00000, 0⟩ : C32).re = true ∧ isNaN (⟨0, 0xFF800001⟩ : C32).im = true := by decide

theorem test_witness_TrProcessEmitsUpToCap :
    demo.tr.cfg = true ∧ demo.tr.queue.length + (List.replicate 4 C32.zero).length ≤ Config.trQcap :=
  ⟨rfl, four_le_trQcap⟩

theorem test_witness_TrProcessMaySplitItsInput :
    demo.tr.cfg = true ∧ demo.tr.queue.length + ([C32.zero] ++ [C32.zero]).length ≤ Config.trQcap ∧
    ∃ s1 s2 s3, exec (.trProcess 1 [C32.zero]) demo = .next s1 ∧ exec (.trProcess 2 [C32.zero]) s1 = .next s2 ∧
      exec (.trProcess 2 ([C32.zero] ++ [C32.zero])) demo = .next s3 ∧
      moreOf demo s1 = false ∧ moreOf s1 s2 = false ∧ moreOf demo s3 = false := by
  exact ⟨rfl, le_trans (by decide) four_le_trQcap, _, _, _, exec_trProcess_small _ _ _ rfl (by decide),
    exec_trProcess_small _ _ _ (by decide) (by decide), exec_trProcess_small _ _ _ rfl (by decide),
    by decide, by decide, by decide⟩

theorem test_witness_TrAdvanceIsSpsPlusClampedCorrection :
    TrGood demo.tr ∧ demo.tr.cfg = true ∧ demo.tr.havePrev = false ∧
    TrGood { demo.tr with havePrev := true, prevD := ⟨f1, fMinus1⟩ } ∧
    ({ demo.tr with havePrev := true, prevD := ⟨f1, fMinus1⟩ } : TrState).cfg = true :=
  ⟨demo_tr_good, rfl, rfl, { demo_tr_good with
    unconfigured := fun h => Bool.noConfusion h
    decided := fun _ => ⟨.inl rfl, .inr rfl⟩ }, rfl⟩

theorem test_witness_TrDropKeepsTheNeededSamples :
    lookBack demo.tr.mode ≤ demo.tr.base ∧
    lookBack (trConstruct 0x40000000 0 0 0 .lagrange).mode ≤ (trConstruct 0x40000000 0 0 0 .lagrange).base := by decide

/-- The least base and the shortest queue, for each interpolator, and behind it a sample that is not read and not finite. -/
theorem test_witness_InterpolationAtZeroIsTheBaseSample :
    ∀ m ∈ [Interp.linear, Interp.lagrange],
      let t : TrState := { trConstruct 0x40000000 0 0 0 m with
        queue := List.replicate (lookBack m + lookAhead m + 1) ⟨0x7F7FFFFF, f1⟩ ++ [⟨0x7FC00000, 0⟩] }
      lookBack t.mode ≤ t.base ∧ t.base + lookAhead t.mode < t.queue.length - 1 ∧ t.mode = m ∧ t.mu = 0 ∧
      ∀ i < 4, t.base - lookBack t.mode ≤ i → i ≤ t.base + lookAhead t.mode →
        isFinite (t.queue.getD i ⟨0, 0⟩).re = true ∧ isFinite (t.queue.getD i ⟨0, 0⟩).im = true := by decide

theorem test_witness_FrPushBitsAnswersTheFrames :
    demo.fr.cfg = true ∧ WellFormed (.frPushBits 0 []) ∧ WellFormed (.frPushBits 32 [0]) ∧ WellFormed (.frPushBits 33 [0, 0]) := by
  decide

theorem test_witness_PackingFollowsTheBitOrder :
    [true, false, true, true, false, false, false, true].length = 8 ∧ 0 < 8 ∧ 7 < 8 := by decide

/-- A good framer, and a SEARCHING one whose retained bit and one new bit hold no marker. -/
theorem test_witness_PushingBitsMayBeSplit :
    (FrGood small.fr ∧ small.fr.cfg = true) ∧
    let f := { frConstruct false [0x41] [0x43] with tail := [true] }
    f.inFrame = false ∧ ∀ q, ¬ standsAt f.lsbFirst f.startMarker (f.tail ++ [false]) q := by
  refine ⟨⟨small_fr_good, rfl⟩, rfl, fun q h => ?_⟩
  have := h.1
  simp [frConstruct] at this

/-- A framer that retains three bits at position 5, three bits and the marker's first one before the rest of the marker, no
bit before it, an empty payload in every build, one of two bytes without the end marker, for a ring of three, and a body of
zero bytes that overflows any ring. -/
theorem test_witness_FramedPayloadComesBack :
    let f := { frConstruct false [0x41] [0x43] with tail := [true, false, true, false], bitpos := 5 }
    let head := (streamOf false [0x41]).drop 1
    (f.inFrame = false ∧ f.startMarker ≠ [] ∧ f.endMarker ≠ [] ∧
      f.tail ++ head = [true, false, true] ++ streamOf f.lsbFirst f.startMarker ∧
      ∀ q, q < [true, false, true].length → ¬ standsAt f.lsbFirst f.startMarker (f.tail ++ head) q) ∧
    ((frConstruct false [0x41] [0x43]).tail ++ streamOf false [0x41] = [] ++ streamOf false [0x41]) ∧
    ([] : List Byte).length + f.endMarker.length ≤ Config.frRingCap ∧
    (∀ j, f.endMarker.length ≤ j → j < ([] : List Byte).length + f.endMarker.length →
      lastN f.endMarker.length (([] ++ f.endMarker).take j) ≠ f.endMarker) ∧
    (∀ j < 3, 1 ≤ j → lastN 1 (([(0x68 : Byte), 0x69] ++ [0x43]).take j) ≠ [0x43]) ∧
    (List.replicate (Config.frRingCap + 1) (0 : Byte)).length = Config.frRingCap + 1 ∧
    ∀ j, f.endMarker.length ≤ j → j ≤ Config.frRingCap →
      lastN f.endMarker.length ((List.replicate (Config.frRingCap + 1) (0 : Byte)).take j) ≠ f.endMarker := by
  unfold standsAt
  refine ⟨by decide, rfl, one_le_frRingCap, fun j h1 h2 => ?_, by decide, List.length_replicate, fun j h1 h2 h => ?_⟩
  · simp only [frConstruct, List.length_cons, List.length_nil] at h1 h2; omega
  · have hm : (0x43 : Byte) ∈ lastN [(0x43 : Byte)].length ((List.replicate (Config.frRingCap + 1) (0 : Byte)).take j) := by
      change lastN [(0x43 : Byte)].length _ = [(0x43 : Byte)] at h
      rw [h]; exact List.mem_singleton_self _
    have := List.eq_of_mem_replicate (List.mem_of_mem_take (List.mem_of_mem_drop hm))
    exact absurd this (by decide)

theorem test_witness_SymbolBitsFollowTheTable :
    ({ demo.pipe with diffEn := false } : PipeState).diffEn = false ∧ demo.pipe.diffEn = true := ⟨rfl, rfl⟩

theorem test_witness_DifferentialDecodingCancelsRotation :
    demo.pipe.diffEn = true ∧ ∀ m ∈ [(⟨f1, fMinus1⟩ : C32), ⟨0x00000001, 0xFF800000⟩], Signed m.re ∧ Signed m.im := by
  unfold Signed; decide

theorem test_witness_PipeProcessComposesTheStages :
    demo.fir.cfg = true ∧ demo.tr.cfg = true ∧ demo.cos.cfg = true ∧ demo.fr.cfg = true ∧
    (demo.pipe.fllEn = true → demo.fll.cfg = true) ∧ demo.tr.queue.length + (List.replicate 4 C32.zero).length ≤ Config.trQcap :=
  ⟨rfl, rfl, rfl, rfl, fun _ => rfl, four_le_trQcap⟩

/-- A sum, a difference, a product and a quotient with finite results, the last two inexact. -/
theorem test_witness_ArithmeticRoundsToNearestTiesToEven :
    fAddCore f1 f2 = some 0x40400000 ∧ fSubCore f1 f2 = some 0xBF800000 ∧ fMulCore piF piF = some 0x411DE9E7 ∧
    fDivCore f1 0x40400000 = some 0x3EAAAAAB ∧ fMag 0x40400000 ≠ 0 ∧
    isFinite f1 = true ∧ isFinite f2 = true ∧ isFinite piF = true ∧ isFinite 0x40400000 = true ∧ isFinite 0xBF800000 = true ∧
    isFinite 0x411DE9E7 = true ∧ isFinite 0x3EAAAAAB = true := by decide

theorem test_witness_MultiplyingByOneIsExact : isNaN 0x7F800000 = false ∧ isNaN 0x80000000 = false := by decide

/-- The ends of the ranges, infinities, the values next above and below them, and a value more than a step away. -/
theorem test_witness_WrapBringsIntoRange :
    InRange piF piF ∧ InRange twoPiF (fNeg twoPiF) ∧ isFinite 0xFF800000 = false ∧
    (¬ InRange piF 0x40490FDC ∧ fSubCore 0x40490FDC twoPiF = some 0xC0490FDA ∧ InRange piF 0xC0490FDA) ∧
    (¬ InRange twoPiF 0xC0C90FDC ∧ fAddCore 0xC0C90FDC twoPiF = some 0xB5000000 ∧ InRange twoPiF 0xB5000000) ∧
    (¬ InRange piF 0x42C80000 ∧ fSubCore 0x42C80000 twoPiF = some 0x42BB6F02 ∧ ¬ InRange piF 0x42BB6F02) := by
  unfold InRange; decide

theorem test_witness_TrigonometryKeepsItsLimits :
    isFinite 0x7F800000 = false ∧ isFinite 0x7FC00000 = false ∧ isFinite 0 = true ∧ isFinite 0x80000000 = true ∧
    isFinite 0x7F7FFFFF = true := by decide

end Sys2Proof.Tests
end

section
/-!
PROOF. The statements about the arithmetic of 00_scope.md: rounding to nearest with ties to even (R10), multiplication by
plus or minus one (R10), the phase wrap (R15) and the limits on the cosine and the sine (R6).
-/

namespace Sys2Proof.Machine

/-! ## Finite results are roundings of the exact value -/

/-- An integer given by a sign and a magnitude. -/
def signedInt (s : Bool) (n : Nat) : Int := if s then -n else n

theorem fVal_eq_signedInt (v : F32) : fVal v = signedInt (fSign v) (fMag v) := rfl

theorem signedInt_mul (s t : Bool) (m n : Nat) : signedInt s m * signedInt t n = signedInt (s != t) (m * n) := by
  cases s <;> cases t <;> simp [signedInt]

theorem signedInt_mul_nat (s : Bool) (m n : Nat) : signedInt s m * n = signedInt s (m * n) := by
  cases s <;> simp [signedInt]

/-- Two numbers of one sign are as far apart as their magnitudes. -/
theorem abs_signedInt_sub_same (s : Bool) (m n : Nat) : |signedInt s m - signedInt s n| = |(m : ℤ) - n| := by
  cases s
  · rfl
  · rw [signedInt, signedInt, if_pos rfl, if_pos rfl, neg_sub_neg, abs_sub_comm]

/-- Two numbers of unlike signs are as far apart as the sum of their magnitudes. -/
theorem abs_signedInt_sub_other {s t : Bool} (h : s ≠ t) (m n : Nat) : |signedInt s m - signedInt t n| = (m : ℤ) + n := by
  obtain rfl : s = !t := Bool.eq_not.2 h
  cases t
  · rw [signedInt, signedInt, Bool.not_false, if_pos rfl, if_neg Bool.false_ne_true, abs_of_nonpos (by omega)]; ring
  · rw [signedInt, signedInt, Bool.not_true, if_pos rfl, if_neg Bool.false_ne_true, abs_of_nonneg (by omega)]; ring

/-- Two numbers are at least as far apart as their magnitudes. -/
theorem abs_sub_le_abs_signedInt_sub (s t : Bool) (m n : Nat) : |(m : ℤ) - n| ≤ |signedInt s m - signedInt t n| := by
  by_cases h : s = t
  · subst h; exact (abs_signedInt_sub_same s m n).ge
  · rw [abs_signedInt_sub_other h, abs_le]; omega

/-- The last bit of a value is the parity of its low bits. -/
theorem getLsbD_zero_eq_false {r : F32} (h : lowBits r % 2 = 0) : r.getLsbD 0 = false := by
  rw [← BitVec.testBit_toNat, Nat.testBit_zero, decide_eq_false_iff_not]
  unfold lowBits at h; omega

/-- `r` is at most as far from `x / den` as `c` is, and is even where `c` is another value equally near. The distances are
taken `den` times. -/
def RoundsOver (r c : F32) (den x : Int) : Prop :=
  |fVal r * den - x| ≤ |fVal c * den - x| ∧
  (|fVal r * den - x| = |fVal c * den - x| → fVal r ≠ fVal c → r.getLsbD 0 = false)

/-- R10 for every operation at once: a rounded magnitude under the sign of the exact value is nearest to it, ties to even. -/
theorem fPack_roundMag_roundsOver {s : Bool} {num den : Nat} (hd : 0 < den)
    (hfin : isFinite (fPack s (roundMag num den)) = true) (c : F32) :
    RoundsOver (fPack s (roundMag num den)) c den (signedInt s num) := by
  have hle := roundMag_le num den
  have hlow : lowBits (fPack s (roundMag num den)) = roundMag num den := lowBits_fPack _ _ (by omega)
  have hlt : roundMag num den < 0x7F800000 := by rwa [isFinite_iff, hlow] at hfin
  have hr : |fVal (fPack s (roundMag num den)) * den - signedInt s num| = |(magBits (roundMag num den) * den : ℤ) - num| := by
    rw [fVal_eq_signedInt, fSign_fPack _ _ (by omega), fMag_lowBits, hlow, signedInt_mul_nat, abs_signedInt_sub_same]
    push_cast; rfl
  have hc : |(magBits (lowBits c) * den : ℤ) - num| ≤ |fVal c * den - signedInt s num| := by
    rw [fVal_eq_signedInt, fMag_lowBits, signedInt_mul_nat]
    exact_mod_cast abs_sub_le_abs_signedInt_sub (fSign c) s (magBits (lowBits c) * den) num
  obtain ⟨hnear, htie⟩ := roundMag_nearest num den (lowBits c) hd hlt
  refine ⟨hr ▸ hnear.trans hc, fun heq hne => getLsbD_zero_eq_false ?_⟩
  rw [hlow]
  rw [hr] at heq
  by_cases hb : lowBits c = roundMag num den
  · -- `c` has the magnitude of `r` and the other sign; as near to a number of `r`'s sign it can only be a zero
    have hs : fSign c ≠ s := fun h => hne (by rw [← h, ← hb, fPack_fields])
    rw [fVal_eq_signedInt, fMag_lowBits, hb, signedInt_mul_nat, abs_signedInt_sub_other hs] at heq
    have hzero := (roundMag_nearest num den 0 hd hlt).1
    rw [heq, show magBits 0 = 0 from rfl, Nat.cast_zero, zero_mul, zero_sub, abs_neg, Nat.abs_cast] at hzero
    have hm : magBits (roundMag num den) * den = 0 := by omega
    have hm0 : magBits (roundMag num den) = magBits 0 := (Nat.mul_eq_zero.1 hm).resolve_right hd.ne'
    rw [magBits_strictMono.injective hm0]
  · exact htie (le_antisymm hnear (heq ▸ hc)) hb

/-- The sum of finite values is their exact sum, rounded once. -/
theorem fAddCore_finite {a b : F32} (ha : isFinite a = true) (hb : isFinite b = true) :
    ∃ s, fVal a + fVal b = signedInt s (fVal a + fVal b).natAbs ∧
      fAddCore a b = some (fPack s (roundMag (fVal a + fVal b).natAbs 1)) := by
  rw [fAddCore, isNaN_of_isFinite ha, isNaN_of_isFinite hb, isInf_of_isFinite ha, isInf_of_isFinite hb]
  simp only [Bool.or_self, Bool.false_eq_true, if_false]
  by_cases h0 : fVal a + fVal b = 0
  · rw [if_pos h0, h0]
    exact ⟨fSign a && fSign b, by cases fSign a && fSign b <;> rfl, rfl⟩
  · rw [if_neg h0]
    refine ⟨_, ?_, rfl⟩
    simp only [signedInt, decide_eq_true_eq]
    split <;> omega

theorem fAddCore_some {a b : F32} (ha : isFinite a = true) (hb : isFinite b = true) : ∃ r, fAddCore a b = some r := by
  obtain ⟨_, _, h⟩ := fAddCore_finite ha hb
  exact ⟨_, h⟩

/-- The quotient of finite values, the divisor not a zero, is their exact quotient, rounded once. -/
theorem fDivCore_finite {a b : F32} (ha : isFinite a = true) (hb : isFinite b = true) (h0 : fMag b ≠ 0) :
    fDivCore a b = some (fPack (fSign a != fSign b) (roundMag (fMag a * 2 ^ 149) (fMag b))) := by
  rw [fDivCore, isNaN_of_isFinite ha, isNaN_of_isFinite hb, isInf_of_isFinite ha, isInf_of_isFinite hb]
  simp [h0]

theorem fAddCore_roundsOver {a b r : F32} (ha : isFinite a = true) (hb : isFinite b = true) (hr : isFinite r = true)
    (h : fAddCore a b = some r) (c : F32) : RoundsOver r c 1 (fVal a + fVal b) := by
  obtain ⟨s, hs, hadd⟩ := fAddCore_finite ha hb
  obtain rfl := Option.some.inj (hadd.symm.trans h)
  have key := fPack_roundMag_roundsOver Nat.one_pos hr c
  rwa [Nat.cast_one, ← hs] at key

theorem fSubCore_roundsOver {a b r : F32} (ha : isFinite a = true) (hb : isFinite b = true) (hr : isFinite r = true)
    (h : fSubCore a b = some r) (c : F32) : RoundsOver r c 1 (fVal a - fVal b) := by
  rw [sub_eq_add_neg, ← fVal_fNeg]
  exact fAddCore_roundsOver ha ((isFinite_fNeg b).trans hb) hr h c

theorem fMulCore_roundsOver {a b r : F32} (ha : isFinite a = true) (hb : isFinite b = true) (hr : isFinite r = true)
    (h : fMulCore a b = some r) (c : F32) : RoundsOver r c (2 ^ 149) (fVal a * fVal b) := by
  obtain rfl := Option.some.inj ((fMulCore_finite ha hb).symm.trans h)
  rw [fVal_eq_signedInt a, fVal_eq_signedInt b, signedInt_mul]
  have key := fPack_roundMag_roundsOver (Nat.two_pow_pos 149) hr c
  rwa [Nat.cast_pow, Nat.cast_ofNat] at key

/-- The sign of the divisor is the quotient's: dividing by the magnitude changes no distance. -/
theorem abs_mul_fVal_sub (y x : Int) (b : F32) :
    |y * fVal b - x| = |y * fMag b - signedInt (fSign b) 1 * x| := by
  rw [fVal_eq_signedInt]
  cases fSign b
  · simp [signedInt]
  · rw [← abs_neg]; congr 1; simp only [signedInt, if_true]; push_cast; ring

theorem fDivCore_roundsOver {a b r : F32} (ha : isFinite a = true) (hb : isFinite b = true) (hr : isFinite r = true)
    (h : fDivCore a b = some r) (h0 : fMag b ≠ 0) (c : F32) : RoundsOver r c (fVal b) (fVal a * 2 ^ 149) := by
  obtain rfl := Option.some.inj ((fDivCore_finite ha hb h0).symm.trans h)
  have key := fPack_roundMag_roundsOver (Nat.pos_of_ne_zero h0) hr c
  have hx : signedInt (fSign a != fSign b) (fMag a * 2 ^ 149) = signedInt (fSign b) 1 * (fVal a * 2 ^ 149) := by
    rw [fVal_eq_signedInt]
    cases fSign a <;> cases fSign b <;> simp [signedInt]
  simp only [RoundsOver, abs_mul_fVal_sub _ _ b]
  rwa [hx] at key

/-! ## A factor of magnitude 1.0 -/

/-- A product with a factor of magnitude 1.0 (2^149 units) keeps the low bits of the other one. -/
theorem fMulCore_unit {u v : F32} (hu : isFinite u = true) (hm : fMag u = 2 ^ 149) (hv : isNaN v = false) :
    fMulCore u v = some (fPack (fSign u != fSign v) (lowBits v)) := by
  by_cases hf : isFinite v = true
  · rw [fMulCore_finite hu hf, hm, mul_comm, roundMag_fMag hf _ (by positivity)]
  · have hi : isInf v = true := by simpa [isFinite_eq, hv] using hf
    have hlow := (isInf_iff v).1 hi
    have hmv : fMag v ≠ 0 := by rw [ne_eq, fMag_eq_zero, hlow]; decide
    rw [fMulCore, isNaN_of_isFinite hu, isInf_of_isFinite hu, hv, hi, hlow]
    simp [hm, hmv, fInf]

/-! ## The wrap -/

/-- Out of a range is above its upper end or below its lower one. -/
theorem inRange_iff_not_fLt {b v : F32} (hb : isNaN b = false) (hv : isNaN v = false) :
    InRange b v ↔ (fLt b v || fLt v (fNeg b)) = false := by
  simp only [InRange, fLe, fLt, isNaN_fNeg, hb, hv, Bool.not_false, Bool.true_and, decide_eq_true_eq, Bool.or_eq_false_iff,
    decide_eq_false_iff_not, not_lt]
  exact and_comm

theorem isFinite_of_inRange {b v : F32} (hb : isFinite b = true) (h : InRange b v) : isFinite v = true :=
  isFinite_of_abs_le hb (((inRange_abs b v).1 h).2.2.trans (le_abs_self _))

/-- A value whose sanitized form is in range wraps to that form. -/
theorem wrap_of_inRange {v b : F32} (hb : isNaN b = false) (h : InRange b (sanitize v)) (k : Nat) :
    runDraw (wrap v b) k = (sanitize v, k) := by
  have hout := (inRange_iff_not_fLt hb (isNaN_of_isFinite (isFinite_sanitize v))).1 h
  obtain ⟨h1, h2⟩ := Bool.or_eq_false_iff.1 hout
  simp [wrap, h1, h2]

/-- The step of 2*pi towards the range has a value, which is kept in range and replaced by +0.0 out of it. -/
theorem wrap_of_not_inRange {v b : F32} (hb : isNaN b = false) (hv : isFinite v = true) (h : ¬ InRange b v) :
    ∃ moved, (if fLt b v then fSubCore v twoPiF else fAddCore v twoPiF) = some moved ∧
      ∀ k, (InRange b moved → runDraw (wrap v b) k = (moved, k)) ∧ (¬ InRange b moved → runDraw (wrap v b) k = (0, k)) := by
  rw [inRange_iff_not_fLt hb (isNaN_of_isFinite hv), Bool.not_eq_false, Bool.or_eq_true] at h
  by_cases habove : fLt b v = true
  · obtain ⟨moved, hmoved⟩ := fAddCore_some hv (show isFinite (fNeg twoPiF) = true by decide)
    refine ⟨moved, by rwa [if_pos habove], fun k => ?_⟩
    rw [inRange_iff_not_fLt hb (fAddCore_not_nan hmoved)]
    constructor <;> intro hin <;>
      simp only [wrap, sanitize_eq hv, habove, if_true, fSub, fSubCore, hmoved, runDraw_bind, runDraw_orNaN_some,
        runDraw_pure, hin, Bool.false_eq_true, if_false]
  · have hbelow := h.resolve_left habove
    obtain ⟨moved, hmoved⟩ := fAddCore_some hv (show isFinite twoPiF = true by decide)
    refine ⟨moved, by rwa [if_neg habove], fun k => ?_⟩
    rw [inRange_iff_not_fLt hb (fAddCore_not_nan hmoved)]
    constructor <;> intro hin <;>
      simp only [wrap, sanitize_eq hv, habove, hbelow, if_true, fAdd, hmoved, runDraw_bind, runDraw_orNaN_some,
        runDraw_pure, hin, Bool.false_eq_true, if_false]

/-- Zero lies in a range whose bound is not negative. -/
theorem inRange_zero {b : F32} (hb : isNaN b = false) (h0 : 0 ≤ fVal b) : InRange b 0 :=
  (inRange_abs b 0).2 ⟨hb, by decide, by rwa [fVal_zero, abs_zero]⟩

/-! ## The cosine and the sine -/

theorem trig_zero (k : Nat) : runDraw (pCos 0) k = (f1, k) ∧ runDraw (pSin 0) k = (0, k) := ⟨rfl, rfl⟩

/-- On an infinity or a NaN, `P_COS` and `P_SIN` draw a NaN. -/
theorem trig_not_finite {p : F32} (h : isFinite p = false) (k : Nat) :
    isNaN (runDraw (pCos p) k).1 = true ∧ isNaN (runDraw (pSin p) k).1 = true := by
  simp only [pCos, pSin, h, Bool.not_false, if_true]
  exact ⟨nanOf_isNaN _, nanOf_isNaN _⟩

/-- The values at +0 are the cosine and the sine of zero. -/
theorem nearReal_trig_zero : NearReal f1 (Real.cos (fRat 0)) ∧ NearReal 0 (Real.sin (fRat 0)) := by
  have h0 : fRat 0 = 0 := by rw [fRat, fVal_zero, Int.cast_zero, zero_div]
  have h1 : fRat f1 = 1 := by
    rw [fRat, show fVal f1 = 2 ^ 149 by decide, Int.cast_pow, Int.cast_ofNat]; exact div_self (by positivity)
  have hcos := nearReal_self f1 (by decide)
  have hsin := nearReal_self 0 (by decide)
  rw [h1, Rat.cast_one] at hcos
  rw [h0, Rat.cast_zero] at hsin ⊢
  rw [Real.cos_zero, Real.sin_zero]
  exact ⟨hcos, hsin⟩

end Sys2Proof.Machine

namespace Sys2Proof.Claims

open Sys2Proof.Machine

/-- Settles O56: each operation packs a rounded magnitude under the exact value's sign (`fPack_roundMag_roundsOver`). -/
theorem arithmeticRoundsToNearestTiesToEven : Obligations.ArithmeticRoundsToNearestTiesToEven := by
  intro a b r c ha hb hr _
  refine ⟨fun h => ?_, fun h => ?_, fun h => fMulCore_roundsOver ha hb hr h c,
    fun h h0 => fDivCore_roundsOver ha hb hr h h0 c⟩
  · simpa only [RoundsOver, mul_one] using fAddCore_roundsOver ha hb hr h c
  · simpa only [RoundsOver, mul_one] using fSubCore_roundsOver ha hb hr h c

/-- Settles O57: a factor of magnitude 1.0 keeps the other factor's low bits, and the signs multiply. -/
theorem multiplyingByOneIsExact : Obligations.MultiplyingByOneIsExact := by
  intro v hv
  constructor
  · rw [fMulCore_unit (by decide) (by decide) hv, show fSign f1 = false by decide, Bool.false_bne, fPack_fields]
  · rw [fMulCore_unit (by decide) (by decide) hv, show fSign fMinus1 = true by decide, Bool.true_bne]
    rfl

/-- Settles O58: a value in range stays, a non-finite one restarts, and the step outside the range has a value. -/
theorem wrapBringsIntoRange : Obligations.WrapBringsIntoRange := by
  intro v b k hb
  have hfin : isFinite b = true := by rcases hb with rfl | rfl <;> decide
  have hpos : 0 ≤ fVal b := by rcases hb with rfl | rfl <;> decide
  have hnan := isNaN_of_isFinite hfin
  have hzero := inRange_zero hnan hpos
  by_cases hv : isFinite v = true
  · by_cases hin : InRange b v
    · have hrun := wrap_of_inRange hnan ((sanitize_eq hv).symm ▸ hin) k
      rw [hrun, sanitize_eq hv]
      exact ⟨hin, rfl, fun _ => rfl, fun h => absurd hv (by simp [h]), fun _ h => absurd hin h⟩
    · obtain ⟨moved, hmoved, hrun⟩ := wrap_of_not_inRange hnan hv hin
      obtain ⟨hkeep, hrestart⟩ := hrun k
      have hend : InRange b (runDraw (wrap v b) k).1 ∧ (runDraw (wrap v b) k).2 = k := by
        by_cases hm : InRange b moved
        · rw [hkeep hm]; exact ⟨hm, rfl⟩
        · rw [hrestart hm]; exact ⟨hzero, rfl⟩
      exact ⟨hend.1, hend.2, fun h => absurd h hin, fun h => absurd hv (by simp [h]), fun _ _ =>
        ⟨moved, hmoved, fun h => congrArg Prod.fst (hkeep h), fun h => congrArg Prod.fst (hrestart h)⟩⟩
  · have hs : sanitize v = 0 := if_neg hv
    have hrun := wrap_of_inRange hnan (hs.symm ▸ hzero) k
    rw [hrun, hs]
    exact ⟨hzero, rfl, fun h => absurd (isFinite_of_inRange hfin h) hv, fun _ => rfl, fun h => absurd h hv⟩

/-- Settles O59: at +0 by `nearReal_trig_zero`, elsewhere by the limits that the build's functions carry (`trig_finite`). -/
theorem trigonometryKeepsItsLimits : Obligations.TrigonometryKeepsItsLimits := by
  intro p k
  obtain ⟨hcos0, hsin0⟩ := trig_zero k
  refine ⟨?_, fun h => trig_not_finite h k, fun h => ?_⟩
  · rw [expj, runDraw_bind, runDraw_bind, hcos0, hsin0, runDraw_pure]
  · by_cases h0 : p = 0
    · subst h0
      rw [hcos0, hsin0]
      exact nearReal_trig_zero
    · obtain ⟨hcos, hsin, hlegalCos, hlegalSin⟩ := trig_finite p k h h0
      rw [hcos, hsin]
      exact ⟨hlegalCos, hlegalSin⟩

end Sys2Proof.Claims
end

section
/-!
PROOF. The decoder on a header with all its operand words (30_encoding.md R112 to R115): it reads a well-formed command and
leaves the words after it. Then what a step does with that command.
-/

namespace Sys2Proof.Machine

/-- Complex samples take two words each (R92). -/
theorem pairWords_length (ws : List Word) : (pairWords ws).length = ws.length / 2 := by
  induction ws using pairWords.induct with
  | case1 a b ws ih => simp only [pairWords, List.length_cons, ih]; omega
  | case2 ws h =>
    match ws with
    | [] => rfl
    | [_] => simp [pairWords]
    | a :: b :: ws => exact absurd rfl (h a b ws)

/-- `2N` words are `N` samples, which a header's `N` counts. -/
theorem pairWords_fit {ws : List Word} {n : Count} (h : ws.length = 2 * n.toNat) :
    decide ((pairWords ws).length < 2 ^ 24) = true := by
  have hn := n.isLt
  rw [decide_eq_true_eq, pairWords_length]; omega

/-- The first of one or more operand words. -/
theorem operands_cons {ops : List Word} (k : Nat) (h : ops.length = 1 + k) :
    ∃ w ws, ops = w :: ws ∧ ws.length = k := by
  obtain ⟨w, ws, rfl⟩ := List.exists_of_length_succ ops (h.trans (add_comm 1 k))
  exact ⟨w, ws, rfl, by rw [List.length_cons] at h; omega⟩

/-- An assigned opcode with the operand words its header calls for is a well-formed command (R112, R113, R114). -/
theorem assemble_wellFormed {opc : Byte} {n : Count} {ops : List Word} {f : Format} (hf : formatOf opc = some f)
    (hlen : ops.length = operandCount f n) : ∃ i, assemble opc n ops = some i ∧ WellFormed i := by
  have hcount : ops.length = n.toNat → decide (ops.length < 2 ^ 24) = true := fun h =>
    decide_eq_true (h ▸ n.isLt)
  unfold formatOf at hf
  split at hf <;> cases hf <;> rename_i hopc <;> simp only [assemble, hopc]
  -- F0 and FR, without operand words
  case h_1 | h_2 | h_3 => exact ⟨_, rfl, rfl⟩
  -- FT and FC, `N` words
  case h_4 | h_5 | h_11 => exact ⟨_, rfl, hcount hlen⟩
  -- FS
  case h_6 =>
    obtain ⟨i, q, rfl⟩ := List.length_eq_two.1 hlen
    exact ⟨_, rfl, rfl⟩
  -- FB, a capacity and `N` samples
  case h_7 | h_8 | h_10 | h_12 | h_14 | h_18 =>
    obtain ⟨cap, ws, rfl, hws⟩ := operands_cons _ hlen
    exact ⟨_, rfl, pairWords_fit hws⟩
  -- FF, four words and `N` samples
  case h_9 =>
    obtain ⟨sps, _, rfl, h1⟩ := operands_cons (3 + 2 * n.toNat) (hlen.trans (by rw [operandCount]; omega))
    obtain ⟨rolloff, _, rfl, h2⟩ := operands_cons (2 + 2 * n.toNat) (h1.trans (by omega))
    obtain ⟨bw, _, rfl, h3⟩ := operands_cons (1 + 2 * n.toNat) (h2.trans (by omega))
    obtain ⟨flags, ws, rfl, hws⟩ := operands_cons _ h3
    exact ⟨_, rfl, pairWords_fit hws⟩
  -- FK5
  case h_13 =>
    obtain ⟨sps, _, rfl, h1⟩ := operands_cons 4 hlen
    obtain ⟨kp, _, rfl, h2⟩ := operands_cons 3 h1
    obtain ⟨ki, cmax, mode, rfl⟩ := List.length_eq_three.1 h2
    exact ⟨_, rfl, rfl⟩
  -- FM, the flags and two packed markers
  case h_15 =>
    rw [operandCount, add_assoc] at hlen
    obtain ⟨flags, ws, rfl, hws⟩ := operands_cons _ hlen
    refine ⟨_, rfl, ?_⟩
    simp [WellFormed, Instr.wf, hws]
  -- FX, packed bits
  case h_16 => exact ⟨_, rfl, beq_iff_eq.2 hlen⟩
  -- FK1
  case h_17 =>
    obtain ⟨flags, rfl⟩ := List.length_eq_one_iff.1 hlen
    exact ⟨_, rfl, rfl⟩

/-- A header with all its operand words decodes to a well-formed command, and the words after them are left (R115). -/
theorem decode_header {h : Word} {ws : List Word} {f : Format} (hf : formatOf (headerOpc h) = some f)
    (hlen : operandCount f (headerN h) ≤ ws.length) :
    ∃ i, decode (h :: ws) = .command i (ws.drop (operandCount f (headerN h))) ∧ WellFormed i := by
  obtain ⟨i, hi, hwf⟩ := assemble_wellFormed hf (List.length_take_of_le hlen)
  exact ⟨i, by simp only [decode, hf, Nat.not_lt.2 hlen, if_false, hi], hwf⟩

/-- Whatever the decoder accepts is a well-formed command (R114). -/
theorem decode_wellFormed {ws rest : List Word} {i : Instr} (hd : decode ws = .command i rest) : WellFormed i := by
  match ws with
  | [] => cases hd
  | h :: ws =>
    cases hf : formatOf (headerOpc h) with
    | none => simp [decode, hf] at hd
    | some f =>
      by_cases hlen : operandCount f (headerN h) ≤ ws.length
      · obtain ⟨j, hj, hwf⟩ := decode_header hf hlen
        cases hj.symm.trans hd
        exact hwf
      · simp [decode, hf, Nat.lt_of_not_le hlen] at hd

/-- A step at a whole command (R115). -/
theorem step_command {s u : State} {i : Instr} {rest : List Word} (hd : decode s.cmdIn = .command i rest)
    (hu : exec i s = .next u) : step s = .next (u.consume rest (s.cmdIn.length - rest.length)) := by
  simp only [step, hd, hu, afterCommand]

/-- A command leaves the stream position and the command stream alone, and appends a status word and its result words
(R117, R401). -/
theorem exec_streams {i : Instr} {s t : State} (h : exec i s = .next t) :
    t.cmdpos = s.cmdpos ∧ t.cmdIn = s.cmdIn ∧ ∃ st out, t.resp = s.resp ++ st :: out := by
  obtain ⟨e, he⟩ | ⟨more, ws, u, hu, hpos, hin, hresp⟩ := exec_ends i s
  · obtain rfl := (raise_next_iff _ _ _).1 (he.symm.trans h)
    exact ⟨rfl, rfl, _, [], rfl⟩
  · obtain rfl := (complete_next_iff _ _ _ _).1 (hu.symm.trans h)
    exact ⟨hpos, hin, _, ws, by rw [State.emit_resp, hresp]⟩

end Sys2Proof.Machine

namespace Sys2Proof.Claims

open Sys2Proof.Machine

/-- Settles O4: the command's execution, and then its words leave the stream (`step_command`). -/
theorem stepRunsTheDecodedCommand : Obligations.StepRunsTheDecodedCommand := by
  intro s t i rest hd ht
  rw [step_command hd ht]
  rfl

/-- Settles O5: the header decodes to a command (`decode_header`), and every command answers (`exec_next`). -/
theorem stepConsumesHeaderAndOperands : Obligations.StepConsumesHeaderAndOperands := by
  intro s t h ws f hin hf hlen ht
  obtain ⟨i, hd, -⟩ := decode_header hf hlen
  rw [← hin] at hd
  obtain ⟨u, hu⟩ := exec_next i s
  obtain ⟨hpos, -, hresp⟩ := exec_streams hu
  rw [step_command hd hu] at ht
  cases ht
  have hcount : s.cmdIn.length - (ws.drop (operandCount f (headerN h))).length = 1 + operandCount f (headerN h) := by
    rw [hin, List.length_cons, List.length_drop]; omega
  exact ⟨rfl, by rw [State.consume_cmdpos, hcount, hpos], hresp⟩

end Sys2Proof.Claims
end

section
/-!
PROOF. What a command can write into each block, said once per block, and that no command writes anything else
(10_state.md R30, R34). Every invariant of a block is then a case split over the block's own writes.
-/

namespace Sys2Proof.Machine

/-- `b` is what a block of samples leaves of `a` under a stage's per-sample step. -/
def Ran {σ : Type} (f : σ → C32 → Draw (C32 × σ)) (a b : σ) : Prop := ∃ xs k, b = (runDraw (runBlock f a xs) k).1.2

/-- A property that each sample keeps holds after a block. -/
theorem Ran.keeps {σ : Type} {f : σ → C32 → Draw (C32 × σ)} {P : σ → Prop} {a b : σ} (h : Ran f a b)
    (hstep : ∀ s x k, P s → P (runDraw (f s x) k).1.2) (ha : P a) : P b := by
  obtain ⟨xs, k, rfl⟩ := h
  exact runBlock_keeps f hstep a xs k ha

theorem Ran.single {σ : Type} (f : σ → C32 → Draw (C32 × σ)) (a : σ) (x : C32) (k : Nat) :
    Ran f a (runDraw (f a x) k).1.2 := ⟨[x], k, rfl⟩

/-- What a command makes of the matched filter. -/
inductive FirWrite : Instr → FirState → FirState → Prop
  | same {i f} : FirWrite i f f
  | reset {f} : FirWrite (.coreReset 0) f FirState.reset
  | loadReal {taps f} (hmax : taps.length ≤ Config.firMaxTaps) (hpos : 0 < taps.length) :
      FirWrite (.firLoadReal taps) f (firConstruct false (realTaps taps))
  | loadComplex {ws f} (hmax : ws.length / 2 ≤ Config.firMaxTaps) (hpos : 0 < ws.length / 2) :
      FirWrite (.firLoadComplex ws) f (firConstruct true (pairWords ws))
  | filter {n re im f g} (hcfg : f.cfg = true) (hran : Ran firStep f g) : FirWrite (.firFilter n re im) f g
  | filterBlock {cap xs f g} (hcfg : f.cfg = true) (hran : Ran firStep f g) : FirWrite (.firFilterBlock cap xs) f g
  | pipe {cap xs f g} (hcfg : f.cfg = true) (hran : Ran firStep f g) : FirWrite (.pipeProcess cap xs) f g

/-- What a command makes of the FLL. -/
inductive FllWrite : Instr → FllState → FllState → Prop
  | same {i l} : FllWrite i l l
  | reset {l} : FllWrite (.coreReset 0) l FllState.reset
  | config {sps rolloff bw flags taps swap beta fmax k l} (hpos : 0 < taps.length)
      (hmax : taps.length ≤ Config.fllMaxTaps) (hsps : Positive sps) (hroll : fLe 0 rolloff = true ∧ fLe rolloff f1 = true)
      (hbw : Positive bw) (hbeta : isFinite beta = true) (hfmax : fmax = (runDraw (fllFmax sps) k).1)
      (hfin : isFinite fmax = true) :
      FllWrite (.fllConfig sps rolloff bw flags taps) l (fllConstruct sps rolloff bw swap taps beta fmax)
  | process {cap xs l m} (hcfg : l.cfg = true) (hran : Ran fllStep l m) : FllWrite (.fllProcess cap xs) l m
  | pipe {cap xs l m} (hcfg : l.cfg = true) (hran : Ran fllStep l m) : FllWrite (.pipeProcess cap xs) l m

/-- In the pipeline the FLL runs only where it is enabled, and then it is configured (R373). -/
theorem FllWrite.of_stage {cap : Word} {xs : List C32} {en : Bool} {l m : FllState} (hcfg : en = true → l.cfg = true)
    (h : m = l ∨ en = true ∧ Ran fllStep l m) : FllWrite (.pipeProcess cap xs) l m := by
  obtain rfl | ⟨hen, hran⟩ := h
  · exact .same
  · exact .pipe (hcfg hen) hran

/-- What a command makes of the Costas loop. -/
inductive CosWrite : Instr → CosState → CosState → Prop
  | same {i l} : CosWrite i l l
  | reset {l} : CosWrite (.coreReset 0) l CosState.reset
  | config {ps fs bwhz damp alpha beta l} (hfs : Positive fs) (hbwhz : Positive bwhz) (hdamp : Positive damp)
      (halpha : isFinite alpha = true) (hbeta : isFinite beta = true) :
      CosWrite (.costasConfig ps) l (costasConstruct fs bwhz damp alpha beta)
  | process {cap xs l m} (hcfg : l.cfg = true) (hran : Ran cosStep l m) : CosWrite (.costasProcess cap xs) l m
  | pipe {cap xs l m} (hcfg : l.cfg = true) (hran : Ran cosStep l m) : CosWrite (.pipeProcess cap xs) l m

/-- `u` is what TR_PROCESS of some samples, which the queue has room for, leaves of `t`. -/
def TrRan (t u : TrState) : Prop :=
  ∃ cap zs k, t.queue.length + zs.length ≤ Config.trQcap ∧ u = (runDraw (trProcess cap zs t) k).1.2.2

/-- What a command makes of the timing recovery. -/
inductive TrWrite : Instr → TrState → TrState → Prop
  | same {i t} : TrWrite i t t
  | reset {t} : TrWrite (.coreReset 0) t TrState.reset
  | config {n sps kp ki cmax mode m t} (hsps : isFinite sps = true ∧ fLe f1 sps = true ∧ fLe sps fSpsMax = true)
      (hgains : isFinite kp = true ∧ isFinite ki = true)
      (hcmax : isFinite cmax = true ∧ fLe 0 cmax = true ∧ fLt cmax sps = true) :
      TrWrite (.trConfig n sps kp ki cmax mode) t (trConstruct sps kp ki cmax m)
  | process {cap xs t u} (hcfg : t.cfg = true) (hran : TrRan t u) : TrWrite (.trProcess cap xs) t u
  | pipe {cap xs t u} (hcfg : t.cfg = true) (hran : TrRan t u) : TrWrite (.pipeProcess cap xs) t u

/-- What a command makes of the framer. -/
inductive FrWrite : Instr → FrState → FrState → Prop
  | same {i f} : FrWrite i f f
  | reset {f} : FrWrite (.coreReset 0) f FrState.reset
  | config {msLen meLen : BitVec 12} {flags ms me lsb f} (hms : 0 < msLen.toNat) (hme : 0 < meLen.toNat)
      (hmsmax : msLen.toNat ≤ Config.frMaxMarker) (hmemax : meLen.toNat ≤ Config.frMaxMarker) :
      FrWrite (.frConfig msLen meLen flags ms me) f
        (frConstruct lsb (unpackBytes msLen.toNat ms) (unpackBytes meLen.toNat me))
  | push {n ws f} (bits) (hcfg : f.cfg = true) : FrWrite (.frPushBits n ws) f (frPush Config.frRingCap f bits).2
  | pipe {cap xs f} (bits) (hcfg : f.cfg = true) : FrWrite (.pipeProcess cap xs) f (frPush Config.frRingCap f bits).2

/-- What a command makes of the orchestrator's options. -/
inductive PipeWrite : Instr → PipeState → PipeState → Prop
  | same {i p} : PipeWrite i p p
  | reset {p} : PipeWrite (.coreReset 0) p PipeState.reset
  | config {n flags p q} : PipeWrite (.pipeConfig n flags) p q
  | pipe {cap xs p q} : PipeWrite (.pipeProcess cap xs) p q

/-- What command `i` makes of the blocks of `s`, block by block. -/
structure Writes (i : Instr) (s t : State) : Prop where
  fir : FirWrite i s.fir t.fir
  fll : FllWrite i s.fll t.fll
  cos : CosWrite i s.cos t.cos
  tr : TrWrite i s.tr t.tr
  fr : FrWrite i s.fr t.fr
  pipe : PipeWrite i s.pipe t.pipe

theorem Writes.nothing (i : Instr) (s : State) : Writes i s s := ⟨.same, .same, .same, .same, .same, .same⟩

/-- Every next state that a result answers is a state that the command may write. -/
def WritesOnly (i : Instr) (s : State) (r : Result) : Prop := ∀ t, r = .next t → Writes i s t

theorem writes_raise (i : Instr) (e : ErrorCode) (s : State) : WritesOnly i s (raise e s) := by
  intro t ht
  obtain rfl := (raise_next_iff _ _ _).1 ht
  exact ⟨.same, .same, .same, .same, .same, .same⟩

theorem writes_complete {i : Instr} {s u : State} (more : Bool) (ws : List Word) (h : Writes i s u) :
    WritesOnly i s (complete more ws u) := by
  intro t ht
  obtain rfl := (complete_next_iff _ _ _ _).1 ht
  exact ⟨h.fir, h.fll, h.cos, h.tr, h.fr, h.pipe⟩

/-- A check raises its error, and past it the rest of the command has the check's fact (R404). -/
theorem writes_check {i : Instr} {s : State} {c : Prop} [Decidable c] {e : ErrorCode} {r : Result}
    (h : ¬ c → WritesOnly i s r) : WritesOnly i s (if c then raise e s else r) := by
  split
  · exact writes_raise i e s
  · exact h ‹_›

/-- The FLL stage answers one sample per sample, and runs the loop only where it is enabled (R373). -/
theorem fllStage_run (fllEn : Bool) (l : FllState) (ys : List C32) (k : Nat) :
    (runDraw (fllStage fllEn l ys) k).1.1.length = ys.length ∧
    ((runDraw (fllStage fllEn l ys) k).1.2 = l ∨ fllEn = true ∧ Ran fllStep l (runDraw (fllStage fllEn l ys) k).1.2) := by
  cases fllEn
  · exact ⟨rfl, .inl rfl⟩
  · exact ⟨runBlock_length _ _ _ _, .inr ⟨rfl, ys, k, rfl⟩⟩

/-- `st'` is what a pipeline block leaves of the stages before the framer: each ran over what the stage before it gave. -/
structure StagesRan (fllEn : Bool) (st st' : Stages) : Prop where
  fir : Ran firStep st.fir st'.fir
  fll : st'.fll = st.fll ∨ fllEn = true ∧ Ran fllStep st.fll st'.fll
  tr : TrRan st.tr st'.tr
  cos : Ran cosStep st.cos st'.cos

theorem pipeSymbols_ran (fllEn : Bool) (cap : Nat) {xs : List C32} {st : Stages} (k : Nat)
    (hroom : st.tr.queue.length + xs.length ≤ Config.trQcap) :
    StagesRan fllEn st (runDraw (pipeSymbols fllEn cap xs st) k).1.2.2 := by
  obtain ⟨hlen, hfll⟩ := fllStage_run fllEn st.fll (runDraw (runBlock firStep st.fir xs) k).1.1
    (runDraw (runBlock firStep st.fir xs) k).2
  rw [runBlock_length] at hlen
  exact ⟨⟨xs, k, rfl⟩, hfll, ⟨cap, _, _, hlen.symm ▸ hroom, rfl⟩, ⟨_, _, rfl⟩⟩

theorem execFirLoadComplex_writes (ws : List Word) (s : State) :
    WritesOnly (.firLoadComplex ws) s (execFirLoadComplex ws s) :=
  writes_check fun hpos => writes_check fun heven => writes_check fun hmax =>
    writes_complete _ _ ⟨.loadComplex (by omega) (by omega), .same, .same, .same, .same, .same⟩

theorem execFirConvolve_writes (cap : Word) (xs : List C32) (s : State) :
    WritesOnly (.firConvolve cap xs) s (execFirConvolve cap xs s) := by
  refine writes_check fun _ => writes_check fun _ => ?_
  split
  · exact writes_complete _ _ (Writes.nothing _ _)
  · exact writes_check fun _ => writes_complete _ _ ⟨.same, .same, .same, .same, .same, .same⟩

theorem execFllConfig_writes (sps rolloff bw flags : Word) (taps : List C32) (s : State) :
    WritesOnly (.fllConfig sps rolloff bw flags taps) s (execFllConfig sps rolloff bw flags taps s) := by
  refine writes_check fun hpos => writes_check fun hmax => writes_check fun hsps => writes_check fun hroll =>
    writes_check fun hbw => writes_check fun _ => writes_check fun hfin => ?_
  rw [Bool.not_eq_false, Bool.and_eq_true] at hsps hroll hbw hfin
  exact writes_complete _ _
    ⟨.same, .config (by omega) (by omega) hsps hroll hbw hfin.1 rfl hfin.2, .same, .same, .same, .same⟩

theorem costasConfigure_writes (ps : List Word) (fs bwhz damp : F32) (s : State) :
    WritesOnly (.costasConfig ps) s (costasConfigure fs bwhz damp s) := by
  refine writes_check fun hfs => writes_check fun hbwhz => writes_check fun hdamp => writes_check fun hfin => ?_
  rw [Bool.not_eq_false, Bool.and_eq_true] at hfs hbwhz hdamp hfin
  exact writes_complete _ _ ⟨.same, .same, .config hfs hbwhz hdamp hfin.1 hfin.2, .same, .same, .same⟩

theorem execCostasConfig_writes (ps : List Word) (s : State) :
    WritesOnly (.costasConfig ps) s (execCostasConfig ps s) := by
  unfold execCostasConfig
  split
  · exact costasConfigure_writes _ _ _ _ s
  · exact costasConfigure_writes _ _ _ _ s
  · exact writes_raise _ _ s

theorem execTrConfig_writes (n : Count) (sps kp ki cmax mode : Word) (s : State) :
    WritesOnly (.trConfig n sps kp ki cmax mode) s (execTrConfig n sps kp ki cmax mode s) := by
  refine writes_check fun _ => writes_check fun hsps => writes_check fun hgains => writes_check fun hcmax => ?_
  simp only [Bool.not_eq_false, Bool.and_eq_true, and_assoc] at hsps hgains hcmax
  split
  · exact writes_raise _ _ s
  · exact writes_complete _ _ ⟨.same, .same, .same, .config hsps hgains hcmax, .same, .same⟩

theorem execFrConfig_writes (msLen meLen : BitVec 12) (flags : Word) (ms me : List Word) (s : State) :
    WritesOnly (.frConfig msLen meLen flags ms me) s (execFrConfig msLen meLen flags ms me s) := by
  refine writes_check fun hpos => writes_check fun hmax => writes_check fun _ => ?_
  have hpos : 0 < msLen.toNat ∧ 0 < meLen.toNat := by bv_omega
  exact writes_complete _ _
    ⟨.same, .same, .same, .same, .config hpos.1 hpos.2 (by omega) (by omega), .same⟩

/-- The stages that PIPE_PROCESS asks for are configured, the FLL where it is enabled (R373). -/
theorem pipeConfigured_iff (s : State) : pipeConfigured s = true ↔
    s.fir.cfg = true ∧ s.tr.cfg = true ∧ s.cos.cfg = true ∧ s.fr.cfg = true ∧ (s.pipe.fllEn = true → s.fll.cfg = true) := by
  simp only [pipeConfigured, Bool.and_eq_true, Bool.or_eq_true, Bool.not_eq_true', and_assoc, ← Bool.not_eq_true,
    imp_iff_not_or]

theorem execPipeProcess_writes (cap : Word) (xs : List C32) (s : State) :
    WritesOnly (.pipeProcess cap xs) s (execPipeProcess cap xs s) := by
  refine writes_check fun hcfg => writes_check fun hroom => ?_
  obtain ⟨hfir, htr, hcos, hfr, hfll⟩ := (pipeConfigured_iff s).1 (Bool.eq_true_of_not_eq_false hcfg)
  have hran := pipeSymbols_ran s.pipe.fllEn cap.toNat (st := s.stages) s.nanDraws (Nat.not_lt.1 hroom)
  exact writes_complete _ _
    ⟨.pipe hfir hran.fir, .of_stage hfll hran.fll, .pipe hcos hran.cos, .pipe htr hran.tr, .pipe _ hfr, .pipe⟩

/-- What every command writes (R30, R34). -/
theorem exec_writes (i : Instr) (s : State) : WritesOnly i s (exec i s) := by
  have hcfg : ∀ {b : Bool}, ¬ b = false → b = true := fun h => Bool.eq_true_of_not_eq_false h
  cases i with
  | nop n => exact writes_check fun _ => writes_complete _ _ (Writes.nothing _ s)
  | readReg sel =>
    simp only [exec, execReadReg]
    split
    · exact writes_raise _ _ s
    · exact writes_complete _ _ (Writes.nothing _ s)
  | coreReset n =>
    refine writes_check fun hn => ?_
    obtain rfl := not_not.1 hn
    exact writes_complete _ _ ⟨.reset, .reset, .reset, .reset, .reset, .reset⟩
  | firLoadReal taps =>
    exact writes_check fun hpos => writes_check fun hmax =>
      writes_complete _ _ ⟨.loadReal (by omega) (by omega), .same, .same, .same, .same, .same⟩
  | firLoadComplex ws => exact execFirLoadComplex_writes ws s
  | firFilter n re im =>
    exact writes_check fun _ => writes_check fun h =>
      writes_complete _ _ ⟨.filter (hcfg h) (.single firStep s.fir ⟨re, im⟩ s.nanDraws), .same, .same, .same, .same, .same⟩
  | firFilterBlock cap xs =>
    exact writes_check fun h => writes_check fun _ =>
      writes_complete _ _ ⟨.filterBlock (hcfg h) ⟨_, _, rfl⟩, .same, .same, .same, .same, .same⟩
  | firConvolve cap xs => exact execFirConvolve_writes cap xs s
  | fllConfig sps rolloff bw flags taps => exact execFllConfig_writes sps rolloff bw flags taps s
  | fllProcess cap xs =>
    exact writes_check fun h => writes_check fun _ =>
      writes_complete _ _ ⟨.same, .process (hcfg h) ⟨_, _, rfl⟩, .same, .same, .same, .same⟩
  | costasConfig ps => exact execCostasConfig_writes ps s
  | costasProcess cap xs =>
    exact writes_check fun h => writes_check fun _ =>
      writes_complete _ _ ⟨.same, .same, .process (hcfg h) ⟨_, _, rfl⟩, .same, .same, .same⟩
  | trConfig n sps kp ki cmax mode => exact execTrConfig_writes n sps kp ki cmax mode s
  | trProcess cap xs =>
    exact writes_check fun h => writes_check fun hroom =>
      writes_complete _ _ ⟨.same, .same, .same, .process (hcfg h) ⟨_, _, _, by omega, rfl⟩, .same, .same⟩
  | frConfig msLen meLen flags ms me => exact execFrConfig_writes msLen meLen flags ms me s
  | frPushBits n ws =>
    exact writes_check fun h => writes_complete _ _ ⟨.same, .same, .same, .same, .push _ (hcfg h), .same⟩
  | pipeConfig n flags =>
    exact writes_check fun _ => writes_check fun _ =>
      writes_complete _ _ ⟨.same, .same, .same, .same, .same, .config⟩
  | pipeProcess cap xs => exact execPipeProcess_writes cap xs s

/-- A step writes what some well-formed command writes; a step that runs none writes no block, as a NOP does. -/
theorem step_writes {s t : State} (h : step s = .next t) : ∃ i, WellFormed i ∧ Writes i s t := by
  obtain ⟨i, rest, u, hd, hu, rfl⟩ | ⟨rest, -, rfl⟩ | rfl := step_cases h
  · have hw := exec_writes i s u hu
    exact ⟨i, decode_wellFormed hd, hw.fir, hw.fll, hw.cos, hw.tr, hw.fr, hw.pipe⟩
  · exact ⟨.nop 0, rfl, .same, .same, .same, .same, .same, .same⟩
  · exact ⟨.nop 0, rfl, Writes.nothing _ _⟩

end Sys2Proof.Machine
end

section
/-!
PROOF. Which commands write a block, and what they leave of its construction: the blocks' writes read as frames (10_state.md
R30, R34, R43; 41_fir.md R164). Then the reset values (R79, R152, R440).
-/

namespace Sys2Proof.Machine

/-! ## Who writes a block -/

theorem FirWrite.writer {i : Instr} {f g : FirState} (h : FirWrite i f g) (hne : g ≠ f) :
    (∃ n, i = .coreReset n) ∨ (∃ ts, i = .firLoadReal ts) ∨ (∃ ws, i = .firLoadComplex ws) ∨
      (∃ n a b, i = .firFilter n a b) ∨ (∃ cap xs, i = .firFilterBlock cap xs) ∨ (∃ cap xs, i = .pipeProcess cap xs) := by
  cases h with
  | same => exact absurd rfl hne
  | _ => simp

theorem FllWrite.writer {i : Instr} {l m : FllState} (h : FllWrite i l m) (hne : m ≠ l) :
    (∃ n, i = .coreReset n) ∨ (∃ a b c d ts, i = .fllConfig a b c d ts) ∨
      (∃ cap xs, i = .fllProcess cap xs) ∨ (∃ cap xs, i = .pipeProcess cap xs) := by
  cases h with
  | same => exact absurd rfl hne
  | _ => simp

theorem CosWrite.writer {i : Instr} {l m : CosState} (h : CosWrite i l m) (hne : m ≠ l) :
    (∃ n, i = .coreReset n) ∨ (∃ ps, i = .costasConfig ps) ∨
      (∃ cap xs, i = .costasProcess cap xs) ∨ (∃ cap xs, i = .pipeProcess cap xs) := by
  cases h with
  | same => exact absurd rfl hne
  | _ => simp

theorem TrWrite.writer {i : Instr} {t u : TrState} (h : TrWrite i t u) (hne : u ≠ t) :
    (∃ n, i = .coreReset n) ∨ (∃ n a b c d e, i = .trConfig n a b c d e) ∨
      (∃ cap xs, i = .trProcess cap xs) ∨ (∃ cap xs, i = .pipeProcess cap xs) := by
  cases h with
  | same => exact absurd rfl hne
  | _ => simp

theorem FrWrite.writer {i : Instr} {f g : FrState} (h : FrWrite i f g) (hne : g ≠ f) :
    (∃ n, i = .coreReset n) ∨ (∃ a b c d e, i = .frConfig a b c d e) ∨
      (∃ n ws, i = .frPushBits n ws) ∨ (∃ cap xs, i = .pipeProcess cap xs) := by
  cases h with
  | same => exact absurd rfl hne
  | _ => simp

theorem PipeWrite.writer {i : Instr} {p q : PipeState} (h : PipeWrite i p q) (hne : q ≠ p) :
    (∃ n, i = .coreReset n) ∨ (∃ n a, i = .pipeConfig n a) ∨ (∃ cap xs, i = .pipeProcess cap xs) := by
  cases h with
  | same => exact absurd rfl hne
  | _ => simp

/-! ## What a construction fixes -/

/-- Two filters with the same taps, tap count and kind. -/
def SameTaps (f g : FirState) : Prop := g.taps = f.taps ∧ g.n = f.n ∧ g.cplx = f.cplx

theorem SameTaps.rfl {f : FirState} : SameTaps f f := ⟨Eq.refl _, Eq.refl _, Eq.refl _⟩

/-- A block of filter steps leaves what the construction fixed (R164). -/
theorem ran_firStep_fixed {f g : FirState} (h : Ran firStep f g) : SameTaps f g ∧ g.cfg = f.cfg := by
  obtain ⟨xs, k, rfl⟩ := h
  obtain ⟨htaps, hn, hcplx, hcfg, -⟩ := runBlock_firStep_fixed f xs k
  exact ⟨⟨htaps, hn, hcplx⟩, hcfg⟩

/-- A block of FLL steps leaves both filters as constructed (R204). -/
theorem ran_fllStep_fixed {l m : FllState} (h : Ran fllStep l m) :
    SameTaps l.lo m.lo ∧ SameTaps l.up m.up ∧ m.cfg = l.cfg := by
  refine h.keeps (P := fun m => SameTaps l.lo m.lo ∧ SameTaps l.up m.up ∧ m.cfg = l.cfg) ?_ ⟨.rfl, .rfl, rfl⟩
  intro m x k hm
  obtain ⟨r, p, f, k', k'', -, hstate, -⟩ := fllStep_state m x k
  rw [hstate]
  exact hm

theorem ran_cosStep_cfg {l m : CosState} (h : Ran cosStep l m) : m.cfg = l.cfg := by
  refine h.keeps (P := fun m => m.cfg = l.cfg) ?_ rfl
  intro m x k hm
  obtain ⟨p, f, k', hstate⟩ := cosStep_state m x k
  rw [hstate]
  exact hm

theorem trRan_cfg {t u : TrState} (h : TrRan t u) : u.cfg = t.cfg := by
  obtain ⟨cap, zs, k, -, rfl⟩ := h
  exact trLoop_keeps (P := fun u => u.cfg = t.cfg) (fun u k _ hu => (trStep_fixed u k).2.2.2.2.2.2.trans hu) cap
    { t with queue := t.queue ++ zs } k rfl

/-- A payload byte leaves the construction (R325 to R327). -/
theorem frByte_cfg (cap : Nat) (f : FrState) (b : Byte) : (frByte cap f b).2.cfg = f.cfg := by
  obtain ⟨-, h⟩ | ⟨-, -, -, h⟩ | ⟨-, -, h⟩ := frByte_cases cap f b <;> rw [h] <;> rfl

theorem frBit_cfg (cap : Nat) (f : FrState) (b : Bool) : (frBit cap f b).2.cfg = f.cfg := by
  obtain ⟨-, h⟩ | ⟨-, h⟩ := frBit_cases cap f b
  · rw [h, frByte_cfg]
  · rw [h]

theorem frPush_cfg (cap : Nat) (f : FrState) (bits : List Bool) : (frPush cap f bits).2.cfg = f.cfg :=
  frLoop_keeps (P := fun g => g.cfg = f.cfg) cap (fun g b hg _ => (frBit_cfg cap g b).trans hg) (fun _ _ hg _ _ => hg)
    (fun _ _ _ hg _ _ => hg) _ f bits rfl

section
variable {i : Instr} (hi : i ≠ .coreReset 0)
include hi

theorem FirWrite.keeps_cfg {f g : FirState} (h : FirWrite i f g) (hcfg : f.cfg = true) : g.cfg = true := by
  cases h with
  | same => exact hcfg
  | reset => exact absurd rfl hi
  | loadReal | loadComplex => rfl
  | filter _ hran | filterBlock _ hran | pipe _ hran => exact (ran_firStep_fixed hran).2.trans hcfg

theorem FllWrite.keeps_cfg {l m : FllState} (h : FllWrite i l m) (hcfg : l.cfg = true) : m.cfg = true := by
  cases h with
  | same => exact hcfg
  | reset => exact absurd rfl hi
  | config => rfl
  | process _ hran | pipe _ hran => exact (ran_fllStep_fixed hran).2.2.trans hcfg

theorem CosWrite.keeps_cfg {l m : CosState} (h : CosWrite i l m) (hcfg : l.cfg = true) : m.cfg = true := by
  cases h with
  | same => exact hcfg
  | reset => exact absurd rfl hi
  | config => rfl
  | process _ hran | pipe _ hran => exact (ran_cosStep_cfg hran).trans hcfg

theorem TrWrite.keeps_cfg {t u : TrState} (h : TrWrite i t u) (hcfg : t.cfg = true) : u.cfg = true := by
  cases h with
  | same => exact hcfg
  | reset => exact absurd rfl hi
  | config => rfl
  | process _ hran | pipe _ hran => exact (trRan_cfg hran).trans hcfg

theorem FrWrite.keeps_cfg {f g : FrState} (h : FrWrite i f g) (hcfg : f.cfg = true) : g.cfg = true := by
  cases h with
  | same => exact hcfg
  | reset => exact absurd rfl hi
  | config => rfl
  | push | pipe => exact (frPush_cfg _ _ _).trans hcfg

/-- Only a load or CORE_RESET changes the matched filter's taps (R164). -/
theorem FirWrite.keeps_taps {f g : FirState} (h : FirWrite i f g) (hreal : ∀ ts, i ≠ .firLoadReal ts)
    (hcplx : ∀ ws, i ≠ .firLoadComplex ws) : SameTaps f g := by
  cases h with
  | same => exact .rfl
  | reset => exact absurd rfl hi
  | loadReal => exact absurd rfl (hreal _)
  | loadComplex => exact absurd rfl (hcplx _)
  | filter _ hran | filterBlock _ hran | pipe _ hran => exact (ran_firStep_fixed hran).1

/-- Only FLL_CONFIG or CORE_RESET changes the taps of the band-edge filters (R164). -/
theorem FllWrite.keeps_taps {l m : FllState} (h : FllWrite i l m) (hconf : ∀ a b c d ts, i ≠ .fllConfig a b c d ts) :
    SameTaps l.lo m.lo ∧ SameTaps l.up m.up := by
  cases h with
  | same => exact ⟨.rfl, .rfl⟩
  | reset => exact absurd rfl hi
  | config => exact absurd rfl (hconf _ _ _ _ _)
  | process _ hran | pipe _ hran => exact ⟨(ran_fllStep_fixed hran).1, (ran_fllStep_fixed hran).2.1⟩

end

end Sys2Proof.Machine

namespace Sys2Proof.Claims

open Sys2Proof.Machine

/-- Settles O12: each block's writes name their commands, and no command writes the streams' position (`exec_streams`). -/
theorem onlyABlocksCommandsWriteIt : Obligations.OnlyABlocksCommandsWriteIt := by
  intro i s t ht
  have hw := exec_writes i s t ht
  obtain ⟨hpos, hin, -⟩ := exec_streams ht
  exact ⟨hw.fir.writer, hw.fll.writer, hw.cos.writer, hw.tr.writer, hw.fr.writer, hw.pipe.writer, hpos, hin⟩

/-- Settles O13: of a block's writes only its construction and CORE_RESET touch what a construction fixed. -/
theorem constructionsLastUntilTheNextOrReset : Obligations.ConstructionsLastUntilTheNextOrReset := by
  intro i s t ht hi
  have hw := exec_writes i s t ht
  exact ⟨⟨hw.fir.keeps_cfg hi, hw.fll.keeps_cfg hi, hw.cos.keeps_cfg hi, hw.tr.keeps_cfg hi, hw.fr.keeps_cfg hi⟩,
    hw.fir.keeps_taps hi, hw.fll.keeps_taps hi⟩

/-- Settles O14: the reset columns written out are the model's reset values, by definition. -/
theorem coreResetRestoresTheResetValues : Obligations.CoreResetRestoresTheResetValues := by
  refine ⟨fun s => rfl, fun s n hn => ?_, rfl, rfl⟩
  rw [exec, execCoreReset, if_pos hn, raise_eq, statusWord_error]
  rfl

end Sys2Proof.Claims
end

section
/-!
PROOF. The invariants of the filters and the two phase loops (10_state.md R33, R36, R37): reset and construction establish
them, and every sample keeps them.
-/

namespace Sys2Proof.Machine

/-! ## The matched filter -/

theorem firGood_reset (maxTaps : Nat) : FirGood maxTaps FirState.reset where
  unconfigured := fun _ => rfl
  taps_length := rfl
  dl_length := rfl
  within := Nat.zero_le _
  cursor := fun h => Bool.noConfusion h
  real_taps := fun _ _ h => (List.not_mem_nil h).elim

theorem firGood_construct {maxTaps : Nat} {cplx : Bool} {taps : List C32} (hpos : 0 < taps.length)
    (hmax : taps.length ≤ maxTaps) (hreal : cplx = false → ∀ h ∈ taps, h.im = 0) :
    FirGood maxTaps (firConstruct cplx taps) where
  unconfigured := fun h => Bool.noConfusion h
  taps_length := rfl
  dl_length := memClear_length _
  within := hmax
  cursor := fun _ => hpos
  real_taps := hreal

theorem firGood_push {maxTaps : Nat} {f : FirState} (h : FirGood maxTaps f) (hcfg : f.cfg = true) (x : C32) :
    FirGood maxTaps (firPush f x) where
  unconfigured := fun hc => Bool.noConfusion (hc.symm.trans hcfg)
  taps_length := h.taps_length
  dl_length := (memWrite_length _ _ _).trans h.dl_length
  within := h.within
  cursor := fun _ => Nat.mod_lt _ ((Nat.zero_le _).trans_lt (h.cursor hcfg))
  real_taps := h.real_taps

theorem realTaps_im (ws : List Word) : ∀ h ∈ realTaps ws, h.im = 0 := by
  intro h hh
  obtain ⟨w, -, rfl⟩ := List.mem_map.1 hh
  rfl

theorem ran_firStep_good {maxTaps : Nat} {f g : FirState} (hran : Ran firStep f g) (h : FirGood maxTaps f)
    (hcfg : f.cfg = true) : FirGood maxTaps g := by
  refine (hran.keeps (P := fun g => FirGood maxTaps g ∧ g.cfg = true) ?_ ⟨h, hcfg⟩).1
  intro g x k ⟨hg, hc⟩
  rw [firStep_state]
  exact ⟨firGood_push hg hc x, hc⟩

theorem FirWrite.keeps_good {i : Instr} {f g : FirState} (h : FirWrite i f g) (hf : FirGood Config.firMaxTaps f) :
    FirGood Config.firMaxTaps g := by
  cases h with
  | same => exact hf
  | reset => exact firGood_reset _
  | @loadReal taps _ hmax hpos =>
    have hlen : (realTaps taps).length = taps.length := List.length_map _
    exact firGood_construct (hlen ▸ hpos) (hlen ▸ hmax) fun _ => realTaps_im taps
  | @loadComplex ws _ hmax hpos =>
    rw [← pairWords_length] at hmax hpos
    exact firGood_construct hpos hmax fun h => Bool.noConfusion h
  | filter hcfg hran | filterBlock hcfg hran | pipe hcfg hran => exact ran_firStep_good hran hf hcfg

/-! ## Signs and ranges -/

theorem fVal_nonneg_of_fSign {v : F32} (hs : fSign v = false) : 0 ≤ fVal v := by
  rw [fVal, hs]
  exact Int.natCast_nonneg _

/-- A value above zero has no sign and a magnitude. -/
theorem fields_of_positive {v : F32} (h : Positive v) : fSign v = false ∧ fMag v ≠ 0 := by
  obtain ⟨-, -, -, hv⟩ := h.imp_right (fLt_iff 0 v).1
  rw [fVal_zero, fVal] at hv
  cases hs : fSign v <;> simp only [hs, if_true, Bool.false_eq_true, if_false] at hv
  · exact ⟨rfl, by omega⟩
  · omega

theorem fSign_fPack_roundMag (s : Bool) (num den : Nat) : fSign (fPack s (roundMag num den)) = s :=
  fSign_fPack _ _ (by have := roundMag_le num den; omega)

/-- A product has the sign of its factors. -/
theorem fSign_fMulCore {a b r : F32} (h : fMulCore a b = some r) : fSign r = (fSign a != fSign b) := by
  unfold fMulCore at h
  split at h
  · cases h
  · split at h
    · split at h <;> cases h
      exact fSign_fPack _ _ (by norm_num)
    · cases h
      exact fSign_fPack_roundMag _ _ _

/-- An operation that answers a finite value drew no NaN for it. -/
theorem orNaN_of_isFinite {o : Option F32} {k : Nat} (h : isFinite (runDraw (orNaN o) k).1 = true) :
    o = some (runDraw (orNaN o) k).1 := by
  obtain ⟨v, rfl, hv⟩ | ⟨-, hnan, -⟩ := runDraw_orNaN o k
  · rw [hv]
  · rw [isNaN_of_isFinite h] at hnan
    exact Bool.noConfusion hnan

/-- A quotient of finite positive values has no sign. -/
theorem fDivCore_positive {a b : F32} (ha : Positive a) (hb : Positive b) :
    ∃ q, fDivCore a b = some q ∧ fSign q = false := by
  obtain ⟨hsa, -⟩ := fields_of_positive ha
  obtain ⟨hsb, hmag⟩ := fields_of_positive hb
  exact ⟨_, fDivCore_finite ha.1 hb.1 hmag, by rw [fSign_fPack_roundMag, hsa, hsb]; rfl⟩

theorem positive_twoPiF : Positive twoPiF := by unfold Positive; decide

/-- The frequency clamp of a finite positive number of samples per symbol is not negative (R203). -/
theorem fllFmax_nonneg {sps : F32} {k : Nat} (hsps : Positive sps) (hfin : isFinite (runDraw (fllFmax sps) k).1 = true) :
    0 ≤ fVal (runDraw (fllFmax sps) k).1 := by
  obtain ⟨q, hdiv, hq⟩ := fDivCore_positive positive_twoPiF hsps
  simp only [fllFmax, fDiv, fMul, hdiv, runDraw_bind, runDraw_orNaN_some] at hfin ⊢
  apply fVal_nonneg_of_fSign
  rw [fSign_fMulCore (orNaN_of_isFinite hfin), hq]
  decide

theorem wrap_inRange {b : F32} (hb : b = piF ∨ b = twoPiF) (v : F32) (k : Nat) : InRange b (runDraw (wrap v b) k).1 :=
  (Claims.wrapBringsIntoRange v b k hb).1

/-- A clamp to a limit that is not negative gives a value in its range (R16). -/
theorem clamp_inRange {b v : F32} (hv : isNaN v = false) (hb : fLe 0 b = true) : InRange b (clamp v (fNeg b) b) := by
  obtain ⟨-, hnan, hle⟩ := (fLe_iff 0 b).1 hb
  rw [fVal_zero] at hle
  exact clamp_within hv ((fLe_iff _ _).2 ⟨(isNaN_fNeg b).trans hnan, hnan, by rw [fVal_fNeg]; omega⟩)

/-! ## The FLL -/

theorem conj_conj (c : C32) : conj (conj c) = c := by
  rw [conj, conj, fNeg_fNeg]

theorem fllGood_reset : FllGood FllState.reset where
  unconfigured := fun _ => rfl
  lo_good := firGood_reset _
  up_good := firGood_reset _
  lo_cfg := rfl
  up_cfg := rfl
  kind := ⟨rfl, rfl⟩
  same_cursor := rfl
  same_line := rfl
  mirror := rfl
  parameters := fun h => Bool.noConfusion h
  clamp_limit := by decide
  phase_range := inRange_zero (by decide) (by decide)
  freq_range := inRange_zero (by decide) (by decide)

/-- The two filters are mirror images whichever of them EDGE_SWAP puts on the given taps (R201). -/
theorem mirror_taps (swap : Bool) (taps : List C32) :
    (if swap then taps.map conj else taps) = (if swap then taps else taps.map conj).map conj := by
  cases swap
  · simp [Function.comp_def, conj_conj]
  · rfl

theorem fllGood_construct {sps rolloff bw beta fmax : F32} {swap : Bool} {taps : List C32} (hpos : 0 < taps.length)
    (hmax : taps.length ≤ Config.fllMaxTaps) (hsps : Positive sps) (hroll : fLe 0 rolloff = true ∧ fLe rolloff f1 = true)
    (hbw : Positive bw) (hbeta : isFinite beta = true) (hfin : isFinite fmax = true) (hnonneg : 0 ≤ fVal fmax) :
    FllGood (fllConstruct sps rolloff bw swap taps beta fmax) := by
  have hnan := isNaN_of_isFinite hfin
  have hlo : (if swap then taps.map conj else taps).length = taps.length := by cases swap <;> simp
  have hup : (if swap then taps else taps.map conj).length = taps.length := by cases swap <;> simp
  exact {
    unconfigured := fun h => Bool.noConfusion h
    lo_good := firGood_construct (hlo ▸ hpos) (hlo ▸ hmax) fun h => Bool.noConfusion h
    up_good := firGood_construct (hup ▸ hpos) (hup ▸ hmax) fun h => Bool.noConfusion h
    lo_cfg := rfl
    up_cfg := rfl
    kind := ⟨rfl, rfl⟩
    same_cursor := rfl
    same_line := congrArg memClear (hlo.trans hup.symm)
    mirror := mirror_taps swap taps
    parameters := fun _ => ⟨hsps, hbw, hroll⟩
    clamp_limit := ⟨hbeta, hfin, (fLe_iff _ _).2 ⟨by decide, hnan, by rwa [fVal_zero]⟩⟩
    phase_range := inRange_zero (by decide) (by decide)
    freq_range := inRange_zero hnan hnonneg }

/-- A sample moves both filters of the FLL alike, and wraps and clamps the rest (R204). -/
theorem fllStep_good {l : FllState} (h : FllGood l) (hcfg : l.cfg = true) (x : C32) (k : Nat) :
    FllGood (runDraw (fllStep l x) k).1.2 := by
  obtain ⟨r, p, f, k', k'', -, hstate, -⟩ := fllStep_state l x k
  have hn : l.lo.n = l.up.n := by
    rw [← h.lo_good.taps_length, ← h.up_good.taps_length, h.mirror, List.length_map]
  rw [hstate]
  exact {
    unconfigured := fun hc => Bool.noConfusion (hc.symm.trans hcfg)
    lo_good := firGood_push h.lo_good (h.lo_cfg.trans hcfg) r
    up_good := firGood_push h.up_good (h.up_cfg.trans hcfg) r
    lo_cfg := h.lo_cfg
    up_cfg := h.up_cfg
    kind := h.kind
    same_cursor := by simp only [firPush_cur, h.same_cursor, hn]
    same_line := by simp only [firPush_dl, h.same_line, h.same_cursor]
    mirror := h.mirror
    parameters := h.parameters
    clamp_limit := h.clamp_limit
    phase_range := wrap_inRange (.inr rfl) p k'
    freq_range := clamp_inRange (isNaN_of_isFinite (isFinite_sanitize f)) h.clamp_limit.2.2 }

theorem ran_fllStep_good {l m : FllState} (hran : Ran fllStep l m) (h : FllGood l) (hcfg : l.cfg = true) : FllGood m := by
  refine (hran.keeps (P := fun m => FllGood m ∧ m.cfg = true) ?_ ⟨h, hcfg⟩).1
  intro m x k ⟨hm, hc⟩
  exact ⟨fllStep_good hm hc x k, (ran_fllStep_fixed (.single fllStep m x k)).2.2.trans hc⟩

theorem FllWrite.keeps_good {i : Instr} {l m : FllState} (h : FllWrite i l m) (hl : FllGood l) : FllGood m := by
  cases h with
  | same => exact hl
  | reset => exact fllGood_reset
  | config hpos hmax hsps hroll hbw hbeta hfmax hfin =>
    exact fllGood_construct hpos hmax hsps hroll hbw hbeta hfin
      (hfmax ▸ fllFmax_nonneg hsps (hfmax ▸ hfin))
  | process hcfg hran | pipe hcfg hran => exact ran_fllStep_good hran hl hcfg

/-! ## The Costas loop -/

theorem cosGood_reset : CosGood CosState.reset where
  unconfigured := fun _ => rfl
  parameters := fun h => Bool.noConfusion h
  gains := by decide
  phase_range := inRange_zero (by decide) (by decide)
  freq_finite := by decide

theorem cosGood_construct {fs bwhz damp alpha beta : F32} (hfs : Positive fs) (hbwhz : Positive bwhz)
    (hdamp : Positive damp) (halpha : isFinite alpha = true) (hbeta : isFinite beta = true) :
    CosGood (costasConstruct fs bwhz damp alpha beta) where
  unconfigured := fun h => Bool.noConfusion h
  parameters := fun _ => ⟨hfs, hbwhz, hdamp⟩
  gains := ⟨halpha, hbeta⟩
  phase_range := inRange_zero (by decide) (by decide)
  freq_finite := show isFinite 0 = true by decide

/-- A sample wraps the phase and keeps the frequency finite (R244, R246). -/
theorem cosStep_good {l : CosState} (h : CosGood l) (hcfg : l.cfg = true) (x : C32) (k : Nat) :
    CosGood (runDraw (cosStep l x) k).1.2 := by
  obtain ⟨p, f, k', hstate⟩ := cosStep_state l x k
  rw [hstate]
  exact {
    unconfigured := fun hc => Bool.noConfusion (hc.symm.trans hcfg)
    parameters := h.parameters
    gains := h.gains
    phase_range := wrap_inRange (.inl rfl) p k'
    freq_finite := isFinite_sanitize f }

theorem ran_cosStep_good {l m : CosState} (hran : Ran cosStep l m) (h : CosGood l) (hcfg : l.cfg = true) : CosGood m := by
  refine (hran.keeps (P := fun m => CosGood m ∧ m.cfg = true) ?_ ⟨h, hcfg⟩).1
  intro m x k ⟨hm, hc⟩
  exact ⟨cosStep_good hm hc x k, (ran_cosStep_cfg (.single cosStep m x k)).trans hc⟩

theorem CosWrite.keeps_good {i : Instr} {l m : CosState} (h : CosWrite i l m) (hl : CosGood l) : CosGood m := by
  cases h with
  | same => exact hl
  | reset => exact cosGood_reset
  | config hfs hbwhz hdamp halpha hbeta => exact cosGood_construct hfs hbwhz hdamp halpha hbeta
  | process hcfg hran | pipe hcfg hran => exact ran_cosStep_good hran hl hcfg

end Sys2Proof.Machine

namespace Sys2Proof.Claims

open Sys2Proof.Machine

/-- Settles O16, by the matched filter's writes. -/
theorem stepKeepsFirGood : Obligations.StepKeepsFirGood := by
  intro s t hs ht
  obtain ⟨i, -, hw⟩ := step_writes ht
  exact hw.fir.keeps_good hs

/-- Settles O17, by the FLL's writes. -/
theorem stepKeepsFllGood : Obligations.StepKeepsFllGood := by
  intro s t hs ht
  obtain ⟨i, -, hw⟩ := step_writes ht
  exact hw.fll.keeps_good hs

/-- Settles O18, by the Costas loop's writes. -/
theorem stepKeepsCosGood : Obligations.StepKeepsCosGood := by
  intro s t hs ht
  obtain ⟨i, -, hw⟩ := step_writes ht
  exact hw.cos.keeps_good hs

end Sys2Proof.Claims
end

section
/-!
PROOF. The invariant of the timing recovery (10_state.md R39; 44_timing.md R281, R283): every update keeps what the emission
loop needs, and the drop after the loop brings the base back to the look-back.
-/

namespace Sys2Proof.Machine

/-! ## The fraction of an advance -/

/-- Binary32 has every magnitude of up to 24 significant bits. -/
theorem exists_magBits (m e : Nat) (hm : m < 2 ^ 24) : ∃ b, magBits b = m * 2 ^ e := by
  induction e generalizing m with
  | zero => exact ⟨0 * 2 ^ 23 + m, magBits_scaled 0 m hm.le (.inl rfl)⟩
  | succ e ih =>
    by_cases h : 2 ^ 23 ≤ m
    · exact ⟨(e + 1) * 2 ^ 23 + m, magBits_scaled (e + 1) m hm.le (.inr h)⟩
    · obtain ⟨b, hb⟩ := ih (2 * m) (by omega)
      exact ⟨b, by rw [hb, pow_succ]; ring⟩

/-- A magnitude is up to 24 significant bits. -/
theorem fMag_scaled (v : F32) : ∃ m e, m < 2 ^ 24 ∧ fMag v = m * 2 ^ e := by
  have hf : fFrac v < 2 ^ 23 := (v.extractLsb' 0 23).isLt
  unfold fMag
  split
  · exact ⟨fFrac v, 0, by omega, by rw [pow_zero, mul_one]⟩
  · exact ⟨2 ^ 23 + fFrac v, fExp v - 1, by omega, rfl⟩

/-- The remainder of a magnitude by a power of two needs no rounding. -/
theorem exists_magBits_mod (v : F32) (j : Nat) : ∃ b, magBits b = fMag v % 2 ^ j := by
  obtain ⟨m, e, hm, hv⟩ := fMag_scaled v
  rw [hv]
  by_cases h : j ≤ e
  · refine ⟨0, ?_⟩
    rw [Nat.mod_eq_zero_of_dvd (dvd_mul_of_dvd_right (pow_dvd_pow 2 h) m)]
    rfl
  · obtain ⟨b, hb⟩ := exists_magBits (m % 2 ^ (j - e)) e ((Nat.mod_le _ _).trans_lt hm)
    refine ⟨b, ?_⟩
    rw [hb, ← Nat.mul_mod_mul_right, ← pow_add, Nat.sub_add_cancel (by omega)]

/-- The fraction of a finite value that is not negative is exact (R281). -/
theorem fVal_fFraction {v : F32} (hfin : isFinite v = true) (hsign : fSign v = false) :
    isFinite (fFraction v) = true ∧ fVal (fFraction v) = (fMag v % 2 ^ 149 : Nat) := by
  obtain ⟨b, hb⟩ := exists_magBits_mod v 149
  have hlt : b < 0x3F800000 := by
    have hone : magBits 0x3F800000 = 2 ^ 149 := by decide
    exact magBits_strictMono.lt_iff_lt.1 (hb ▸ hone ▸ Nat.mod_lt _ (Nat.two_pow_pos 149))
  have hround : roundMag (fMag v % 2 ^ 149) 1 = b := by
    rw [← hb, ← mul_one (magBits b)]
    exact roundMag_exact b 1 one_pos (by omega)
  rw [fFraction, if_pos (by rw [hfin, hsign]; rfl), hround, isFinite_iff, lowBits_fPack _ _ (by omega),
    fVal_fPack _ _ (by omega), hb]
  exact ⟨by omega, rfl⟩

/-- A fraction lies in [0, 1) (R281). -/
theorem fFraction_range (v : F32) : fLe 0 (fFraction v) = true ∧ fLt (fFraction v) f1 = true := by
  by_cases h : (isFinite v && !fSign v) = true
  · obtain ⟨hfin, hsign⟩ := Bool.and_eq_true_iff.1 h
    obtain ⟨hf, hval⟩ := fVal_fFraction hfin (Bool.not_eq_true' _ ▸ hsign)
    have hnan := isNaN_of_isFinite hf
    have hlt : fMag v % 2 ^ 149 < 2 ^ 149 := Nat.mod_lt _ (Nat.two_pow_pos 149)
    have hone : fVal f1 = (2 ^ 149 : Nat) := by decide
    rw [fLe_iff, fLt_iff, hval, hone, fVal_zero]
    exact ⟨⟨by decide, hnan, Int.natCast_nonneg _⟩, hnan, by decide, Int.ofNat_lt.2 hlt⟩
  · rw [fFraction, if_neg h]
    decide

/-! ## The update and the drop -/

/-- What holds of the timing recovery while it emits symbols: all of `TrGood` but the base's return to the look-back. -/
structure TrRunning (t : TrState) : Prop where
  cfg : t.cfg = true
  parameters : (isFinite t.sps = true ∧ fLe f1 t.sps = true ∧ fLe t.sps fSpsMax = true) ∧
    (isFinite t.kp = true ∧ isFinite t.ki = true) ∧
    (isFinite t.cmax = true ∧ fLe 0 t.cmax = true ∧ fLt t.cmax t.sps = true)
  mu_range : fLe 0 t.mu = true ∧ fLt t.mu f1 = true
  queue_within : t.queue.length ≤ Config.trQcap
  base_from : lookBack t.mode ≤ t.base
  integ_finite : isFinite t.integ = true
  decided : t.havePrev = true → IsDecision t.prevD.re ∧ IsDecision t.prevD.im

/-- Appended samples leave a good timing recovery ready to emit. -/
theorem TrGood.running {t : TrState} (h : TrGood t) (hcfg : t.cfg = true) {zs : List C32}
    (hroom : t.queue.length + zs.length ≤ Config.trQcap) : TrRunning { t with queue := t.queue ++ zs } where
  cfg := hcfg
  parameters := h.parameters hcfg
  mu_range := h.mu_range
  queue_within := List.length_append.trans_le hroom
  base_from := h.base_from hcfg
  integ_finite := h.integ_finite
  decided := h.decided

/-- The drop ends with the base at the look-back, or with nothing left in the queue (R277). -/
theorem trDrop_normalized (t : TrState) (h : lookBack t.mode ≤ t.base) :
    lookBack t.mode ≤ (trDrop t).base ∧ ((trDrop t).base = lookBack t.mode ∨ (trDrop t).queue = []) := by
  simp only [trDrop, List.drop_eq_nil_iff, trDropCount]
  omega

theorem TrRunning.drop {t : TrState} (h : TrRunning t) : TrGood (trDrop t) := by
  obtain ⟨hbase, hnorm⟩ := trDrop_normalized t h.base_from
  exact {
    unconfigured := fun hc => Bool.noConfusion (hc.symm.trans h.cfg)
    parameters := fun _ => h.parameters
    mu_range := h.mu_range
    queue_within := (trDrop_queue_length_le t).trans h.queue_within
    base_from := fun _ => hbase
    normalized := hnorm
    integ_finite := h.integ_finite
    decided := h.decided }

/-- The integrator stays finite: an update sanitizes it or leaves it (R275, R283). -/
theorem trAdvance_integ_finite {t : TrState} (h : isFinite t.integ = true) (x : C32) (k : Nat) :
    isFinite (runDraw (trAdvance t x) k).1.1 = true := by
  unfold trAdvance
  split
  · exact isFinite_sanitize _
  · exact h

theorem decision_isDecision (x : C32) : IsDecision (decision x).re ∧ IsDecision (decision x).im :=
  ⟨sgn_cases x.re, sgn_cases x.im⟩

theorem trStep_running {t : TrState} (h : TrRunning t) (k : Nat) : TrRunning (runDraw (trStep t) k).1.2 := by
  obtain ⟨x, a, p, k1, k2, -, ha, -, hstate⟩ := trStep_state t k
  have hinteg := trAdvance_integ_finite h.integ_finite x k1
  rw [ha] at hinteg
  rw [hstate]
  exact {
    cfg := h.cfg
    parameters := h.parameters
    mu_range := fFraction_range p
    queue_within := h.queue_within
    base_from := h.base_from.trans (Nat.le_add_right _ _)
    integ_finite := hinteg
    decided := fun _ => decision_isDecision x }

theorem trRan_good {t u : TrState} (hran : TrRan t u) (h : TrGood t) (hcfg : t.cfg = true) : TrGood u := by
  obtain ⟨cap, zs, k, hroom, rfl⟩ := hran
  exact (trLoop_keeps (P := TrRunning) (fun _ k _ hu => trStep_running hu k) cap _ k (h.running hcfg hroom)).drop

theorem trGood_reset : TrGood TrState.reset where
  unconfigured := fun _ => rfl
  parameters := fun h => Bool.noConfusion h
  mu_range := by decide
  queue_within := Nat.zero_le _
  base_from := fun h => Bool.noConfusion h
  normalized := .inl rfl
  integ_finite := by decide
  decided := fun h => Bool.noConfusion h

theorem trGood_construct {sps kp ki cmax : F32} {m : Interp}
    (hsps : isFinite sps = true ∧ fLe f1 sps = true ∧ fLe sps fSpsMax = true)
    (hgains : isFinite kp = true ∧ isFinite ki = true)
    (hcmax : isFinite cmax = true ∧ fLe 0 cmax = true ∧ fLt cmax sps = true) :
    TrGood (trConstruct sps kp ki cmax m) where
  unconfigured := fun h => Bool.noConfusion h
  parameters := fun _ => ⟨hsps, hgains, hcmax⟩
  mu_range := show fLe 0 0 = true ∧ fLt 0 f1 = true by decide
  queue_within := Nat.zero_le _
  base_from := fun _ => le_rfl
  normalized := .inl rfl
  integ_finite := show isFinite 0 = true by decide
  decided := fun h => Bool.noConfusion h

theorem TrWrite.keeps_good {i : Instr} {t u : TrState} (h : TrWrite i t u) (ht : TrGood t) : TrGood u := by
  cases h with
  | same => exact ht
  | reset => exact trGood_reset
  | config hsps hgains hcmax => exact trGood_construct hsps hgains hcmax
  | process hcfg hran | pipe hcfg hran => exact trRan_good hran ht hcfg

end Sys2Proof.Machine

namespace Sys2Proof.Claims

open Sys2Proof.Machine

/-- Settles O19, by the timing recovery's writes. -/
theorem stepKeepsTrGood : Obligations.StepKeepsTrGood := by
  intro s t hs ht
  obtain ⟨i, -, hw⟩ := step_writes ht
  exact hw.tr.keeps_good hs

end Sys2Proof.Claims
end

section
/-!
PROOF. The invariant of the framer (10_state.md R41; 45_framer.md R324): each of its three moves keeps it.
-/

namespace Sys2Proof.Machine

/-! ## The marker search -/

theorem findMarker_eq_none {lsb : Bool} {ms : List Byte} {wv : List Bool} : findMarker lsb ms wv = none ↔
    ∀ p, p + 8 * ms.length ≤ wv.length → markerAt lsb ms (wv.drop p) = false := by
  simp only [findMarker, List.find?_eq_none, List.mem_range, Bool.not_eq_true]
  exact forall_congr' fun p => imp_congr_left (by omega)

/-- A marker that stands nowhere stands nowhere in a tail. -/
theorem findMarker_drop {lsb : Bool} {ms : List Byte} {wv : List Bool} (h : findMarker lsb ms wv = none) {d : Nat}
    (hd : d ≤ wv.length) : findMarker lsb ms (wv.drop d) = none := by
  rw [findMarker_eq_none] at h ⊢
  intro p hp
  rw [List.drop_drop]
  rw [List.length_drop] at hp
  exact h (d + p) (by omega)

theorem findMarker_nil {lsb : Bool} {ms : List Byte} (h : 0 < ms.length) : findMarker lsb ms [] = none :=
  findMarker_eq_none.2 fun p hp => by rw [List.length_nil] at hp; omega

/-! ## The moves of the framer -/

theorem frGood_reset : FrGood FrState.reset where
  unconfigured := fun _ => rfl
  markers := fun h => Bool.noConfusion h
  searching := fun _ => ⟨rfl, rfl⟩
  tail_within := Nat.zero_le _
  tail_unmatched := fun h => Bool.noConfusion h
  framing := fun h => Bool.noConfusion h
  no_end_yet := fun h => Bool.noConfusion h

theorem frGood_construct {lsb : Bool} {ms me : List Byte} (hms : 0 < ms.length ∧ ms.length ≤ Config.frMaxMarker)
    (hme : 0 < me.length ∧ me.length ≤ Config.frMaxMarker) : FrGood (frConstruct lsb ms me) where
  unconfigured := fun h => Bool.noConfusion h
  markers := fun _ => ⟨hms, hme⟩
  searching := fun _ => ⟨rfl, rfl⟩
  tail_within := Nat.zero_le _
  tail_unmatched := fun _ => findMarker_nil hms.1
  framing := fun h => Bool.noConfusion h
  no_end_yet := fun h => Bool.noConfusion h

/-- Back to SEARCHING from an emptied packer (R326, R327). -/
theorem frSearch_good {f : FrState} (h : FrGood f) (hcfg : f.cfg = true) (hpk : f.pk = []) : FrGood (frSearch f) where
  unconfigured := fun hc => Bool.noConfusion (hc.symm.trans hcfg)
  markers := h.markers
  searching := fun _ => ⟨rfl, hpk⟩
  tail_within := Nat.zero_le _
  tail_unmatched := fun _ => findMarker_nil (h.markers hcfg).1.1
  framing := fun hc => Bool.noConfusion hc
  no_end_yet := fun hc => Bool.noConfusion hc

/-- In a frame the packer may take any value of up to 7 bits. -/
theorem frGood_withPacker {f : FrState} (h : FrGood f) (hcfg : f.cfg = true) (hin : f.inFrame = true) {pk : List Bool}
    (hpk : pk.length ≤ 7) (bitpos : BitVec 3) : FrGood { f with pk := pk, bitpos := bitpos } where
  unconfigured := fun hc => Bool.noConfusion (hc.symm.trans hcfg)
  markers := h.markers
  searching := fun hs => Bool.noConfusion (hs.symm.trans hin)
  tail_within := h.tail_within
  tail_unmatched := h.tail_unmatched
  framing := fun _ => ⟨(h.framing hin).1, hpk, (h.framing hin).2.2⟩
  no_end_yet := h.no_end_yet

/-- A payload byte that joins the ring did not complete the end marker (R325). -/
theorem frByte_good {f : FrState} (h : FrGood f) (hcfg : f.cfg = true) (hin : f.inFrame = true) (hpk : f.pk = [])
    (b : Byte) : FrGood (frByte Config.frRingCap f b).2 := by
  obtain ⟨htail, hpk7, hring⟩ := h.framing hin
  obtain ⟨-, hr⟩ | ⟨-, -, -, hr⟩ | ⟨hroom, hend, hr⟩ := frByte_cases Config.frRingCap f b
  · rw [hr]; exact frSearch_good h hcfg hpk
  · rw [hr]; exact frSearch_good h hcfg hpk
  · rw [hr]
    exact {
      unconfigured := fun hc => Bool.noConfusion (hc.symm.trans hcfg)
      markers := h.markers
      searching := fun hs => Bool.noConfusion (hs.symm.trans hin)
      tail_within := h.tail_within
      tail_unmatched := h.tail_unmatched
      framing := fun _ => ⟨htail, hpk7, ring_append_within _ _ _ hring hroom⟩
      no_end_yet := fun _ hlen hlast => hend ⟨by simpa using hlen, hlast⟩ }

theorem frBit_good {f : FrState} (h : FrGood f) (hcfg : f.cfg = true) (hin : f.inFrame = true) (b : Bool) :
    FrGood (frBit Config.frRingCap f b).2 := by
  have hpk7 := (h.framing hin).2.1
  obtain ⟨-, hr⟩ | ⟨hne, hr⟩ := frBit_cases Config.frRingCap f b
  · rw [hr]
    exact frByte_good (frGood_withPacker h hcfg hin (pk := []) (Nat.zero_le 7) _) hcfg hin rfl _
  · rw [hr]
    exact frGood_withPacker h hcfg hin (by rw [List.length_append, List.length_singleton]; omega) _

/-- The tail of bits without a marker holds none (R324, R328). -/
theorem frKeepTail_good {f : FrState} {bits : List Bool} (h : FrGood f) (hcfg : f.cfg = true) (hin : f.inFrame = false)
    (hnone : findMarker f.lsbFirst f.startMarker (f.tail ++ bits) = none) : FrGood (frKeepTail f bits) where
  unconfigured := fun hc => Bool.noConfusion (hc.symm.trans hcfg)
  markers := h.markers
  searching := h.searching
  tail_within := (lastN_length _ _).trans_le (min_le_left _ _)
  tail_unmatched := fun _ => findMarker_drop hnone (Nat.sub_le _ _)
  framing := fun hc => Bool.noConfusion (hc.symm.trans hin)
  no_end_yet := fun hc => Bool.noConfusion (hc.symm.trans hin)

/-- A frame starts with nothing in its ring, which no end marker can end (R324, R329). -/
theorem frLock_good {f : FrState} (h : FrGood f) (hcfg : f.cfg = true) (p : Nat) : FrGood (frLock f p) where
  unconfigured := fun hc => Bool.noConfusion (hc.symm.trans hcfg)
  markers := h.markers
  searching := fun hc => Bool.noConfusion hc
  tail_within := Nat.zero_le _
  tail_unmatched := fun _ => findMarker_nil (h.markers hcfg).1.1
  framing := fun _ => ⟨rfl, Nat.zero_le _, Nat.zero_le _⟩
  no_end_yet := fun _ hlen => absurd ((h.markers hcfg).2.1.trans hlen) (by decide : ¬ 1 ≤ 0)

theorem frPush_good {f : FrState} (h : FrGood f) (hcfg : f.cfg = true) (bits : List Bool) :
    FrGood (frPush Config.frRingCap f bits).2 :=
  (frLoop_keeps (P := fun g => FrGood g ∧ g.cfg = true) _
    (fun g b ⟨hg, hc⟩ hin => ⟨frBit_good hg hc hin b, (frBit_cfg _ g b).trans hc⟩)
    (fun _ _ ⟨hg, hc⟩ hin hnone => ⟨frKeepTail_good hg hc hin hnone, hc⟩)
    (fun _ _ p ⟨hg, hc⟩ _ _ => ⟨frLock_good hg hc p, hc⟩) _ f bits ⟨h, hcfg⟩).1

/-- A marker of `k` bytes unpacks to `k` bytes (R93). -/
theorem unpackBytes_length {k : Nat} {ws : List Word} (h : ws.length = byteWords k) : (unpackBytes k ws).length = k := by
  have hbytes : (ws.flatMap bytesOfWord).length = 4 * ws.length := by
    simp [List.length_flatMap, bytesOfWord, mul_comm]
  rw [unpackBytes, List.length_take, hbytes, h, byteWords]
  omega

theorem FrWrite.keeps_good {i : Instr} {f g : FrState} (h : FrWrite i f g) (hwf : WellFormed i) (hf : FrGood f) :
    FrGood g := by
  cases h with
  | same => exact hf
  | reset => exact frGood_reset
  | config hms hme hmsmax hmemax =>
    obtain ⟨h1, h2⟩ := Bool.and_eq_true_iff.1 hwf
    have hlen1 := unpackBytes_length (beq_iff_eq.1 h1)
    have hlen2 := unpackBytes_length (beq_iff_eq.1 h2)
    exact frGood_construct (by omega) (by omega)
  | push bits hcfg | pipe bits hcfg => exact frPush_good hf hcfg bits

end Sys2Proof.Machine

namespace Sys2Proof.Claims

open Sys2Proof.Machine

/-- Settles O20, by the framer's writes; that a decoded FR_CONFIG is well formed gives the markers their lengths. -/
theorem stepKeepsFrGood : Obligations.StepKeepsFrGood := by
  intro s t hs ht
  obtain ⟨i, hwf, hw⟩ := step_writes ht
  exact hw.fr.keeps_good hwf hs

/-- Settles O15, block by block. -/
theorem resetStateIsGood : Obligations.ResetStateIsGood :=
  ⟨⟨firGood_reset _, fllGood_reset, cosGood_reset, trGood_reset, frGood_reset⟩, reset_memories_wf⟩

end Sys2Proof.Claims
end

section
/-!
PROOF. Every step keeps the internal memories within their lengths and capacities (10_state.md R33, 20_memory.md R90), from
no more than those lengths.
-/

namespace Sys2Proof.Machine

/-- The lengths of a filter's memories (R33, R90). -/
def FirLengths (maxTaps : Nat) (f : FirState) : Prop :=
  f.taps.length = f.n ∧ f.dl.length = f.n ∧ f.n ≤ maxTaps

/-- The lengths of the framer's memories (R90). -/
structure FrLengths (f : FrState) : Prop where
  start : f.startMarker.length ≤ Config.frMaxMarker
  stop : f.endMarker.length ≤ Config.frMaxMarker
  ring : f.ring.length ≤ Config.frRingCap
  tail : f.tail.length ≤ 8 * f.startMarker.length + 7
  packer : f.pk.length ≤ 7

/-- `Memory.wf` block by block. -/
theorem memory_wf_iff_blocks (s : State) : Memory.wf s = true ↔
    FirLengths Config.firMaxTaps s.fir ∧
    (FirLengths Config.fllMaxTaps s.fll.lo ∧ FirLengths Config.fllMaxTaps s.fll.up) ∧
    s.tr.queue.length ≤ Config.trQcap ∧ FrLengths s.fr := by
  rw [memory_wf_iff]
  constructor
  · rintro ⟨hfir, hlo, hup, htr, ⟨hstart, hstop⟩, hring, htail, hpk⟩
    exact ⟨hfir, ⟨hlo, hup⟩, htr, hstart, hstop, hring, htail, hpk⟩
  · rintro ⟨hfir, ⟨hlo, hup⟩, htr, hfr⟩
    exact ⟨hfir, hlo, hup, htr, ⟨hfr.start, hfr.stop⟩, hfr.ring, hfr.tail, hfr.packer⟩

theorem firLengths_reset (maxTaps : Nat) : FirLengths maxTaps FirState.reset := ⟨rfl, rfl, Nat.zero_le _⟩

theorem firLengths_construct {maxTaps : Nat} {cplx : Bool} {taps : List C32} (h : taps.length ≤ maxTaps) :
    FirLengths maxTaps (firConstruct cplx taps) := ⟨rfl, memClear_length _, h⟩

theorem firLengths_push {maxTaps : Nat} {f : FirState} (h : FirLengths maxTaps f) (x : C32) :
    FirLengths maxTaps (firPush f x) := ⟨h.1, (memWrite_length _ _ _).trans h.2.1, h.2.2⟩

theorem FirWrite.keeps_lengths {i : Instr} {f g : FirState} (h : FirWrite i f g)
    (hf : FirLengths Config.firMaxTaps f) : FirLengths Config.firMaxTaps g := by
  cases h with
  | same => exact hf
  | reset => exact firLengths_reset _
  | loadReal hmax => exact firLengths_construct ((List.length_map _).trans_le hmax)
  | loadComplex hmax => exact firLengths_construct ((pairWords_length _).trans_le hmax)
  | filter _ hran | filterBlock _ hran | pipe _ hran =>
    exact hran.keeps (fun g x k hg => firStep_state g x k ▸ firLengths_push hg x) hf

/-- The lengths of the band-edge filters' memories. -/
def FllLengths (l : FllState) : Prop := FirLengths Config.fllMaxTaps l.lo ∧ FirLengths Config.fllMaxTaps l.up

theorem fllStep_lengths {l : FllState} (h : FllLengths l) (x : C32) (k : Nat) :
    FllLengths (runDraw (fllStep l x) k).1.2 := by
  obtain ⟨r, p, f, k', k'', -, hstate, -⟩ := fllStep_state l x k
  rw [hstate]
  exact ⟨firLengths_push h.1 r, firLengths_push h.2 r⟩

theorem FllWrite.keeps_lengths {i : Instr} {l m : FllState} (h : FllWrite i l m) (hl : FllLengths l) : FllLengths m := by
  cases h with
  | same => exact hl
  | reset => exact ⟨firLengths_reset _, firLengths_reset _⟩
  | @config _ _ _ _ taps swap _ _ _ _ _ hmax =>
    exact ⟨firLengths_construct (by cases swap <;> simpa using hmax),
      firLengths_construct (by cases swap <;> simpa using hmax)⟩
  | process _ hran | pipe _ hran => exact hran.keeps (fun _ x k hm => fllStep_lengths hm x k) hl

theorem trRan_queue_within {t u : TrState} (hran : TrRan t u) : u.queue.length ≤ Config.trQcap := by
  obtain ⟨cap, zs, k, hroom, rfl⟩ := hran
  refine (trDrop_queue_length_le _).trans (trLoop_keeps (P := fun u => u.queue.length ≤ Config.trQcap) ?_ cap _ k ?_)
  · exact fun u k _ hu => (trStep_fixed u k).1 ▸ hu
  · exact List.length_append.trans_le hroom

theorem TrWrite.keeps_queue {i : Instr} {t u : TrState} (h : TrWrite i t u) (ht : t.queue.length ≤ Config.trQcap) :
    u.queue.length ≤ Config.trQcap := by
  cases h with
  | same => exact ht
  | reset | config => exact Nat.zero_le _
  | process _ hran | pipe _ hran => exact trRan_queue_within hran

theorem frByte_lengths {f : FrState} (h : FrLengths f) (b : Byte) : FrLengths (frByte Config.frRingCap f b).2 := by
  have hsearch : FrLengths (frSearch f) := ⟨h.start, h.stop, Nat.zero_le _, Nat.zero_le _, h.packer⟩
  obtain ⟨-, hr⟩ | ⟨-, -, -, hr⟩ | ⟨hroom, -, hr⟩ := frByte_cases Config.frRingCap f b
  · rwa [hr]
  · rwa [hr]
  · rw [hr]
    exact ⟨h.start, h.stop, ring_append_within _ _ _ h.ring hroom, h.tail, h.packer⟩

theorem frBit_lengths {f : FrState} (h : FrLengths f) (b : Bool) : FrLengths (frBit Config.frRingCap f b).2 := by
  have hpacker : ∀ {pk : List Bool}, pk.length ≤ 7 → FrLengths { f with pk := pk, bitpos := f.bitpos + 1 } :=
    fun hpk => ⟨h.start, h.stop, h.ring, h.tail, hpk⟩
  obtain ⟨-, hr⟩ | ⟨hne, hr⟩ := frBit_cases Config.frRingCap f b
  · rw [hr]
    exact frByte_lengths (hpacker (pk := []) (Nat.zero_le 7)) _
  · have := h.packer
    rw [hr]
    exact hpacker (by rw [List.length_append, List.length_singleton]; omega)

theorem frPush_lengths {f : FrState} (h : FrLengths f) (bits : List Bool) :
    FrLengths (frPush Config.frRingCap f bits).2 :=
  frLoop_keeps (P := FrLengths) _ (fun _ b hg _ => frBit_lengths hg b)
    (fun _ _ hg _ _ => ⟨hg.start, hg.stop, hg.ring, (lastN_length _ _).trans_le (min_le_left _ _), hg.packer⟩)
    (fun _ _ _ hg _ _ => ⟨hg.start, hg.stop, Nat.zero_le _, Nat.zero_le _, Nat.zero_le _⟩) _ f bits h

theorem FrWrite.keeps_lengths {i : Instr} {f g : FrState} (h : FrWrite i f g) (hf : FrLengths f) : FrLengths g := by
  cases h with
  | same => exact hf
  | reset => exact ⟨Nat.zero_le _, Nat.zero_le _, Nat.zero_le _, Nat.zero_le _, Nat.zero_le _⟩
  | config _ _ hms hme =>
    exact ⟨(unpackBytes_length_le _ _).trans hms, (unpackBytes_length_le _ _).trans hme, Nat.zero_le _, Nat.zero_le _,
      Nat.zero_le _⟩
  | push bits | pipe bits => exact frPush_lengths hf bits

end Sys2Proof.Machine

namespace Sys2Proof.Claims

open Sys2Proof.Machine

/-- Settles O21, block by block (`memory_wf_iff_blocks`). -/
theorem stepKeepsMemoriesWithinCapacity : Obligations.StepKeepsMemoriesWithinCapacity := by
  intro s t hs ht
  obtain ⟨i, -, hw⟩ := step_writes ht
  rw [memory_wf_iff_blocks] at hs ⊢
  obtain ⟨hfir, hfll, htr, hfr⟩ := hs
  exact ⟨hw.fir.keeps_lengths hfir, hw.fll.keeps_lengths hfll, hw.tr.keeps_queue htr, hw.fr.keeps_lengths hfr⟩

end Sys2Proof.Claims
end

section
/-!
PROOF. What READ_REG answers (10_state.md R44 to R50, R78; 40_control.md R151): the scalar registers, the build's parameters
and the memory windows.
-/

namespace Sys2Proof.Machine

/-! ## READ_REG -/

/-- READ_REG of a register that the selector names. -/
theorem execReadReg_some {sel : Count} {s : State} {v : Word}
    (h : readRegister (selWindow sel) (selIndex sel) s = some v) :
    exec (.readReg sel) s = .next { s with resp := s.resp ++ [0x00000000, v] } := by
  simp only [exec, execReadReg, h, complete_eq, statusWord_ok]
  rfl

/-- READ_REG of a selector that names no register (R400). -/
theorem execReadReg_none {sel : Count} {s : State} (h : readRegister (selWindow sel) (selIndex sel) s = none) :
    exec (.readReg sel) s = .next (Claims.failed s 0x0D) := by
  simp only [exec, execReadReg, h, raise_eq, statusWord_error]
  rfl

/-- The fields of a selector made from a window and an index (R44). -/
theorem selector_fields {w i : Nat} (hw : w < 16) (hi : i < 2 ^ 20) :
    selWindow (BitVec.ofNat 24 (w * 2 ^ 20 + i)) = w ∧ selIndex (BitVec.ofNat 24 (w * 2 ^ 20 + i)) = i := by
  rw [selWindow, selIndex, BitVec.extractLsb'_toNat, BitVec.extractLsb'_toNat, BitVec.toNat_ofNat,
    Nat.shiftRight_eq_div_pow, Nat.shiftRight_zero]
  omega

/-- Window 0 holds the scalar registers. -/
theorem readRegister_scalar {i : Nat} (hi : i < 2 ^ 20) (s : State) :
    readRegister (selWindow (BitVec.ofNat 24 i)) (selIndex (BitVec.ofNat 24 i)) s = scalarRegister i s := by
  obtain ⟨hw, hx⟩ := selector_fields (w := 0) (by norm_num) hi
  rw [zero_mul, zero_add] at hw hx
  rw [hw, hx]
  rfl

/-! ## The packed control registers -/

theorem toNat_append_eq {v w : Nat} (x : BitVec v) (y : BitVec w) : (x ++ y).toNat = 2 ^ w * x.toNat + y.toNat := by
  rw [BitVec.toNat_append, mul_comm, ← Nat.shiftLeft_eq, Nat.shiftLeft_add_eq_or_of_lt y.isLt]

theorem toNat_flagBit (b : Bool) : (flagBit b).toNat = b.toNat := by cases b <;> rfl

theorem firCtrl_eq (f : FirState) : firCtrl f = BitVec.ofNat 32 (f.cfg.toNat + 2 * f.cplx.toNat) := by
  unfold firCtrl
  cases f.cfg <;> cases f.cplx <;> rfl

theorem fllCtrl_eq (l : FllState) : fllCtrl l = BitVec.ofNat 32 (l.cfg.toNat + 2 * l.swap.toNat) := by
  unfold fllCtrl
  cases l.cfg <;> cases l.swap <;> rfl

theorem cosCtrl_eq (c : CosState) : cosCtrl c = BitVec.ofNat 32 c.cfg.toNat := by
  unfold cosCtrl
  cases c.cfg <;> rfl

theorem toNat_modeBit (m : Interp) : (modeBit m).toNat = if m = .lagrange then 1 else 0 := by cases m <;> rfl

theorem toNat_flagBit_minus1 (v : F32) : (flagBit (v == fMinus1)).toNat = if v = 0xBF800000 then 1 else 0 := by
  change _ = if v = fMinus1 then 1 else 0
  by_cases h : v = fMinus1
  · rw [if_pos h, h]; rfl
  · rw [if_neg h, beq_eq_false_iff_ne.2 h]; rfl

theorem trCtrl_eq (t : TrState) : trCtrl t = BitVec.ofNat 32 (t.cfg.toNat + 2 * (if t.mode = .lagrange then 1 else 0) +
    4 * t.havePrev.toNat + 8 * (if t.prevD.re = 0xBF800000 then 1 else 0) +
    16 * (if t.prevD.im = 0xBF800000 then 1 else 0)) := by
  have hcfg := t.cfg.toNat_le
  have hprev := t.havePrev.toNat_le
  apply BitVec.eq_of_toNat_eq
  simp only [trCtrl, toNat_append_eq, toNat_flagBit_minus1]
  rw [toNat_modeBit, toNat_flagBit, toNat_flagBit, BitVec.toNat_ofNat, show (0 : BitVec 27).toNat = 0 from rfl]
  split_ifs <;> omega

theorem frCtrl_eq (f : FrState) (hpk : f.pk.length ≤ 7) : frCtrl f = BitVec.ofNat 32 (f.cfg.toNat + 2 * f.lsbFirst.toNat +
    4 * f.inFrame.toNat + 16 * f.align.toNat + 256 * f.bitpos.toNat + 4096 * f.pk.length) := by
  have hcfg := f.cfg.toNat_le
  have hlsb := f.lsbFirst.toNat_le
  have hin := f.inFrame.toNat_le
  have halign := f.align.isLt
  have hbitpos := f.bitpos.isLt
  apply BitVec.eq_of_toNat_eq
  simp only [frCtrl, toNat_append_eq, toNat_flagBit, BitVec.ofNat_eq_ofNat, BitVec.toNat_ofNat]
  omega

theorem pipeCtrl_eq (p : PipeState) : pipeCtrl p = BitVec.ofNat 32 (p.fllEn.toNat + 2 * p.diffEn.toNat +
    256 * p.demap.toNat + 65536 * p.diffPrev.toNat) := by
  have hfll := p.fllEn.toNat_le
  have hdiff := p.diffEn.toNat_le
  have hdemap := p.demap.isLt
  have hprev := p.diffPrev.isLt
  apply BitVec.eq_of_toNat_eq
  simp only [pipeCtrl, toNat_append_eq, toNat_flagBit, BitVec.ofNat_eq_ofNat, BitVec.toNat_ofNat]
  omega

/-! ## The scalar registers -/

/-- Each register of R45 to R49 holds the value that its rule gives. -/
theorem scalarRegister_table (s : State) (hpk : s.fr.pk.length ≤ 7) :
    ∀ r ∈ Claims.registerTable s, r.1 < 2 ^ 20 ∧ scalarRegister r.1 s = some r.2 := by
  simp only [Claims.registerTable, ← firCtrl_eq s.fir, ← fllCtrl_eq s.fll, ← cosCtrl_eq s.cos, ← trCtrl_eq s.tr,
    ← frCtrl_eq s.fr hpk, ← pipeCtrl_eq s.pipe, List.forall_mem_cons]
  repeat refine ⟨⟨by omega, rfl⟩, ?_⟩
  exact fun _ h => (List.not_mem_nil h).elim

theorem scalarRegister_parameter (s : State) :
    ∀ r ∈ Claims.parameterTable, r.1 < 2 ^ 20 ∧ scalarRegister r.1 s = some (BitVec.ofNat 32 r.2) := by
  simp only [Claims.parameterTable, List.forall_mem_cons]
  repeat refine ⟨⟨by omega, rfl⟩, ?_⟩
  exact fun _ h => (List.not_mem_nil h).elim

/-- Every capacity fits a register (R9, R78). -/
theorem parameter_lt : ∀ r ∈ Claims.parameterTable, r.2 < 2 ^ 32 := by
  have hfft : Config.fftMax < 2 ^ 32 := Nat.pow_lt_pow_right (by norm_num) (Nat.mod_lt _ (by norm_num))
  have hring : Config.frRingCap < 2 ^ 32 := by unfold Config.frRingCap; omega
  have hmarker : Config.frMaxMarker < 2 ^ 32 := by
    have := Nat.mod_lt Config.rawFrMaxMarker (show 0 < min 4095 Config.frRingCap by unfold Config.frRingCap; omega)
    unfold Config.frMaxMarker; omega
  have hfir : Config.firMaxTaps < 2 ^ 32 := by unfold Config.firMaxTaps; omega
  have hfll : Config.fllMaxTaps < 2 ^ 32 := by unfold Config.fllMaxTaps; omega
  have htr : Config.trQcap < 2 ^ 32 := by unfold Config.trQcap; omega
  simp only [Claims.parameterTable, List.forall_mem_cons]
  exact ⟨hfir, hfll, htr, hring, hmarker, hfft, fun _ h => (List.not_mem_nil h).elim⟩

/-- R78's unassigned numbers hold no register. -/
theorem scalarRegister_unassigned {i : Nat} (h : Claims.unassignedNumber i) (s : State) : scalarRegister i s = none := by
  unfold scalarRegister
  split
  case h_49 => rfl
  all_goals (unfold Claims.unassignedNumber at h; omega)

theorem unassignedNumber_index {i : Nat} (h : Claims.unassignedNumber i) : i < 2 ^ 20 := by
  unfold Claims.unassignedNumber at h; omega

/-! ## The memory windows -/

theorem windowRe_eq {m : List C32} {n : Nat} (h : m.length = n) (i : Nat) : windowRe m n i = (m.map C32.re)[i]? := by
  subst h
  by_cases hi : i < m.length <;> simp [windowRe, memRead, hi]

theorem windowIm_eq {m : List C32} {n : Nat} (h : m.length = n) (i : Nat) : windowIm m n i = (m.map C32.im)[i]? := by
  subst h
  by_cases hi : i < m.length <;> simp [windowIm, memRead, hi]

theorem windowByte_eq (m : List Byte) (i : Nat) :
    windowByte m i = (m.map (fun b => BitVec.ofNat 32 b.toNat))[i]? := by
  have hzero : (fun b : Byte => (0 : BitVec 24) ++ b) = fun b => BitVec.ofNat 32 b.toNat := by
    funext b
    apply BitVec.eq_of_toNat_eq
    have := b.isLt
    rw [toNat_append_eq, BitVec.toNat_ofNat, show (0 : BitVec 24).toNat = 0 from rfl]
    omega
  rw [windowByte, List.getElem?_map, hzero]

/-- The windows of R50 show the memories' elements, and nothing past their ends. -/
theorem readRegister_window {s : State} (hwf : Memory.wf s = true) {w : Nat} (h1 : 1 ≤ w) (h16 : w < 16) (i : Nat) :
    readRegister w i s = (Claims.windowContents s w)[i]? := by
  obtain ⟨⟨htaps, hdl, -⟩, ⟨hlo, -⟩, ⟨hup, -⟩, -⟩ := (memory_wf_iff s).1 hwf
  interval_cases w
  · exact windowRe_eq htaps i
  · exact windowIm_eq htaps i
  · exact windowRe_eq hdl i
  · exact windowIm_eq hdl i
  · exact windowRe_eq hlo i
  · exact windowIm_eq hlo i
  · exact windowRe_eq hup i
  · exact windowIm_eq hup i
  · exact windowRe_eq rfl i
  · exact windowIm_eq rfl i
  · exact windowByte_eq s.fr.ring i
  · exact windowByte_eq s.fr.startMarker i
  · exact windowByte_eq s.fr.endMarker i
  · rfl
  · rfl

end Sys2Proof.Machine

namespace Sys2Proof.Claims

open Sys2Proof.Machine

/-- Settles O23: the table's rows are the model's registers (`scalarRegister_table`). -/
theorem readRegAnswersScalarRegisters : Obligations.ReadRegAnswersScalarRegisters := by
  intro s i v hpk hmem
  obtain ⟨hi, hreg⟩ := scalarRegister_table s hpk _ hmem
  exact execReadReg_some ((readRegister_scalar hi s).trans hreg)

/-- Settles O24: the capacities fit their registers (`parameter_lt`), and R78's other numbers name none. -/
theorem readRegAnswersParametersAndRejectsTheRest : Obligations.ReadRegAnswersParametersAndRejectsTheRest := by
  intro s i
  constructor
  · intro v hmem
    obtain ⟨hi, hreg⟩ := scalarRegister_parameter s _ hmem
    exact ⟨parameter_lt _ hmem, execReadReg_some ((readRegister_scalar hi s).trans hreg)⟩
  · intro h
    exact execReadReg_none ((readRegister_scalar (unassignedNumber_index h) s).trans (scalarRegister_unassigned h s))

/-- Settles O25: each window is its memory's list (`readRegister_window`). -/
theorem readRegAnswersMemoryWindows : Obligations.ReadRegAnswersMemoryWindows := by
  intro s w i hwf h1 h16 hi
  obtain ⟨hw, hx⟩ := selector_fields h16 hi
  cases hc : (windowContents s w)[i]? with
  | some v => exact execReadReg_some (by rw [hw, hx, readRegister_window hwf h1 h16, hc])
  | none => exact execReadReg_none (by rw [hw, hx, readRegister_window hwf h1 h16, hc])

end Sys2Proof.Claims
end

section
/-!
PROOF. What FR_PUSH_BITS reads and answers (20_memory.md R93, R94; 30_encoding.md R118; 45_framer.md R323): packed bits and
packed bytes by index.
-/

namespace Sys2Proof.Machine

/-! ## Packed bits -/

/-- Packed words hold bit `i` of the stream as bit `i mod 32` of word `i / 32` (R94). -/
theorem flatMap_bitsOfWord (ws : List Word) : ws.flatMap bitsOfWord =
    (List.range (32 * ws.length)).map (fun i => (ws.getD (i / 32) 0).getLsbD (i % 32)) := by
  induction ws with
  | nil => rfl
  | cons w ws ih =>
    have hfirst : bitsOfWord w =
        (List.range 32).map (fun i => ((w :: ws).getD (i / 32) 0).getLsbD (i % 32)) :=
      List.map_congr_left fun i hi => by
        have hlt := List.mem_range.1 hi
        rw [Nat.div_eq_of_lt hlt, Nat.mod_eq_of_lt hlt, List.getD_cons_zero]
    have hrest (i : Nat) : ((w :: ws).getD ((32 + i) / 32) 0).getLsbD ((32 + i) % 32) =
        (ws.getD (i / 32) 0).getLsbD (i % 32) := by
      rw [Nat.add_div_left _ (by norm_num), Nat.add_mod_left, List.getD_cons_succ]
    rw [List.flatMap_cons, ih, hfirst, List.length_cons, Nat.mul_succ, Nat.add_comm, List.range_add, List.map_append,
      List.map_map]
    simp only [Function.comp_def, hrest]

/-- The `k` bits of `bitWords k` words, by index; the last word's other bits are not read (R94). -/
theorem unpackBits_eq {k : Nat} {ws : List Word} (h : ws.length = bitWords k) :
    unpackBits k ws = (List.range k).map (fun i => (ws.getD (i / 32) 0).getLsbD (i % 32)) := by
  have hfit : k ≤ 32 * ws.length := by rw [h, bitWords]; omega
  rw [unpackBits, flatMap_bitsOfWord, ← List.map_take, List.take_range, min_eq_left hfit]

/-! ## Packed bytes -/

/-- Byte `j` of a word stands at bits `8 * j` and up (R93). -/
theorem wordOfBytes_eq_sum (g : Nat → Byte) : wordOfBytes (g 0) (g 1) (g 2) (g 3) =
    BitVec.ofNat 32 (∑ j ∈ Finset.range 4, (g j).toNat * 2 ^ (8 * j)) := by
  apply BitVec.eq_of_toNat_eq
  have h0 := (g 0).isLt
  have h1 := (g 1).isLt
  have h2 := (g 2).isLt
  have h3 := (g 3).isLt
  simp only [wordOfBytes, toNat_append_eq, BitVec.toNat_ofNat, Finset.sum_range_succ, Finset.sum_range_zero]
  omega

/-- Packed words by index, word `i` from the bytes `4 * i` to `4 * i + 3`. -/
theorem packedBytes_eq (f : List Byte) : Claims.packedBytes f = (List.range ((f.length + 3) / 4)).map (fun i =>
    wordOfBytes (f.getD (4 * i) 0) (f.getD (4 * i + 1) 0) (f.getD (4 * i + 2) 0) (f.getD (4 * i + 3) 0)) :=
  List.map_congr_left fun i _ => (wordOfBytes_eq_sum fun j => f.getD (4 * i + j) 0).symm

/-- The packing is R93's. -/
theorem packBytes_eq_packedBytes (f : List Byte) : packBytes f = Claims.packedBytes f := by
  rw [packedBytes_eq]
  induction f using packBytes.induct with
  | case1 => rfl
  | case2 | case3 | case4 => simp [packBytes]
  | case5 a b c d rest ih =>
    have hwords : ((a :: b :: c :: d :: rest).length + 3) / 4 = (rest.length + 3) / 4 + 1 := by
      simp only [List.length_cons]; omega
    rw [packBytes, ih, hwords, List.range_succ_eq_map, List.map_cons, List.map_map]
    rfl

/-- A response's frame words are R118's. -/
theorem frameWords_eq_framesResponse (frames : List (List Byte)) : frameWords frames = Claims.framesResponse frames := by
  simp only [frameWords, Claims.framesResponse, List.flatMap, packBytes_eq_packedBytes, natWord]

/-! ## The command -/

/-- FR_PUSH_BITS on a constructed framer (R323). -/
theorem execFrPushBits_configured {s : State} (hcfg : s.fr.cfg = true) (n : Count) (ws : List Word) :
    exec (.frPushBits n ws) s = .next { s with
      fr := (frPush Config.frRingCap s.fr (unpackBits n.toNat ws)).2,
      resp := s.resp ++ 0x00000000 :: frameWords (frPush Config.frRingCap s.fr (unpackBits n.toNat ws)).1 } := by
  simp only [exec, execFrPushBits, hcfg, Bool.true_eq_false, if_false, complete_eq, statusWord_ok]
  rfl

end Sys2Proof.Machine

namespace Sys2Proof.Claims

open Sys2Proof.Machine

/-- Settles O47: the bits by index (`unpackBits_eq`), and the frame words by index (`frameWords_eq_framesResponse`). -/
theorem frPushBitsAnswersTheFrames : Obligations.FrPushBitsAnswersTheFrames := by
  intro s n ws hcfg hwf
  have hbits := unpackBits_eq (beq_iff_eq.1 hwf)
  refine ⟨_, _, Prod.mk.eta.symm, ?_⟩
  rw [execFrPushBits_configured hcfg, hbits, frameWords_eq_framesResponse]

end Sys2Proof.Claims
end

section
/-!
PROOF. The encoder against the decoder (30_encoding.md R110 to R116): a header and its fields, complex samples and their
words, and what the decoder accepts in terms of `assemble`. Then the headers that run no command (R120, R121).
-/

namespace Sys2Proof.Machine

/-! ## Headers and samples -/

/-- A header word is its two fields (R111). -/
theorem header_fields (h : Word) : header (headerOpc h) (headerN h) = h := by
  apply BitVec.eq_of_toNat_eq
  simp only [header, headerOpc, headerN, toNat_append_eq, BitVec.extractLsb'_toNat, Nat.shiftRight_eq_div_pow]
  omega

/-- `OPC` is the top byte of a header (R111). -/
theorem headerOpc_toNat (h : Word) : (headerOpc h).toNat = h.toNat / 2 ^ 24 := by
  rw [headerOpc, BitVec.extractLsb'_toNat, Nat.shiftRight_eq_div_pow]
  omega

/-- An `FM` header's `N` is the two marker lengths (R112). -/
theorem markerLengths_append (n : Count) : meLenOf n ++ msLenOf n = n := by
  apply BitVec.eq_of_toNat_eq
  simp only [meLenOf, msLenOf, toNat_append_eq, BitVec.extractLsb'_toNat, Nat.shiftRight_eq_div_pow]
  omega

/-- The samples of their own words (R92). -/
theorem pairWords_unpairWords (xs : List C32) : pairWords (unpairWords xs) = xs := by
  induction xs with
  | nil => rfl
  | cons x xs ih => rw [unpairWords, pairWords, ih]

/-- The words of the samples that an even number of words make (R92). -/
theorem unpairWords_pairWords {ws : List Word} (h : ws.length % 2 = 0) : unpairWords (pairWords ws) = ws := by
  induction ws using pairWords.induct with
  | case1 a b ws ih =>
    rw [pairWords, unpairWords, ih]
    simpa only [List.length_cons, Nat.add_assoc, Nat.add_mod_right] using h
  | case2 ws hshort =>
    match ws with
    | [] => rfl
    | [_] => simp at h
    | a :: b :: ws => exact absurd rfl (hshort a b ws)

/-- Where `2N` words make the samples, their number gives back `N` and they give back the words (R112). -/
theorem samples_of_count {ws : List Word} {n : Count} (h : ws.length = 2 * n.toNat) :
    BitVec.ofNat 24 (pairWords ws).length = n ∧ unpairWords (pairWords ws) = ws := by
  have hcount : n.toNat = (pairWords ws).length := by rw [pairWords_length]; omega
  exact ⟨(BitVec.toNat_eq_nat.1 hcount).2.symm, unpairWords_pairWords (by omega)⟩

/-! ## What the decoder accepts -/

/-- The decoder accepts a header with exactly the operand words it calls for, and leaves the words after them (R115). -/
theorem decode_eq_command_iff (ws rest : List Word) (i : Instr) : decode ws = .command i rest ↔
    ∃ h ops f, ws = h :: (ops ++ rest) ∧ formatOf (headerOpc h) = some f ∧ ops.length = operandCount f (headerN h) ∧
      assemble (headerOpc h) (headerN h) ops = some i := by
  constructor
  · intro hd
    match ws with
    | [] => cases hd
    | h :: ws =>
      cases hf : formatOf (headerOpc h) with
      | none => simp [decode, hf] at hd
      | some f =>
        by_cases hlen : operandCount f (headerN h) ≤ ws.length
        · simp only [decode, hf, Nat.not_lt.2 hlen, if_false] at hd
          split at hd
          · cases hd
          next hi =>
            cases hd
            exact ⟨h, _, f, by rw [List.take_append_drop], hf, List.length_take_of_le hlen, hi⟩
        · simp [decode, hf, Nat.lt_of_not_le hlen] at hd
  · rintro ⟨h, ops, f, rfl, hf, hlen, hi⟩
    simp [decode, hf, ← hlen, hi]

open Laws in
/-- The words of a well-formed command are a header and the operand words it calls for (R112, R114). -/
theorem encode_operands (i : Instr) : EncodeLength.Statement i := by
  cases i with
  | nop n => exact EncodeLength.nop n
  | readReg sel => exact EncodeLength.readReg sel
  | coreReset n => exact EncodeLength.coreReset n
  | firLoadReal taps => exact EncodeLength.firLoadReal taps
  | firLoadComplex ws => exact EncodeLength.firLoadComplex ws
  | firFilter n re im => exact EncodeLength.firFilter n re im
  | firFilterBlock cap xs => exact EncodeLength.firFilterBlock cap xs
  | firConvolve cap xs => exact EncodeLength.firConvolve cap xs
  | fllConfig sps rolloff bw flags taps => exact EncodeLength.fllConfig sps rolloff bw flags taps
  | fllProcess cap xs => exact EncodeLength.fllProcess cap xs
  | costasConfig params => exact EncodeLength.costasConfig params
  | costasProcess cap xs => exact EncodeLength.costasProcess cap xs
  | trConfig n sps kp ki cmax mode => exact EncodeLength.trConfig n sps kp ki cmax mode
  | trProcess cap xs => exact EncodeLength.trProcess cap xs
  | frConfig msLen meLen flags ms me => exact EncodeLength.frConfig msLen meLen flags ms me
  | frPushBits n ws => exact EncodeLength.frPushBits n ws
  | pipeConfig n flags => exact EncodeLength.pipeConfig n flags
  | pipeProcess cap xs => exact EncodeLength.pipeProcess cap xs

/-- A well-formed command is what its own words assemble to (R112, R113, R116). -/
theorem assemble_encode {i : Instr} {h : Word} {ops : List Word} (hwf : WellFormed i) (henc : encode i = h :: ops) :
    assemble (headerOpc h) (headerN h) ops = some i := by
  cases i <;> obtain ⟨rfl, rfl⟩ := List.cons.inj henc <;> rw [Laws.headerOpc_header, Laws.headerN_header]
  case nop | readReg | coreReset | firLoadReal | firLoadComplex | firFilter | costasConfig | trConfig | frPushBits |
      pipeConfig => rfl
  case firFilterBlock | firConvolve | fllConfig | fllProcess | costasProcess | trProcess | pipeProcess =>
    simp [assemble, pairWords_unpairWords]
  case frConfig msLen meLen flags ms me =>
    obtain ⟨hms, -⟩ : ms.length = byteWords msLen.toNat ∧ me.length = byteWords meLen.toNat := by
      simpa [WellFormed, Instr.wf] using hwf
    simp [assemble, Laws.msLenOf_append, Laws.meLenOf_append, ← hms]

/-- The operand words that a header calls for are the words of the command they assemble to (R112, R113, R114). -/
theorem encode_assemble {opc : Byte} {n : Count} {ops : List Word} {f : Format} {i : Instr} (hf : formatOf opc = some f)
    (hlen : ops.length = operandCount f n) (hi : assemble opc n ops = some i) : encode i = header opc n :: ops := by
  unfold assemble at hi
  split at hi <;> cases hi <;> rename_i hopc <;> obtain rfl := (BitVec.toNat_eq_nat.1 hopc).2 <;>
    obtain rfl := Option.some.inj hf
  -- F0 and FR, without operand words
  case h_1 | h_2 | h_3 =>
    obtain rfl := List.eq_nil_of_length_eq_zero hlen
    rfl
  -- FT and FC, `N` words
  case h_4 | h_5 | h_11 =>
    rw [encode, ← (BitVec.toNat_eq_nat.1 hlen.symm).2]
    rfl
  -- FS, FK5, FX and FK1, whose operands stand as they arrive
  case h_6 | h_13 | h_16 | h_17 => rfl
  -- FB, a capacity and `N` samples
  case h_7 cap ws | h_8 cap ws | h_10 cap ws | h_12 cap ws | h_14 cap ws | h_18 cap ws =>
    have hws : ws.length = 2 * n.toNat := by rw [List.length_cons, operandCount] at hlen; omega
    obtain ⟨hn, hsamples⟩ := samples_of_count hws
    rw [encode, hn, hsamples]
    rfl
  -- FF, four words and `N` samples
  case h_9 sps rolloff bw flags ws =>
    have hws : ws.length = 2 * n.toNat := by simp only [List.length_cons, operandCount] at hlen; omega
    obtain ⟨hn, hsamples⟩ := samples_of_count hws
    rw [encode, hn, hsamples]
    rfl
  -- FM, the flags and two packed markers
  case h_15 =>
    rw [encode, markerLengths_append, List.take_append_drop]
    rfl

/-! ## Headers that run no command -/

/-- R120's opcodes are the ones without a format. -/
theorem formatOf_unassigned {opc : Byte} (h : Claims.unassignedOpcode opc.toNat) : formatOf opc = none := by
  unfold Claims.unassignedOpcode at h
  unfold formatOf
  split
  case h_19 => rfl
  all_goals omega

theorem decode_unassigned {h : Word} (rest : List Word) (hf : formatOf (headerOpc h) = none) :
    decode (h :: rest) = .illegalOpcode rest := by
  simp only [decode, hf]

theorem decode_short {h : Word} {ws : List Word} {f : Format} (hf : formatOf (headerOpc h) = some f)
    (hlen : ws.length < operandCount f (headerN h)) : decode (h :: ws) = .truncated := by
  simp only [decode, hf, if_pos hlen]

/-- A step at an unassigned header (R120). -/
theorem step_illegalOpcode {s : State} {rest : List Word} (hd : decode s.cmdIn = .illegalOpcode rest) :
    step s = .next ((s.emit [statusWord 0x01 false]).consume rest 1) := by
  simp only [step, hd, raise_eq, afterCommand, errorNumber]

end Sys2Proof.Machine

namespace Sys2Proof.Claims

open Sys2Proof.Machine

/-- Settles O1: the command's words are a header and its operands (`encode_operands`), and they assemble to it. -/
theorem encodedCommandDecodesToItself : Obligations.EncodedCommandDecodesToItself := by
  intro i rest hwf
  obtain ⟨h, ops, f, henc, hf, hlen⟩ := encode_operands i hwf
  rw [henc]
  exact (decode_eq_command_iff _ _ _).2 ⟨h, ops, f, rfl, hf, hlen, assemble_encode hwf henc⟩

/-- Settles O2: the operand words that the decoder takes are those of the command they assemble to (`encode_assemble`). -/
theorem decodedWordsAreTheCommandsEncoding : Obligations.DecodedWordsAreTheCommandsEncoding := by
  intro ws i rest hd
  obtain ⟨h, ops, f, rfl, hf, hlen, hi⟩ := (decode_eq_command_iff _ _ _).1 hd
  refine ⟨decode_wellFormed hd, ?_⟩
  rw [encode_assemble hf hlen hi, header_fields, List.cons_append]

/-- Settles O3: each list is the encoding of its command, word for word. -/
theorem writtenOutWordsDecode : Obligations.WrittenOutWordsDecode :=
  ⟨encodedCommandDecodesToItself (.readReg 0x28) [] rfl,
    encodedCommandDecodesToItself (.firLoadReal [0x3F000000, 0x3E800000]) [] rfl,
    encodedCommandDecodesToItself (.costasConfig [0x447A0000, 0x41200000]) [] rfl,
    encodedCommandDecodesToItself (.frConfig 2 1 0 [0x4241] [0x43]) [] rfl⟩

/-- Settles O6: R120's opcodes have no format, so the step rejects the header. -/
theorem unassignedOpcodeAnswersIllegalOpcode : Obligations.UnassignedOpcodeAnswersIllegalOpcode := by
  intro s h rest hin hopc
  rw [← headerOpc_toNat] at hopc
  have hd : decode s.cmdIn = .illegalOpcode rest := hin ▸ decode_unassigned rest (formatOf_unassigned hopc)
  exact step_illegalOpcode hd

/-- Settles O7: the decoder answers that the CORE is idle, or that operand words are missing, and the step holds. -/
theorem shortStreamHoldsAllState : Obligations.ShortStreamHoldsAllState := by
  rintro s (hin | ⟨h, ws, f, hin, hf, hlen⟩)
  · simp only [step, hin, decode]
  · simp only [step, hin, decode_short hf hlen]

end Sys2Proof.Claims
end

section
/-!
PROOF. The response of a command (30_encoding.md R117, 60_exceptions.md R400): one status word, whose `MORE` bit only
TR_PROCESS and PIPE_PROCESS can set.
-/

namespace Sys2Proof.Machine

/-! ## The fields of a status word -/

theorem statusWord_toNat (err : Byte) (more : Bool) : (statusWord err more).toNat = 256 * more.toNat + err.toNat := by
  simp only [statusWord, toNat_append_eq, toNat_flagBit]
  simp

/-- Bits 31:9 are zero (R117). -/
theorem statusWord_lt (err : Byte) (more : Bool) : (statusWord err more).toNat < 512 := by
  have herr := err.isLt
  have hmore := Bool.toNat_le more
  rw [statusWord_toNat]; omega

/-- `ERR` (R117). -/
theorem statusWord_err (err : Byte) (more : Bool) : (statusWord err more).toNat % 256 = err.toNat := by
  rw [statusWord_toNat, Nat.mul_add_mod, Nat.mod_eq_of_lt err.isLt]

/-- `MORE` (R117). -/
theorem statusWord_getMore (err : Byte) (more : Bool) : (statusWord err more).getLsbD 8 = more := by
  have herr := err.isLt
  rw [BitVec.getLsbD, statusWord_toNat, Nat.testBit_eq_decide_div_mod_eq]
  cases more <;> simp <;> omega

/-- R400's codes. -/
theorem errorNumber_le (e : ErrorCode) : (errorNumber e).toNat ≤ 0x0D := by
  cases e <;> decide

/-! ## The word a command answers first -/

theorem statusOf_of_resp {s t : State} {st : Word} {out : List Word} (h : t.resp = s.resp ++ st :: out) :
    Claims.statusOf s t = st := by
  rw [Claims.statusOf, Claims.newWords, h, List.drop_left, List.headD_cons]

/-- A command answers one error word, or a status word without an error and its result words (R117, R401). -/
theorem exec_answers {i : Instr} {s t : State} (h : exec i s = .next t) :
    (∃ e, t.resp = s.resp ++ [statusWord (errorNumber e) false]) ∨
    ∃ more ws, t.resp = s.resp ++ statusWord 0 more :: ws := by
  obtain ⟨e, he⟩ | ⟨more, ws, u, hu, -, -, hresp⟩ := exec_ends i s
  · obtain rfl := (raise_next_iff _ _ _).1 (he.symm.trans h)
    exact .inl ⟨e, rfl⟩
  · obtain rfl := (complete_next_iff _ _ _ _).1 (hu.symm.trans h)
    exact .inr ⟨more, ws, by rw [State.emit_resp, hresp]⟩

/-! ## Which commands set `MORE` -/

/-- No next state that a result answers has `MORE` set in its response. -/
def NeverMore (s : State) (r : Result) : Prop := ∀ t, r = .next t → Claims.moreOf s t = false

theorem neverMore_raise (e : ErrorCode) (s : State) : NeverMore s (raise e s) := by
  intro t ht
  obtain rfl := (raise_next_iff _ _ _).1 ht
  rw [Claims.moreOf, statusOf_of_resp (State.emit_resp s _), statusWord_getMore]

theorem neverMore_complete {s u : State} (ws : List Word) (hresp : u.resp = s.resp) :
    NeverMore s (complete false ws u) := by
  intro t ht
  obtain rfl := (complete_next_iff _ _ _ _).1 ht
  rw [Claims.moreOf, statusOf_of_resp (hresp ▸ State.emit_resp u _), statusWord_getMore]

theorem neverMore_check {s : State} {c : Prop} [Decidable c] {e : ErrorCode} {r : Result} (h : NeverMore s r) :
    NeverMore s (if c then raise e s else r) := by
  split
  · exact neverMore_raise e s
  · exact h

theorem costasConfigure_neverMore (fs bwhz damp : F32) (s : State) : NeverMore s (costasConfigure fs bwhz damp s) :=
  neverMore_check (neverMore_check (neverMore_check (neverMore_check (neverMore_complete _ rfl))))

/-- Every command but TR_PROCESS and PIPE_PROCESS completes without `MORE`. -/
theorem exec_neverMore {i : Instr} (htr : ∀ cap xs, i ≠ .trProcess cap xs) (hpipe : ∀ cap xs, i ≠ .pipeProcess cap xs)
    (s : State) : NeverMore s (exec i s) := by
  cases i with
  | nop | coreReset | frPushBits => exact neverMore_check (neverMore_complete _ rfl)
  | firLoadReal | firFilter | firFilterBlock | fllProcess | costasProcess | pipeConfig =>
    exact neverMore_check (neverMore_check (neverMore_complete _ rfl))
  | firLoadComplex | frConfig => exact neverMore_check (neverMore_check (neverMore_check (neverMore_complete _ rfl)))
  | fllConfig =>
    exact neverMore_check (neverMore_check (neverMore_check (neverMore_check (neverMore_check (neverMore_check
      (neverMore_check (neverMore_complete _ rfl)))))))
  | readReg =>
    simp only [exec, execReadReg]
    split
    · exact neverMore_raise _ s
    · exact neverMore_complete _ rfl
  | firConvolve =>
    refine neverMore_check (neverMore_check ?_)
    split
    · exact neverMore_complete _ rfl
    · exact neverMore_check (neverMore_complete _ rfl)
  | costasConfig =>
    simp only [exec, execCostasConfig]
    split
    · exact costasConfigure_neverMore _ _ _ s
    · exact costasConfigure_neverMore _ _ _ s
    · exact neverMore_raise _ s
  | trConfig =>
    refine neverMore_check (neverMore_check (neverMore_check (neverMore_check ?_)))
    split
    · exact neverMore_raise _ s
    · exact neverMore_complete _ rfl
  | trProcess cap xs => exact absurd rfl (htr cap xs)
  | pipeProcess cap xs => exact absurd rfl (hpipe cap xs)

/-- `MORE` comes from TR_PROCESS or PIPE_PROCESS (R117). -/
theorem exec_more {i : Instr} {s t : State} (h : exec i s = .next t) (hmore : Claims.moreOf s t = true) :
    (∃ cap xs, i = .trProcess cap xs) ∨ ∃ cap xs, i = .pipeProcess cap xs := by
  by_contra hne
  push Not at hne
  obtain ⟨htr, hpipe⟩ := hne
  exact Bool.false_ne_true ((exec_neverMore htr hpipe s t h).symm.trans hmore)

end Sys2Proof.Machine

namespace Sys2Proof.Claims

open Sys2Proof.Machine

/-- Settles O10: the status word is an error's or a completion's (`exec_answers`), and `MORE` names its command. -/
theorem everyCommandAnswersOneStatusWord : Obligations.EveryCommandAnswersOneStatusWord := by
  intro i s t ht
  obtain ⟨e, hresp⟩ | ⟨more, ws, hresp⟩ := exec_answers ht
  · have hst := statusOf_of_resp hresp
    have hmore : moreOf s t = false := by rw [moreOf, hst, statusWord_getMore]
    refine ⟨⟨[], hst ▸ hresp, fun _ => rfl⟩, hst ▸ statusWord_lt _ _, ?_, fun h => by simp [hmore] at h⟩
    rw [errOf, hst, statusWord_err]
    exact errorNumber_le e
  · have hst := statusOf_of_resp hresp
    have herr : errOf s t = 0 := by rw [errOf, hst, statusWord_err]; rfl
    exact ⟨⟨ws, hst ▸ hresp, fun h => absurd herr h⟩, hst ▸ statusWord_lt _ _, herr ▸ Nat.zero_le _,
      fun hmore => ⟨herr, exec_more ht hmore⟩⟩

end Sys2Proof.Claims
end

section
/-!
PROOF. The control command without effect (40_control.md R150): NOP answers, and its one word leaves the stream.
-/

namespace Sys2Proof.Machine

/-- NOP with `N = 0` (R150). -/
theorem execNop_zero (s : State) : exec (.nop 0) s = .next (s.emit [0x00000000]) := by
  rw [← statusWord_ok]
  rfl

/-- NOP with another `N` (R150, R401). -/
theorem execNop_ne_zero {n : Count} (hn : n ≠ 0) (s : State) : exec (.nop n) s = .next (s.emit [0x00000002]) := by
  have hraise : exec (.nop n) s = raise .badLength s := if_pos hn
  rw [hraise, raise_eq, statusWord_error]
  rfl

theorem execNop_eq (n : Count) (s : State) :
    exec (.nop n) s = .next (s.emit [if n = 0 then 0x00000000 else 0x00000002]) := by
  by_cases hn : n = 0
  · rw [if_pos hn, hn, execNop_zero]
  · rw [if_neg hn, execNop_ne_zero hn]

/-- NOP's opcode is 0, so its header is `N` alone (R111). -/
theorem header_nop (n : Count) : header 0x00 n = n.setWidth 32 := by
  apply BitVec.eq_of_toNat_eq
  rw [header, toNat_append_eq, BitVec.toNat_setWidth_of_le (by decide), show (0x00 : Byte).toNat = 0 from rfl,
    Nat.mul_zero, Nat.zero_add]

/-- NOP has no operand words: the words after its header stay in the stream (R114, R115). -/
theorem decode_nop (n : Count) (rest : List Word) : decode (n.setWidth 32 :: rest) = .command (.nop n) rest := by
  rw [← header_nop]
  exact Claims.encodedCommandDecodesToItself (.nop n) rest rfl

end Sys2Proof.Machine

namespace Sys2Proof.Claims

open Sys2Proof.Machine

/-- Settles O22: the answer is `execNop_eq`'s, and the step takes the header alone from the stream (`decode_nop`). -/
theorem nopOnlyAnswers : Obligations.NopOnlyAnswers := by
  intro s n
  refine ⟨execNop_eq n s, fun rest hin => ?_⟩
  have hd : decode s.cmdIn = .command (.nop n) rest := hin ▸ decode_nop n rest
  have hone : s.cmdIn.length - rest.length = 1 := by rw [hin, List.length_cons, Nat.add_sub_cancel_left]
  rw [step_command hd (execNop_eq n s), hone]
  rfl

end Sys2Proof.Claims
end

section
/-!
PROOF. The FIR engine's commands (41_fir.md sections 1 to 3): what a load constructs (R162, R163), the filter's output as a
fold over its window (R160, R165), and a block as repeated single samples (R166, R167).
-/

namespace Sys2Proof.Machine

/-! ## The answers of a command -/

/-- An error's answer is its code alone (R400, R401). -/
theorem raise_eq_failed (e : ErrorCode) (s : State) :
    raise e s = .next (Claims.failed s (BitVec.ofNat 32 (errorNumber e).toNat)) := by
  rw [raise_eq, statusWord_error]
  rfl

/-- A completion without `MORE` answers OK and its result words (R117). -/
theorem complete_ok (ws : List Word) (s : State) :
    complete false ws s = .next { s with resp := s.resp ++ 0x00000000 :: ws } := by
  rw [complete_eq, statusWord_ok]
  rfl

theorem newWords_of_resp {s t : State} {ws : List Word} (h : t.resp = s.resp ++ ws) : Claims.newWords s t = ws := by
  rw [Claims.newWords, h, List.drop_left]

theorem execAll_cons {i : Instr} {s t : State} (h : exec i s = .next t) (is : List Instr) :
    Claims.execAll (i :: is) s = Claims.execAll is t := by
  rw [Claims.execAll, h]

/-! ## Loading taps -/

theorem firConstruct_realTaps (ws : List Word) : firConstruct false (realTaps ws) =
    { cfg := true, cplx := false, n := ws.length, taps := ws.map (fun h => ⟨h, 0⟩),
      dl := List.replicate ws.length ⟨0, 0⟩, cur := 0 } := by
  rw [firConstruct, show (realTaps ws).length = ws.length from List.length_map _]
  rfl

/-- FIR_LOAD_REAL of a legal number of taps (R162). -/
theorem execFirLoadReal_constructs {taps : List Word} (hpos : 1 ≤ taps.length) (hmax : taps.length ≤ Config.firMaxTaps)
    (s : State) : exec (.firLoadReal taps) s =
      .next { s with fir := firConstruct false (realTaps taps), fftCache := [], resp := s.resp ++ [0x00000000] } :=
  (if_neg (by omega)).trans ((if_neg (by omega)).trans (complete_ok [] _))

/-- Sample `k` of a list of words stands in words `2k` and `2k + 1` (R92, R163). -/
theorem pairWords_eq (ws : List Word) : pairWords ws =
    (List.range (ws.length / 2)).map (fun k => ⟨ws.getD (2 * k) 0, ws.getD (2 * k + 1) 0⟩) := by
  induction ws using pairWords.induct with
  | case1 a b ws ih =>
    have hhalf : (a :: b :: ws).length / 2 = ws.length / 2 + 1 := Nat.add_div_right _ two_pos
    rw [pairWords, ih, hhalf, List.range_succ_eq_map, List.map_cons, List.map_map]
    rfl
  | case2 ws hshort =>
    match ws with
    | [] => rfl
    | [_] => simp [pairWords]
    | a :: b :: ws => exact absurd rfl (hshort a b ws)

theorem firConstruct_pairWords (ws : List Word) : firConstruct true (pairWords ws) =
    { cfg := true, cplx := true, n := ws.length / 2,
      taps := (List.range (ws.length / 2)).map (fun k => ⟨ws.getD (2 * k) 0, ws.getD (2 * k + 1) 0⟩),
      dl := List.replicate (ws.length / 2) ⟨0, 0⟩, cur := 0 } := by
  rw [firConstruct, pairWords_length, pairWords_eq]
  rfl

/-- FIR_LOAD_COMPLEX of a legal number of words (R163). -/
theorem execFirLoadComplex_constructs {ws : List Word} (hpos : 1 ≤ ws.length) (heven : ws.length % 2 = 0)
    (hmax : ws.length / 2 ≤ Config.firMaxTaps) (s : State) : exec (.firLoadComplex ws) s =
      .next { s with fir := firConstruct true (pairWords ws), fftCache := [], resp := s.resp ++ [0x00000000] } :=
  (if_neg (by omega)).trans ((if_neg (by omega)).trans ((if_neg (by omega)).trans (complete_ok [] _)))

/-! ## The window sum -/

/-- Window element `i`, the oldest one first (R160). -/
def windowSample (f : FirState) (i : Nat) : C32 := memRead f.dl ((f.cur + i) % f.n)

/-- The tap that meets window element `i` (R160). -/
def windowTap (f : FirState) (i : Nat) : C32 := memRead f.taps (f.n - 1 - i)

/-- The product that window element `i` adds to the sum (R160). -/
def windowProduct (f : FirState) (i : Nat) : Draw C32 :=
  if f.cplx then cMul (windowTap f i) (windowSample f i) else rMul (windowTap f i).re (windowSample f i)

theorem firAccumulate_zero (f : FirState) (i : Nat) (acc : C32) (k : Nat) :
    runDraw (firAccumulate f 0 i acc) k = (acc, k) := rfl

theorem firAccumulate_succ (f : FirState) (left i : Nat) (acc : C32) : firAccumulate f (left + 1) i acc =
    (windowProduct f i >>= cAdd acc) >>= firAccumulate f left (i + 1) := by
  cases h : f.cplx <;> simp only [firAccumulate, windowProduct, h] <;> rfl

/-- The accumulation may be cut anywhere. -/
theorem firAccumulate_add (f : FirState) (a b i : Nat) (acc : C32) : firAccumulate f (a + b) i acc =
    firAccumulate f a i acc >>= firAccumulate f b (i + a) := by
  induction a generalizing i acc with
  | zero => rw [Nat.zero_add]; rfl
  | succ a ih =>
    have hrest : firAccumulate f (a + b) (i + 1) =
        fun acc => firAccumulate f a (i + 1) acc >>= firAccumulate f b (i + (a + 1)) :=
      funext fun acc => by rw [ih, Nat.add_assoc, Nat.add_comm 1 a]
    rw [Nat.add_right_comm, firAccumulate_succ, firAccumulate_succ, hrest]
    rfl

/-- The accumulation is a fold over the window. -/
theorem firAccumulate_eq_foldlM (f : FirState) (left i : Nat) (acc : C32) : firAccumulate f left i acc =
    (List.range' i left).foldlM (fun acc i => windowProduct f i >>= cAdd acc) acc := by
  induction left generalizing i acc with
  | zero => rfl
  | succ left ih =>
    rw [firAccumulate_succ, List.range'_succ, List.foldlM_cons]
    exact congrArg _ (funext fun acc => ih (i + 1) acc)

/-- The output of the statements is that fold, over the pushed filter's window. -/
theorem filterOutput_eq (f : FirState) (x : C32) : Claims.filterOutput f x =
    (List.range f.n).foldlM (fun acc i => windowProduct (firPush f x) i >>= cAdd acc) C32.zero := by
  unfold Claims.filterOutput
  congr 1
  funext acc i
  cases h : f.cplx <;> simp only [windowProduct, firPush_cplx, h] <;> rfl

/-- A filter step answers R160's window sum and leaves the pushed filter. -/
theorem firStep_run (f : FirState) (x : C32) (k : Nat) : runDraw (firStep f x) k =
    (((runDraw (Claims.filterOutput f x) k).1, firPush f x), (runDraw (Claims.filterOutput f x) k).2) := by
  have hsum : firAccumulate (firPush f x) f.n 0 C32.zero = Claims.filterOutput f x := by
    rw [firAccumulate_eq_foldlM, ← List.range_eq_range', filterOutput_eq]
  rw [firStep, hsum]
  rfl

/-! ## Streaming commands -/

/-- FIR_FILTER on a constructed filter (R165). -/
theorem execFirFilter_configured {s : State} (hcfg : s.fir.cfg = true) (re im : Word) :
    exec (.firFilter 0 re im) s = .next { s with
      fir := firPush s.fir ⟨re, im⟩, nanDraws := (runDraw (firStep s.fir ⟨re, im⟩) s.nanDraws).2,
      resp := s.resp ++ [0x00000000, (runDraw (firStep s.fir ⟨re, im⟩) s.nanDraws).1.1.re,
                         (runDraw (firStep s.fir ⟨re, im⟩) s.nanDraws).1.1.im] } := by
  simp only [exec, execFirFilter, hcfg, ne_eq, not_true_eq_false, Bool.true_eq_false, if_false, complete_ok]
  rfl

/-- FIR_FILTER_BLOCK on a constructed filter, with room for its outputs (R166). -/
theorem execFirFilterBlock_configured {s : State} (hcfg : s.fir.cfg = true) {cap : Word} {xs : List C32}
    (hcap : xs.length ≤ cap.toNat) : exec (.firFilterBlock cap xs) s = .next { s with
      fir := (runDraw (runBlock firStep s.fir xs) s.nanDraws).1.2,
      nanDraws := (runDraw (runBlock firStep s.fir xs) s.nanDraws).2,
      resp := s.resp ++ 0x00000000 :: unpairWords (runDraw (runBlock firStep s.fir xs) s.nanDraws).1.1 } := by
  simp only [exec, execFirFilterBlock, hcfg, Nat.not_lt.2 hcap, Bool.true_eq_false, if_false, complete_ok]
  rfl

/-- A block leaves a configured filter configured (R43). -/
theorem runBlock_firStep_cfg (f : FirState) (xs : List C32) (k : Nat) :
    (runDraw (runBlock firStep f xs) k).1.2.cfg = f.cfg := (ran_firStep_fixed ⟨xs, k, rfl⟩).2

/-- A FIR_FILTER of each sample in turn leaves what the block leaves, and answers its outputs one by one (R166). -/
theorem execAll_firFilter {s : State} (hcfg : s.fir.cfg = true) (xs : List C32) :
    Claims.execAll (xs.map (fun x => .firFilter 0 x.re x.im)) s = .next { s with
      fir := (runDraw (runBlock firStep s.fir xs) s.nanDraws).1.2,
      nanDraws := (runDraw (runBlock firStep s.fir xs) s.nanDraws).2,
      resp := s.resp ++
        (runDraw (runBlock firStep s.fir xs) s.nanDraws).1.1.flatMap (fun y => [0x00000000, y.re, y.im]) } := by
  induction xs generalizing s with
  | nil => simp [Claims.execAll]
  | cons x xs ih =>
    rw [List.map_cons, execAll_cons (execFirFilter_configured hcfg x.re x.im), ih, runBlock_cons, List.flatMap_cons,
      ← List.append_assoc]
    · rfl
    · exact hcfg

end Sys2Proof.Machine

namespace Sys2Proof.Claims

open Sys2Proof.Machine

/-- Settles O26: the checks in R162's order, and then the construction (`execFirLoadReal_constructs`). -/
theorem firLoadRealConstructs : Obligations.FirLoadRealConstructs := by
  intro s taps
  refine ⟨fun h => ?_, fun h => ?_, fun hpos hmax => ?_⟩
  · exact (if_pos h).trans (raise_eq_failed .emptyTaps s)
  · exact (if_neg (by omega)).trans ((if_pos h).trans (raise_eq_failed .tapsTooLong s))
  · rw [execFirLoadReal_constructs hpos hmax, firConstruct_realTaps]

/-- Settles O27: the checks in R163's order, and then the construction, its taps by index (`pairWords_eq`). -/
theorem firLoadComplexConstructs : Obligations.FirLoadComplexConstructs := by
  intro s ws
  refine ⟨fun h => ?_, fun h => ?_, fun heven h => ?_, fun hpos heven hmax => ?_⟩
  · exact (if_pos h).trans (raise_eq_failed .emptyTaps s)
  · exact (if_neg (by omega)).trans ((if_pos h).trans (raise_eq_failed .mismatchedTaps s))
  · exact (if_neg (by omega)).trans ((if_neg (by omega)).trans ((if_pos h).trans (raise_eq_failed .tapsTooLong s)))
  · rw [execFirLoadComplex_constructs hpos heven hmax, firConstruct_pairWords]

/-- Settles O28: the length check, and the filter step as a fold over the window (`firStep_run`). -/
theorem firFilterAnswersTheWindowSum : Obligations.FirFilterAnswersTheWindowSum := by
  intro s n re im
  refine ⟨fun hn => (if_pos hn).trans (raise_eq_failed .badLength s), fun hcfg => ?_⟩
  rw [execFirFilter_configured hcfg, firStep_run]
  rfl

/-- Settles O29: the single samples by induction (`execAll_firFilter`), the cut by `runBlock_append`. -/
theorem firFilterBlockIsRepeatedFirFilter : Obligations.FirFilterBlockIsRepeatedFirFilter := by
  intro s cap xs hcfg hcap
  refine ⟨_, _, _, runBlock_length firStep s.fir xs s.nanDraws, execFirFilterBlock_configured hcfg hcap,
    execAll_firFilter hcfg xs, ?_⟩
  rintro xs1 xs2 rfl
  rw [List.length_append] at hcap
  rw [runBlock_append]
  refine ⟨_, _, rfl, ?_⟩
  have hcfg2 := (runBlock_firStep_cfg s.fir xs1 s.nanDraws).trans hcfg
  rw [execAll_cons (execFirFilterBlock_configured hcfg (by omega)),
    execAll_cons (execFirFilterBlock_configured hcfg2 (by omega))]
  rfl

end Sys2Proof.Claims
end

section
/-!
PROOF. What a filter's window makes of its output (41_fir.md R160, R168, R169): the window after a push, a NaN that stands in
it, and a unit impulse that moves through it.
-/

namespace Sys2Proof.Machine

/-! ## The window -/

/-- After a push the window has moved by one, and the new sample is its youngest element (R160). -/
theorem windowSample_push {maxTaps : Nat} {f : FirState} (h : FirGood maxTaps f) (hcfg : f.cfg = true) (x : C32) {i : Nat}
    (hi : i < f.n) : windowSample (firPush f x) i = if i + 1 = f.n then x else windowSample f (i + 1) := by
  have hcur := h.cursor hcfg
  have hindex : ((f.cur + 1) % f.n + i) % f.n = (f.cur + (i + 1)) % f.n := by
    rw [Nat.mod_add_mod, Nat.add_assoc, Nat.add_comm 1 i]
  rw [windowSample, windowSample, firPush_dl, firPush_cur, firPush_n, hindex]
  split
  next hlast =>
    rw [hlast, Nat.add_mod_right, Nat.mod_eq_of_lt hcur]
    exact memRead_memWrite_same _ _ _ (h.dl_length ▸ hcur)
  next hother =>
    refine memRead_memWrite_other _ _ _ _ fun heq => ?_
    rcases Nat.lt_or_ge (f.cur + (i + 1)) f.n with hlt | hge
    · rw [Nat.mod_eq_of_lt hlt] at heq; omega
    · rw [Nat.mod_eq_sub_mod hge, Nat.mod_eq_of_lt (by omega)] at heq; omega

/-- Every element of the delay line stands in the window. -/
theorem exists_windowSample {maxTaps : Nat} {f : FirState} (h : FirGood maxTaps f) (hcfg : f.cfg = true) {c : C32}
    (hc : c ∈ f.dl) : ∃ i, i < f.n ∧ windowSample f i = c := by
  obtain ⟨p, hp, rfl⟩ := List.mem_iff_getElem.1 hc
  have hcur := h.cursor hcfg
  have hpn := h.dl_length ▸ hp
  have hindex : (f.cur + (p + (f.n - f.cur)) % f.n) % f.n = p := by
    rw [Nat.add_mod_mod, show f.cur + (p + (f.n - f.cur)) = p + f.n by omega, Nat.add_mod_right, Nat.mod_eq_of_lt hpn]
  refine ⟨(p + (f.n - f.cur)) % f.n, Nat.mod_lt _ (by omega), ?_⟩
  rw [windowSample, hindex, memRead, List.getD_eq_getElem _ _ hp]

/-! ## A NaN in the window -/

theorem orNaN_none_isNaN {o : Option F32} (h : o = none) (k : Nat) : isNaN (runDraw (orNaN o) k).1 = true :=
  h ▸ nanOf_isNaN _

theorem fAdd_isNaN {a b : F32} (h : isNaN a = true ∨ isNaN b = true) (k : Nat) :
    isNaN (runDraw (fAdd a b) k).1 = true :=
  orNaN_none_isNaN ((fAddCore_eq_none a b).2 (h.imp_right .inl)) k

theorem fSub_isNaN {a b : F32} (h : isNaN a = true ∨ isNaN b = true) (k : Nat) :
    isNaN (runDraw (fSub a b) k).1 = true :=
  fAdd_isNaN (h.imp_right (isNaN_fNeg b).trans) k

theorem fMul_isNaN {a b : F32} (h : isNaN b = true) (k : Nat) : isNaN (runDraw (fMul a b) k).1 = true :=
  orNaN_none_isNaN ((fMulCore_eq_none a b).2 (.inr (.inl h))) k

section
variable {part : C32 → F32} (hpart : part = C32.re ∨ part = C32.im)
include hpart

/-- A sum keeps a NaN component of either term. -/
theorem cAdd_isNaN {a b : C32} (h : isNaN (part a) = true ∨ isNaN (part b) = true) (k : Nat) :
    isNaN (part (runDraw (cAdd a b) k).1) = true := by
  obtain rfl | rfl := hpart <;> exact fAdd_isNaN h _

/-- A window product keeps a NaN component of the sample, with a real or a complex tap: the component meets the tap's real
part in the same component of the product (R12). -/
theorem windowProduct_isNaN {f : FirState} {i : Nat} (h : isNaN (part (windowSample f i)) = true) (k : Nat) :
    isNaN (part (runDraw (windowProduct f i) k).1) = true := by
  unfold windowProduct
  cases f.cplx
  · obtain rfl | rfl := hpart <;> exact fMul_isNaN h _
  · obtain rfl | rfl := hpart
    · exact fSub_isNaN (.inl (fMul_isNaN h _)) _
    · exact fAdd_isNaN (.inl (fMul_isNaN h _)) _

/-- The sum keeps a NaN component once it has one. -/
theorem firAccumulate_keeps_isNaN (f : FirState) (left i : Nat) {acc : C32} (h : isNaN (part acc) = true) (k : Nat) :
    isNaN (part (runDraw (firAccumulate f left i acc) k).1) = true := by
  induction left generalizing i acc k with
  | zero => exact h
  | succ left ih =>
    rw [firAccumulate_succ, runDraw_bind, runDraw_bind]
    exact ih _ (cAdd_isNaN hpart (.inl h) _) _

/-- A NaN component of a window element reaches the output (R169). -/
theorem firAccumulate_isNaN {f : FirState} {i : Nat} (hi : i < f.n) (h : isNaN (part (windowSample f i)) = true)
    (acc : C32) (k : Nat) : isNaN (part (runDraw (firAccumulate f f.n 0 acc) k).1) = true := by
  obtain ⟨d, hd⟩ := Nat.exists_eq_add_of_lt hi
  rw [hd, Nat.add_assoc, firAccumulate_add, runDraw_bind, firAccumulate_succ, runDraw_bind, runDraw_bind]
  refine firAccumulate_keeps_isNaN hpart _ _ _ (cAdd_isNaN hpart (.inr (windowProduct_isNaN hpart ?_ _)) _) _
  rwa [Nat.zero_add]

/-- The same of a filter step, whose window is that of the pushed filter. -/
theorem firStep_isNaN {maxTaps : Nat} {f : FirState} (h : FirGood maxTaps f) (hcfg : f.cfg = true) {x : C32}
    (hnan : ∃ c ∈ f.dl.set f.cur x, isNaN (part c) = true) (k : Nat) : isNaN (part (runDraw (firStep f x) k).1.1) = true := by
  obtain ⟨c, hc, hcnan⟩ := hnan
  obtain ⟨i, hi, rfl⟩ := exists_windowSample (firGood_push h hcfg x) hcfg hc
  exact firAccumulate_isNaN hpart hi hcnan C32.zero k
end

/-! ## Zeros and ones in a sum -/

/-- Adding a zero to a finite value changes nothing but the sign of a zero. -/
theorem fAddCore_zero {a z : F32} (ha : isFinite a = true) (hz : lowBits z = 0) :
    fAddCore a z = some (if lowBits a = 0 then fPack (fSign a && fSign z) 0 else a) := by
  have hzfin : isFinite z = true := (isFinite_iff z).2 (by omega)
  rw [fAddCore, isNaN_of_isFinite ha, isNaN_of_isFinite hzfin, isInf_of_isFinite ha, isInf_of_isFinite hzfin,
    (fVal_eq_zero z).2 hz, add_zero, fVal_natAbs]
  simp only [Bool.or_self, Bool.false_eq_true, if_false, fVal_eq_zero]
  split
  · rfl
  next hne =>
    have hmag : fMag a ≠ 0 := mt (fMag_eq_zero a).1 hne
    have hsign : decide (fVal a < 0) = fSign a := by
      rw [fVal]
      cases fSign a
      · simp
      · simpa using Nat.pos_of_ne_zero hmag
    have hround := roundMag_fMag ha 1 one_pos
    rw [mul_one] at hround
    rw [hround, hsign, fPack_fields]

/-- The sum of two finite values does not depend on their order. -/
theorem fAddCore_comm {a b : F32} (ha : isFinite a = true) (hb : isFinite b = true) : fAddCore a b = fAddCore b a := by
  rw [fAddCore, fAddCore, isNaN_of_isFinite ha, isNaN_of_isFinite hb, isInf_of_isFinite ha, isInf_of_isFinite hb,
    add_comm (fVal b), Bool.and_comm (fSign b)]
  rfl

/-- `v` with +0.0 for -0.0, as adding it to +0.0 leaves it (R168). -/
def plusZero (v : F32) : F32 := if v = 0x80000000 then 0 else v

/-- A finite value other than -0.0. -/
def Settled (v : F32) : Prop := isFinite v = true ∧ v ≠ 0x80000000

theorem eq_zero_of_lowBits {v : F32} (h : lowBits v = 0) : v = 0 ∨ v = 0x80000000 := by
  rw [← fPack_fields v, h]
  cases fSign v
  · exact .inl rfl
  · exact .inr rfl

/-- Adding a zero of either sign leaves a value other than -0.0. -/
theorem fAdd_settled_zero {a z : F32} (ha : Settled a) (hz : lowBits z = 0) (k : Nat) : runDraw (fAdd a z) k = (a, k) := by
  have hsum : fAddCore a z = some a := by
    rw [fAddCore_zero ha.1 hz]
    split
    next h0 =>
      rw [(eq_zero_of_lowBits h0).resolve_right ha.2]
      rfl
    · rfl
  rw [fAdd, hsum, runDraw_orNaN_some]

/-- Adding a finite value to +0.0 leaves it, and +0.0 for -0.0. -/
theorem fAdd_zero_left {v : F32} (hv : isFinite v = true) (k : Nat) : runDraw (fAdd 0 v) k = (plusZero v, k) := by
  have hsum : fAddCore 0 v = some (plusZero v) := by
    rw [fAddCore_comm (by decide) hv, fAddCore_zero hv (by decide), show fSign 0 = false by decide, Bool.and_false, plusZero]
    split
    next h0 =>
      obtain rfl | rfl := eq_zero_of_lowBits h0
      · rfl
      · rfl
    next hne => rw [if_neg fun (h : v = 0x80000000) => hne (by rw [h]; decide)]
  rw [fAdd, hsum, runDraw_orNaN_some]

theorem settled_zero : Settled 0 := ⟨by decide, by decide⟩

theorem settled_plusZero {v : F32} (hv : isFinite v = true) : Settled (plusZero v) := by
  unfold plusZero
  split
  · exact settled_zero
  · exact ⟨hv, ‹_›⟩

/-- A finite value times a zero is a zero. -/
theorem fMul_zero {h : F32} (hh : isFinite h = true) (k : Nat) : ∃ z, lowBits z = 0 ∧ runDraw (fMul h 0) k = (z, k) := by
  refine ⟨fPack (fSign h != fSign 0) 0, lowBits_fPack _ _ (by norm_num), ?_⟩
  rw [fMul, fMulCore_finite hh (by decide), show fMag 0 = 0 by decide, Nat.mul_zero, show roundMag 0 (2 ^ 149) = 0 by decide,
    runDraw_orNaN_some]

/-- A finite value times 1.0 is that value. -/
theorem fMul_one {h : F32} (hh : isFinite h = true) (k : Nat) : runDraw (fMul h f1) k = (h, k) := by
  have hmul : fMulCore h f1 = some h :=
    fMulCore_exact hh (by decide) hh (by rw [show fMag f1 = 2 ^ 149 by decide])
      (by rw [show fSign f1 = false by decide, Bool.bne_false])
  rw [fMul, hmul, runDraw_orNaN_some]

/-! ## A unit impulse in the window -/

/-- The unit impulse (R168). -/
def impulse : C32 := ⟨f1, 0⟩

/-- A filter of the finite real taps `ws` whose window holds a unit impulse that `t` zeros followed, among zeros; the impulse
has left the window from `t = n` on. -/
structure HoldsImpulse (ws : List Word) (t : Nat) (f : FirState) : Prop where
  good : FirGood Config.firMaxTaps f
  configured : f.cfg = true
  real : f.cplx = false
  taps : f.taps = realTaps ws
  window : ∀ i < f.n, windowSample f i = if i + t + 1 = f.n then impulse else C32.zero

/-- An impulse into a cleared filter (R162). -/
theorem holdsImpulse_first {ws : List Word} (hpos : 1 ≤ ws.length) (hmax : ws.length ≤ Config.firMaxTaps) :
    HoldsImpulse ws 0 (firPush (firConstruct false (realTaps ws)) impulse) := by
  have hlen : (realTaps ws).length = ws.length := List.length_map _
  have hgood : FirGood Config.firMaxTaps (firConstruct false (realTaps ws)) :=
    firGood_construct (hlen ▸ hpos) (hlen ▸ hmax) fun _ => realTaps_im ws
  refine ⟨firGood_push hgood rfl _, rfl, rfl, rfl, fun i hi => ?_⟩
  rw [windowSample_push hgood rfl _ hi, Nat.add_zero, firPush_n]
  split
  · rfl
  · exact memRead_memClear _ _

/-- Another zero moves the impulse by one. -/
theorem HoldsImpulse.push_zero {ws : List Word} {t : Nat} {f : FirState} (h : HoldsImpulse ws t f) :
    HoldsImpulse ws (t + 1) (firPush f C32.zero) := by
  refine ⟨firGood_push h.good h.configured _, h.configured, h.real, h.taps, fun i hi => ?_⟩
  rw [windowSample_push h.good h.configured _ hi, firPush_n]
  rw [firPush_n] at hi
  split
  next hlast => rw [if_neg (by omega)]
  next hother => rw [h.window (i + 1) (by omega), show i + 1 + t + 1 = i + (t + 1) + 1 by omega]

theorem memRead_realTaps (ws : List Word) (i : Nat) : (memRead (realTaps ws) i).re = ws.getD i 0 := by
  rw [memRead, realTaps, List.getD, List.getD, List.getElem?_map]
  cases ws[i]? <;> rfl

/-- A zero in the window leaves the sum of a filter of finite real taps. -/
theorem runDraw_windowProduct_zero {f : FirState} {i : Nat} (hreal : f.cplx = false)
    (htap : isFinite (windowTap f i).re = true) (hw : windowSample f i = C32.zero) {acc : C32} (hre : Settled acc.re)
    (him : Settled acc.im) (k : Nat) : runDraw (windowProduct f i >>= cAdd acc) k = (acc, k) := by
  obtain ⟨z, hz, hmul⟩ := fMul_zero htap k
  simp only [windowProduct, hreal, Bool.false_eq_true, if_false, hw, rMul, cAdd, C32.zero, runDraw_bind, runDraw_pure, hmul,
    fAdd_settled_zero hre hz, fAdd_settled_zero him hz]

/-- The impulse in the window puts its tap into an empty sum. -/
theorem runDraw_windowProduct_impulse {f : FirState} {i : Nat} (hreal : f.cplx = false)
    (htap : isFinite (windowTap f i).re = true) (hw : windowSample f i = impulse) (k : Nat) :
    runDraw (windowProduct f i >>= cAdd C32.zero) k = (⟨plusZero (windowTap f i).re, 0⟩, k) := by
  obtain ⟨z, hz, hmul⟩ := fMul_zero htap k
  simp only [windowProduct, hreal, Bool.false_eq_true, if_false, hw, rMul, cAdd, C32.zero, impulse, runDraw_bind,
    runDraw_pure, hmul, fMul_one htap, fAdd_zero_left htap, fAdd_settled_zero settled_zero hz]

/-- A stretch of zeros in the window leaves the sum. -/
theorem firAccumulate_zeros {f : FirState} (hreal : f.cplx = false) (htaps : ∀ i, isFinite (windowTap f i).re = true)
    {acc : C32} (hre : Settled acc.re) (him : Settled acc.im) (left i k : Nat)
    (hw : ∀ j, i ≤ j → j < i + left → windowSample f j = C32.zero) :
    runDraw (firAccumulate f left i acc) k = (acc, k) := by
  induction left generalizing i with
  | zero => rfl
  | succ left ih =>
    rw [firAccumulate_succ, runDraw_bind,
      runDraw_windowProduct_zero hreal (htaps i) (hw i le_rfl (by omega)) hre him]
    exact ih (i + 1) fun j hj hlt => hw j (by omega) (by omega)

theorem HoldsImpulse.count {ws : List Word} {t : Nat} {f : FirState} (h : HoldsImpulse ws t f) : ws.length = f.n := by
  rw [← h.good.taps_length, h.taps]
  exact (List.length_map _).symm

theorem HoldsImpulse.windowTap_re {ws : List Word} {t : Nat} {f : FirState} (h : HoldsImpulse ws t f) (i : Nat) :
    (windowTap f i).re = ws.getD (f.n - 1 - i) 0 := by
  rw [windowTap, h.taps, memRead_realTaps]

theorem getD_finite {ws : List Word} (h : ∀ w ∈ ws, isFinite w = true) (i : Nat) : isFinite (ws.getD i 0) = true := by
  rw [List.getD]
  cases hi : ws[i]? with
  | none => decide
  | some w => exact h w (List.mem_of_getElem? hi)

/-- The output while the impulse stands in the window is the tap that it meets, and +0.0 after it has left (R168). -/
theorem HoldsImpulse.output {ws : List Word} {t : Nat} {f : FirState} (h : HoldsImpulse ws t f)
    (hfin : ∀ w ∈ ws, isFinite w = true) (k : Nat) :
    runDraw (firAccumulate f f.n 0 C32.zero) k = (⟨plusZero (ws.getD t 0), 0⟩, k) := by
  have htaps : ∀ i, isFinite (windowTap f i).re = true := fun i => h.windowTap_re i ▸ getD_finite hfin _
  have hzeros (acc : C32) (hre : Settled acc.re) (him : Settled acc.im) (left i : Nat) (hle : i + left ≤ f.n)
      (hne : ∀ j, i ≤ j → j < i + left → j + t + 1 ≠ f.n) : runDraw (firAccumulate f left i acc) k = (acc, k) :=
    firAccumulate_zeros h.real htaps hre him left i k fun j hj hlt =>
      (h.window j (by omega)).trans (if_neg (hne j hj hlt))
  rcases Nat.lt_or_ge t f.n with hlt | hge
  · obtain ⟨p, hp⟩ : ∃ p, f.n = p + (t + 1) := ⟨f.n - (t + 1), by omega⟩
    have hw : windowSample f p = impulse := (h.window p (by omega)).trans (if_pos (by omega))
    have htap : (windowTap f p).re = ws.getD t 0 := by rw [h.windowTap_re, show f.n - 1 - p = t by omega]
    rw [hp, firAccumulate_add, runDraw_bind, hzeros C32.zero settled_zero settled_zero p 0 (by omega) (by omega), Nat.zero_add,
      firAccumulate_succ, runDraw_bind, runDraw_windowProduct_impulse h.real (htaps p) hw, htap]
    exact hzeros ⟨_, 0⟩ (settled_plusZero (getD_finite hfin t)) settled_zero t (p + 1) (by omega) (by omega)
  · rw [hzeros C32.zero settled_zero settled_zero f.n 0 (by omega) (by omega), List.getD_eq_default _ _ (h.count.trans_le hge)]
    rfl

/-- The outputs over the zeros that follow are the taps that follow, and zeros after them (R168). -/
theorem HoldsImpulse.outputs {ws : List Word} {t : Nat} {f : FirState} (h : HoldsImpulse ws t f)
    (hfin : ∀ w ∈ ws, isFinite w = true) (m k : Nat) :
    (runDraw (runBlock firStep f (List.replicate m C32.zero)) k).1.1 =
      (List.range m).map (fun j => ⟨plusZero (ws.getD (t + 1 + j) 0), 0⟩) := by
  induction m generalizing t f k with
  | zero => rfl
  | succ m ih =>
    have hfirst : (runDraw (firStep f C32.zero) k).1.1 = ⟨plusZero (ws.getD (t + 1) 0), 0⟩ :=
      congrArg Prod.fst (h.push_zero.output hfin k)
    rw [List.replicate_succ, runBlock_cons, firStep_state, hfirst, ih h.push_zero, List.range_succ_eq_map, List.map_cons,
      List.map_map]
    simp only [Function.comp_def, Nat.succ_eq_add_one, Nat.add_right_comm, Nat.add_assoc, Nat.add_zero]

/-- A freshly loaded filter answers a unit impulse and zeros with its taps (R168). -/
theorem impulse_outputs {ws : List Word} (hpos : 1 ≤ ws.length) (hmax : ws.length ≤ Config.firMaxTaps)
    (hfin : ∀ w ∈ ws, isFinite w = true) (m k : Nat) :
    (runDraw (runBlock firStep (firConstruct false (realTaps ws)) (impulse :: List.replicate m C32.zero)) k).1.1 =
      (List.range (m + 1)).map (fun t => ⟨plusZero (ws.getD t 0), 0⟩) := by
  have h := holdsImpulse_first hpos hmax
  have hfirst : (runDraw (firStep (firConstruct false (realTaps ws)) impulse) k).1.1 = ⟨plusZero (ws.getD 0 0), 0⟩ :=
    congrArg Prod.fst (h.output hfin k)
  rw [runBlock_cons, firStep_state, hfirst, h.outputs hfin, List.range_succ_eq_map, List.map_cons, List.map_map]
  simp only [Function.comp_def, Nat.succ_eq_add_one, Nat.zero_add, Nat.add_comm 1]

end Sys2Proof.Machine

namespace Sys2Proof.Claims

open Sys2Proof.Machine

/-- Settles O31: the load clears the delay line, and the block's outputs are those of an impulse (`impulse_outputs`). -/
theorem impulseAnswersTheTaps : Obligations.ImpulseAnswersTheTaps := by
  intro s s1 s2 taps cap m hpos hmax hfin hm hload hblock
  cases (execFirLoadReal_constructs hpos hmax s).symm.trans hload
  have hcap : (impulse :: List.replicate m C32.zero).length ≤ cap.toNat := by
    rw [List.length_cons, List.length_replicate]
    exact hm
  cases (execFirFilterBlock_configured rfl hcap).symm.trans hblock
  rw [newWords_of_resp rfl, impulse_outputs hpos hmax hfin]
  rfl

/-- Settles O32: the NaN component passes its product and stays in the sum, for either component (`firStep_isNaN`). -/
theorem naNInTheWindowGivesNaN : Obligations.NaNInTheWindowGivesNaN := by
  intro f x k hgood hcfg
  exact ⟨fun h => firStep_isNaN (.inl rfl) hgood hcfg h k, fun h => firStep_isNaN (.inr rfl) hgood hcfg h k⟩

end Sys2Proof.Claims
end

section
/-!
PROOF. The two convolution modes (41_fir.md section 4): the FFT size (R171), what FIR_CONVOLVE answers (R170), and the limits
of R6 and R172 read over the exact sum of R161.
-/

namespace Sys2Proof.Machine

/-! ## The size -/

/-- The model's size is the least power of two at or above `m` (R171). -/
theorem isFftSize_fftSize (m : Nat) : Claims.isFftSize m (fftSize m) := by
  unfold fftSize
  split
  · exact ⟨⟨0, rfl⟩, ‹_›, fun k _ => Nat.one_le_two_pow⟩
  · have hlt := @Nat.lt_log2_self (m - 1)
    refine ⟨⟨_, rfl⟩, by omega, fun k hk => Nat.pow_le_pow_right two_pos ?_⟩
    exact (Nat.log2_lt (by omega)).2 (by omega)

/-- There is one such size. -/
theorem eq_fftSize {m size : Nat} (h : Claims.isFftSize m size) : size = fftSize m := by
  obtain ⟨⟨k, rfl⟩, hle, hleast⟩ := h
  obtain ⟨⟨l, hl⟩, hle', hleast'⟩ := isFftSize_fftSize m
  exact le_antisymm (hl ▸ hleast l (hl ▸ hle')) (hleast' k hle)

/-! ## The command -/

/-- FIR_CONVOLVE on a constructed filter, with room for its outputs (R170). -/
theorem execFirConvolve_configured {s : State} (hcfg : s.fir.cfg = true) {cap : Word} {xs : List C32}
    (hcap : xs.length ≤ cap.toNat) : exec (.firConvolve cap xs) s =
      if xs.length = 0 then complete false [] s
      else if Config.fftMax < fftSize (xs.length + s.fir.n - 1) then raise .fftTooLarge s
      else complete false (unpairWords (fftConvolve s.fir xs (fftSize (xs.length + s.fir.n - 1))))
        (s.withCache (cacheSize s.fftCache (fftSize (xs.length + s.fir.n - 1)))) := by
  simp only [exec, execFirConvolve, hcfg, Nat.not_lt.2 hcap, Bool.true_eq_false, if_false]

/-- Where its size is one of the build's, FIR_CONVOLVE completes with the FFT-mode result, which is empty for an empty
input (R170). -/
theorem execFirConvolve_completes {s : State} (hcfg : s.fir.cfg = true) {cap : Word} {xs : List C32}
    (hcap : xs.length ≤ cap.toNat) {size : Nat} (hsize : size = fftSize (xs.length + s.fir.n - 1))
    (hmax : size ≤ Config.fftMax) : ∃ t, exec (.firConvolve cap xs) s = .next t ∧
      t.resp = s.resp ++ 0x00000000 :: unpairWords (fftConvolve s.fir xs size) := by
  rw [execFirConvolve_configured hcfg hcap, ← hsize]
  split
  next hnil =>
    obtain rfl := List.length_eq_zero_iff.1 hnil
    exact ⟨_, complete_ok [] s, rfl⟩
  next => exact ⟨_, (if_neg (Nat.not_lt.2 hmax)).trans (complete_ok _ _), rfl⟩

/-! ## The limits -/

/-- A filter with its delay line cleared is a freshly constructed one (R162, R163). -/
theorem cleared_eq_firConstruct {maxTaps : Nat} {f : FirState} (h : FirGood maxTaps f) (hcfg : f.cfg = true) :
    { f with dl := List.replicate f.n ⟨0, 0⟩, cur := 0 } = firConstruct f.cplx f.taps := by
  rw [firConstruct, h.taps_length, ← hcfg]
  rfl

/-- What R6 and R172 ask of a component does not depend on the encoding of a NaN in the direct result. -/
theorem FftLimits.of_same {tol exact : Rat} {v d y : F32} (h : FftLimits tol v d exact) (hsame : SameF y d) :
    FftLimits tol v y exact := by
  by_cases hy : isFinite y = true
  · exact hsame.symm.eq_of_finite hy ▸ h
  · exact ⟨fun hfin => absurd hfin hy, fun hex => h.2 (.inr (hex.resolve_left hy))⟩

/-- Real taps have no imaginary part, at any index (R162). -/
theorem memRead_im_zero {taps : List C32} (h : ∀ c ∈ taps, c.im = 0) (k : Nat) : (memRead taps k).im = 0 := by
  rw [memRead, List.getD]
  cases hk : taps[k]? with
  | none => rfl
  | some c => exact h c (List.mem_of_getElem? hk)

theorem fRat_zero : fRat 0 = 0 := by rw [fRat, fVal_zero, Int.cast_zero, zero_div]

/-- The exact products of a good filter's taps are complex products, of real taps too (R161). -/
theorem exactParts_eq {maxTaps : Nat} {f : FirState} (h : FirGood maxTaps f) (k : Nat) (x : C32) :
    exactRe f.cplx (memRead f.taps k) x =
      fRat (memRead f.taps k).re * fRat x.re - fRat (memRead f.taps k).im * fRat x.im ∧
    exactIm f.cplx (memRead f.taps k) x =
      fRat (memRead f.taps k).re * fRat x.im + fRat (memRead f.taps k).im * fRat x.re := by
  cases hc : f.cplx with
  | true => exact ⟨rfl, rfl⟩
  | false =>
    rw [memRead_im_zero (h.real_taps hc) k, fRat_zero, zero_mul, zero_mul]
    exact ⟨rfl, rfl⟩

/-- The exact slice is R161's sum, of any products that agree on these taps. -/
theorem exactSlice_congr {part part' : C32 → C32 → Rat} {taps : List C32}
    (h : ∀ k x, part (memRead taps k) x = part' (memRead taps k) x) (xs : List C32) (j : Nat) :
    exactSlice part taps xs j = Claims.exactConvolution part' taps xs j := by
  refine Eq.trans ?_ (Finset.sum_congr rfl fun k _ => h k (memRead xs (j - k)))
  rfl

/-- The exact slice of a good filter is the sum of R161 with complex products. -/
theorem exactSlices_eq {maxTaps : Nat} {f : FirState} (h : FirGood maxTaps f) (xs : List C32) (j : Nat) :
    exactSlice (exactRe f.cplx) f.taps xs j =
      Claims.exactConvolution (fun h x => fRat h.re * fRat x.re - fRat h.im * fRat x.im) f.taps xs j ∧
    exactSlice (exactIm f.cplx) f.taps xs j =
      Claims.exactConvolution (fun h x => fRat h.re * fRat x.im + fRat h.im * fRat x.re) f.taps xs j :=
  ⟨exactSlice_congr (fun k x => (exactParts_eq h k x).1) xs j, exactSlice_congr (fun k x => (exactParts_eq h k x).2) xs j⟩

/-- The data of a FIR_CONVOLVE that the CORE accepts is data that the build's limits speak of. -/
theorem convolvable_of_good {f : FirState} (h : FirGood Config.firMaxTaps f) (hcfg : f.cfg = true) {xs : List C32}
    {size : Nat} (hlen : xs.length < 2 ^ 24) (hsize : size = fftSize (xs.length + f.n - 1)) (hmax : size ≤ Config.fftMax)
    (hfin : ∀ c ∈ f.taps ++ xs, isFinite c.re = true ∧ isFinite c.im = true) : Convolvable f.taps f.cplx xs size where
  finite := List.all_eq_true.2 fun c hc => Bool.and_eq_true_iff.2 (hfin c hc)
  some_tap := h.taps_length ▸ (Nat.zero_le _).trans_lt (h.cursor hcfg)
  taps_within := h.taps_length ▸ h.within
  real_taps := h.real_taps
  samples_counted := hlen
  size_eq := h.taps_length ▸ hsize
  size_within := hmax

theorem fftConvolve_getD {f : FirState} {xs : List C32} {j : Nat} (hj : j < xs.length) (size : Nat) :
    (fftConvolve f xs size).getD j ⟨0, 0⟩ = pFftConv f.taps f.cplx xs size j := by
  simp [fftConvolve, hj]

/-- Lists related element by element are related at every index, past their end by the default. -/
theorem forall₂_getD {α β : Type} {R : α → β → Prop} {l : List α} {m : List β} (h : List.Forall₂ R l m) {a : α} {b : β}
    (hab : R a b) (j : Nat) : R (l.getD j a) (m.getD j b) := by
  induction h generalizing j with
  | nil => exact hab
  | cons hxy _ ih =>
    cases j with
    | zero => exact hxy
    | succ j => exact ih j

/-- The outputs of a freshly constructed filter are the direct result, whatever NaN encodings they draw. -/
theorem freshOutputs_same (cplx : Bool) (taps xs : List C32) (k j : Nat) :
    SameC ((runDraw (runBlock firStep (firConstruct cplx taps) xs) k).1.1.getD j ⟨0, 0⟩)
      (memRead (directResult cplx taps xs) j) :=
  forall₂_getD (runBlock_firStep_same (firConstruct cplx taps) xs k 0).1 (.refl _) j

end Sys2Proof.Machine

namespace Sys2Proof.Claims

open Sys2Proof.Machine

/-- Settles O30: the size is the model's (`eq_fftSize`), and the answer is the command's last two checks. -/
theorem firConvolveAnswersTheFftResult : Obligations.FirConvolveAnswersTheFftResult := by
  intro s cap xs hcfg hcap
  have hexec := execFirConvolve_configured hcfg hcap
  refine ⟨fun hnil => ?_, fun size hne hsize => ?_⟩
  · exact hexec.trans ((if_pos (List.length_eq_zero_iff.2 hnil)).trans (complete_ok [] s))
  · obtain rfl := eq_fftSize hsize
    rw [if_neg (mt List.length_eq_zero_iff.1 hne)] at hexec
    exact ⟨fun hle => hexec.trans ((if_neg (Nat.not_lt.2 hle)).trans (complete_ok _ _)),
      fun hgt => hexec.trans ((if_pos hgt).trans (raise_eq_failed .fftTooLarge s))⟩

/-- Settles O60: the limits that the build's function carries (`pFftConv_limits`), the streaming outputs being the direct
result up to NaN encodings (`freshOutputs_same`). -/
theorem convolveAgreesWithStreaming : Obligations.ConvolveAgreesWithStreaming := by
  intro s cap xs size hgood hcfg hwf hcap hsize hmax hfin near agree
  have hsize := eq_fftSize hsize
  obtain ⟨t, ht, htresp⟩ := execFirConvolve_completes hcfg hcap hsize hmax
  have hdata := convolvable_of_good hgood hcfg (of_decide_eq_true hwf) hsize hmax hfin
  rw [cleared_eq_firConstruct hgood hcfg]
  refine ⟨buildFft.property.1, _, _, t, _, ?_, runBlock_length firStep (firConstruct s.fir.cplx s.fir.taps) xs s.nanDraws,
    ht, newWords_of_resp htresp, execFirFilterBlock_configured rfl hcap, newWords_of_resp rfl, fun j hj => ?_⟩
  · simp [fftConvolve]
  · obtain ⟨hre, him⟩ := pFftConv_limits s.fir.cplx s.fir.taps xs size j hdata hj
    have hsame := freshOutputs_same s.fir.cplx s.fir.taps xs s.nanDraws j
    obtain ⟨hexRe, hexIm⟩ := exactSlices_eq hgood xs j
    rw [fftConvolve_getD hj, ← hexRe, ← hexIm]
    exact ⟨hre.of_same hsame.1, him.of_same hsame.2⟩

end Sys2Proof.Claims
end

section
/-!
PROOF. The frequency-locked loop's commands (42_fll.md): the checks and the construction of FLL_CONFIG (R201, R203), one
sample of FLL_PROCESS and a block as repeated single samples (R204, R210), and the restart on a NaN input (R209).
-/

namespace Sys2Proof.Machine

/-! ## A chain of checks -/

/-- A command's answer once its checks have found an error, or have found none and left the answer to `r` (R404). -/
def checkedAnswer (s : State) (r : Result) : Option Word → Result
  | some e => .next (Claims.failed s e)
  | none => r

/-- One check of the model, and the same check in front of the rest of the statement's. -/
theorem raise_check {c d : Prop} [Decidable c] [Decidable d] (hcd : c ↔ d) {e : ErrorCode} {s : State} {r t : Result}
    {code : Word} (hcode : BitVec.ofNat 32 (errorNumber e).toNat = code) {o : Option Word} (hrest : t = checkedAnswer s r o) :
    (if c then raise e s else t) = checkedAnswer s r (if d then some code else o) := by
  by_cases hc : c
  · rw [if_pos hc, if_pos (hcd.1 hc), raise_eq_failed, hcode]
    rfl
  · rw [if_neg hc, if_neg (mt hcd.2 hc), hrest]

/-- Bits 31:1 of a flags word are zero where halving it leaves nothing. -/
theorem flagsAboveBit0_ne_zero_iff (flags : Word) : flags.extractLsb' 1 31 ≠ 0 ↔ flags.toNat / 2 ≠ 0 := by
  have hlt := flags.isLt
  rw [ne_eq, ← BitVec.toNat_inj, BitVec.extractLsb'_toNat, Nat.shiftRight_eq_div_pow, pow_one,
    Nat.mod_eq_of_lt (by omega)]
  rfl

/-! ## The gains -/

/-- A product of a finite value other than a zero and a value that is no NaN is no NaN. -/
theorem fMulCore_some {a b : F32} (ha : isFinite a = true) (h0 : fMag a ≠ 0) (hb : isNaN b = false) :
    ∃ r, fMulCore a b = some r := by
  refine Option.ne_none_iff_exists'.1 fun hnone => ?_
  obtain h | h | ⟨hinf, hmag⟩ := (fMulCore_eq_none a b).1 hnone
  · rw [isNaN_of_isFinite ha] at h
    exact Bool.noConfusion h
  · rw [hb] at h
    exact Bool.noConfusion h
  · have hbinf := hinf.resolve_left (by rw [isInf_of_isFinite ha]; decide)
    have hzero := (fMag_eq_zero b).1 (hmag.resolve_left h0)
    rw [(isInf_iff b).1 hbinf] at hzero
    exact absurd hzero (by decide)

/-- A quotient of a value that is no NaN by a finite positive one is no NaN. -/
theorem fDivCore_some {a b : F32} (ha : isNaN a = false) (hb : Positive b) :
    ∃ r, fDivCore a b = some r ∧ isNaN r = false := by
  by_cases hfin : isFinite a = true
  · exact ⟨_, fDivCore_finite hfin hb.1 (fields_of_positive hb).2, fPack_roundMag_not_nan _ _ _⟩
  · have hinf : isInf a = true := by simpa [isFinite_eq, ha] using hfin
    refine ⟨fInf (fSign a != fSign b), ?_, by cases fSign a != fSign b <;> decide⟩
    simp [fDivCore, ha, hinf, isNaN_of_isFinite hb.1, isInf_of_isFinite hb.1]

/-- The gains of legal parameters are no NaN on any step of the way, so they draw none (R203). -/
theorem fllGains_run {sps bw : F32} (hsps : Positive sps) (hbw : Positive bw) :
    ∃ b4 beta w fmax, fMulCore f4 bw = some b4 ∧ fDivCore b4 sps = some beta ∧
      fDivCore twoPiF sps = some w ∧ fMulCore f2 w = some fmax ∧
      ∀ k, runDraw (fllBeta sps bw) k = (beta, k) ∧ runDraw (fllFmax sps) k = (fmax, k) := by
  obtain ⟨b4, hb4⟩ := fMulCore_some (a := f4) (by decide) (by decide) (isNaN_of_isFinite hbw.1)
  obtain ⟨beta, hbeta, -⟩ := fDivCore_some (fMulCore_not_nan hb4) hsps
  obtain ⟨w, hw, hwnan⟩ := fDivCore_some (isNaN_of_isFinite positive_twoPiF.1) hsps
  obtain ⟨fmax, hfmax⟩ := fMulCore_some (a := f2) (by decide) (by decide) hwnan
  refine ⟨b4, beta, w, fmax, hb4, hbeta, hw, hfmax, fun k => ⟨?_, ?_⟩⟩
  · simp only [fllBeta, fMul, fDiv, hb4, hbeta, runDraw_bind, runDraw_orNaN_some]
  · simp only [fllFmax, fMul, fDiv, hw, hfmax, runDraw_bind, runDraw_orNaN_some]

/-! ## The construction -/

theorem firConstruct_taps {taps : List C32} {n : Nat} (cplx : Bool) (hn : taps.length = n) : firConstruct cplx taps =
    { cfg := true, cplx := cplx, n := n, taps := taps, dl := List.replicate n ⟨0, 0⟩, cur := 0 } := by
  subst hn
  rfl

/-- FLL_CONFIG past its checks: the gains, and the loop where both are finite (R201, R203). -/
def fllConfigure (sps rolloff bw flags : Word) (taps : List C32) (s : State) : Result :=
  let beta := runDraw (fllBeta sps bw) s.nanDraws
  let fmax := runDraw (fllFmax sps) beta.2
  if (isFinite beta.1 && isFinite fmax.1) = false then raise .invalidParam s
  else complete false []
    ((s.withFll (fllConstruct sps rolloff bw (flags.getLsbD 0) taps beta.1 fmax.1)).withDraws fmax.2)

/-- FLL_CONFIG's checks are those of the statement, in its order (R404). -/
theorem execFllConfig_checks (sps rolloff bw flags : Word) (taps : List C32) (s : State) :
    exec (.fllConfig sps rolloff bw flags taps) s =
      checkedAnswer s (fllConfigure sps rolloff bw flags taps s)
        (Claims.fllConfigError sps rolloff bw flags taps.length) :=
  have hnot {b : Bool} : b = false ↔ (!b) = true := (iff_of_eq (Bool.not_eq_true' b)).symm
  raise_check .rfl rfl <| raise_check .rfl rfl <| raise_check hnot rfl <| raise_check hnot rfl <|
    raise_check hnot rfl <| raise_check (flagsAboveBit0_ne_zero_iff flags) rfl rfl

theorem check_eq_none {c : Prop} [Decidable c] {e : Word} {o : Option Word} :
    (if c then some e else o) = none ↔ ¬ c ∧ o = none := by
  split <;> simp [*]

/-- Parameters that pass FLL_CONFIG's checks are positive where the gains divide and multiply by them. -/
theorem positive_of_fllConfigError_none {sps rolloff bw flags : Word} {count : Nat}
    (h : Claims.fllConfigError sps rolloff bw flags count = none) : Positive sps ∧ Positive bw := by
  simp only [Claims.fllConfigError, check_eq_none, Bool.not_eq_true', Bool.not_eq_false, Bool.and_eq_true] at h
  obtain ⟨-, -, hsps, -, hbw, -⟩ := h
  exact ⟨hsps, hbw⟩

/-- FLL_CONFIG past its checks, by the values of its gains. -/
theorem fllConfigure_run {sps bw beta fmax : F32} (hbeta : ∀ k, runDraw (fllBeta sps bw) k = (beta, k))
    (hfmax : ∀ k, runDraw (fllFmax sps) k = (fmax, k)) (rolloff flags : Word) (taps : List C32) (s : State) :
    fllConfigure sps rolloff bw flags taps s =
      if isFinite beta && isFinite fmax then
        .next { s with fll := fllConstruct sps rolloff bw (flags.getLsbD 0) taps beta fmax, resp := s.resp ++ [0x00000000] }
      else .next (Claims.failed s 0x07) := by
  simp only [fllConfigure, hbeta, hfmax]
  cases isFinite beta && isFinite fmax
  · exact raise_eq_failed .invalidParam s
  · exact complete_ok [] _

/-- The constructed loop written out: both filters cleared, on the taps and on their conjugates by EDGE_SWAP (R201). -/
theorem fllConstruct_eq (sps rolloff bw : F32) (swap : Bool) (taps : List C32) (beta fmax : F32) :
    fllConstruct sps rolloff bw swap taps beta fmax = {
      cfg := true, sps := sps, rolloff := rolloff, bw := bw, swap := swap, beta := beta, fmax := fmax, phase := 0, freq := 0,
      lo := {
        cfg := true, cplx := true, n := taps.length, dl := List.replicate taps.length ⟨0, 0⟩, cur := 0,
        taps := if swap then taps.map (fun c => ⟨c.re, fNeg c.im⟩) else taps },
      up := {
        cfg := true, cplx := true, n := taps.length, dl := List.replicate taps.length ⟨0, 0⟩, cur := 0,
        taps := if swap then taps else taps.map (fun c => ⟨c.re, fNeg c.im⟩) } } := by
  have hmirror := firConstruct_taps true (List.length_map conj (as := taps))
  have hgiven := firConstruct_taps true (Eq.refl taps.length)
  cases swap
  · rw [fllConstruct, if_neg Bool.false_ne_true, if_neg Bool.false_ne_true, hmirror, hgiven]
    rfl
  · rw [fllConstruct, if_pos rfl, if_pos rfl, hmirror, hgiven]
    rfl

/-! ## One sample -/

/-- A filter step is R160's window sum and then the push. -/
theorem firStep_eq (f : FirState) (x : C32) :
    firStep f x = Claims.filterOutput f x >>= fun y => pure (y, firPush f x) :=
  Draw.ext_run (firStep_run f x)

/-- The rotation by `e^{-j*phase}` is a product with the conjugate of `e^{j*phase}` (R12). -/
theorem rotatedBack_eq (phase : F32) (x : C32) : Claims.rotatedBack phase x = derotate phase x := by
  simp only [Claims.rotatedBack, derotate, expj, cMul, conj, bind_assoc, pure_bind]

theorem squaredMagnitude_eq (y : C32) : Claims.squaredMagnitude y = cNorm y := rfl

/-- A loop step is the sample of R204, operation by operation. -/
theorem fllSample_eq (l : FllState) (x : C32) : Claims.fllSample l x = fllStep l x := by
  simp only [Claims.fllSample, fllStep, rotatedBack_eq, squaredMagnitude_eq, firStep_eq, bind_assoc, pure_bind]
  rfl

/-! ## The command -/

/-- FLL_PROCESS on a constructed loop, with room for its outputs (R205). -/
theorem execFllProcess_configured {s : State} (hcfg : s.fll.cfg = true) {cap : Word} {xs : List C32}
    (hcap : xs.length ≤ cap.toNat) : exec (.fllProcess cap xs) s = .next { s with
      fll := (runDraw (runBlock fllStep s.fll xs) s.nanDraws).1.2,
      nanDraws := (runDraw (runBlock fllStep s.fll xs) s.nanDraws).2,
      resp := s.resp ++ 0x00000000 :: unpairWords (runDraw (runBlock fllStep s.fll xs) s.nanDraws).1.1 } := by
  simp only [exec, execFllProcess, hcfg, Nat.not_lt.2 hcap, Bool.true_eq_false, if_false, complete_ok]
  rfl

theorem runBlock_single {σ : Type} (step : σ → C32 → Draw (C32 × σ)) (f : σ) (x : C32) (k : Nat) :
    runDraw (runBlock step f [x]) k = (([(runDraw (step f x) k).1.1], (runDraw (step f x) k).1.2), (runDraw (step f x) k).2) :=
  rfl

theorem unpairWords_single (y : C32) : unpairWords [y] = [y.re, y.im] := rfl

/-- FLL_PROCESS of one sample. -/
theorem execFllProcess_single {s : State} (hcfg : s.fll.cfg = true) {cap : Word} (hcap : 1 ≤ cap.toNat) (x : C32) :
    exec (.fllProcess cap [x]) s = .next { s with
      fll := (runDraw (fllStep s.fll x) s.nanDraws).1.2, nanDraws := (runDraw (fllStep s.fll x) s.nanDraws).2,
      resp := s.resp ++ [0x00000000, (runDraw (fllStep s.fll x) s.nanDraws).1.1.re,
                         (runDraw (fllStep s.fll x) s.nanDraws).1.1.im] } := by
  rw [execFllProcess_configured hcfg (xs := [x]) hcap, runBlock_single, unpairWords_single]

/-- Commands of one sample each leave what a block of their step leaves, and answer its outputs one by one. `after` gives
the state by the stage, the draws and the words answered so far. -/
theorem execAll_samples {σ : Type} {step : σ → C32 → Draw (C32 × σ)} {cmd : C32 → Instr}
    {after : σ → Nat → List Word → State} {P : σ → Prop} (hkeep : ∀ f x k, P f → P (runDraw (step f x) k).1.2)
    (hexec : ∀ f x k ws, P f → exec (cmd x) (after f k ws) =
      .next (after (runDraw (step f x) k).1.2 (runDraw (step f x) k).2
        (ws ++ [0x00000000, (runDraw (step f x) k).1.1.re, (runDraw (step f x) k).1.1.im])))
    (xs : List C32) {f : σ} (hf : P f) (k : Nat) (ws : List Word) :
    Claims.execAll (xs.map cmd) (after f k ws) =
      .next (after (runDraw (runBlock step f xs) k).1.2 (runDraw (runBlock step f xs) k).2
        (ws ++ (runDraw (runBlock step f xs) k).1.1.flatMap (fun y => [0x00000000, y.re, y.im]))) := by
  induction xs generalizing f k ws with
  | nil => simp [Claims.execAll]
  | cons x xs ih =>
    rw [List.map_cons, execAll_cons (hexec f x k ws hf), ih (hkeep f x k hf), runBlock_cons, List.flatMap_cons,
      List.append_assoc]

/-- A state by its loop, its draws and the words answered since `s`. -/
def afterFll (s : State) (l : FllState) (k : Nat) (ws : List Word) : State :=
  { s with fll := l, nanDraws := k, resp := s.resp ++ ws }

theorem afterFll_self (s : State) : afterFll s s.fll s.nanDraws [] = s := by
  rw [afterFll, List.append_nil]

/-- A step leaves a configured loop configured (R43). -/
theorem fllStep_cfg (l : FllState) (x : C32) (k : Nat) : (runDraw (fllStep l x) k).1.2.cfg = l.cfg :=
  (ran_fllStep_fixed (.single fllStep l x k)).2.2

/-- An FLL_PROCESS of each sample in turn leaves what the block leaves, and answers its outputs one by one (R210). -/
theorem execAll_fllProcess {s : State} (hcfg : s.fll.cfg = true) (xs : List C32) :
    Claims.execAll (xs.map (fun x => .fllProcess 1 [x])) s =
      .next (afterFll s (runDraw (runBlock fllStep s.fll xs) s.nanDraws).1.2
        (runDraw (runBlock fllStep s.fll xs) s.nanDraws).2
        ((runDraw (runBlock fllStep s.fll xs) s.nanDraws).1.1.flatMap (fun y => [0x00000000, y.re, y.im]))) := by
  have hexec (l : FllState) (x : C32) (k : Nat) (ws : List Word) (hl : l.cfg = true) :
      exec (.fllProcess 1 [x]) (afterFll s l k ws) =
        .next (afterFll s (runDraw (fllStep l x) k).1.2 (runDraw (fllStep l x) k).2
          (ws ++ [0x00000000, (runDraw (fllStep l x) k).1.1.re, (runDraw (fllStep l x) k).1.1.im])) := by
    rw [execFllProcess_single (s := afterFll s l k ws) hl (by decide), afterFll, afterFll, ← List.append_assoc]
  have hrun := execAll_samples (fun l x k hl => (fllStep_cfg l x k).trans hl) hexec xs hcfg s.nanDraws []
  rwa [afterFll_self, List.nil_append] at hrun

/-! ## A NaN input -/

theorem fMul_isNaN_left {a b : F32} (h : isNaN a = true) (k : Nat) : isNaN (runDraw (fMul a b) k).1 = true :=
  orNaN_none_isNaN ((fMulCore_eq_none a b).2 (.inl h)) k

/-- Both components of a complex product read both components of the left factor, and a NaN in either passes to both
(R12). -/
theorem cMul_isNaN_left {a : C32} (h : isNaN a.re = true ∨ isNaN a.im = true) (b : C32) (k : Nat) :
    isNaN (runDraw (cMul a b) k).1.re = true ∧ isNaN (runDraw (cMul a b) k).1.im = true := by
  obtain h | h := h
  · exact ⟨fSub_isNaN (.inl (fMul_isNaN_left h _)) _, fAdd_isNaN (.inl (fMul_isNaN_left h _)) _⟩
  · exact ⟨fSub_isNaN (.inr (fMul_isNaN_left h _)) _, fAdd_isNaN (.inr (fMul_isNaN_left h _)) _⟩

theorem derotate_isNaN {x : C32} (h : isNaN x.re = true ∨ isNaN x.im = true) (phase : F32) (k : Nat) :
    isNaN (runDraw (derotate phase x) k).1.re = true ∧ isNaN (runDraw (derotate phase x) k).1.im = true := by
  rw [derotate, runDraw_bind]
  exact cMul_isNaN_left h _ _

/-- A good filter answers a NaN in the component of its input that is one, the input being in its window (R169). -/
theorem firStep_isNaN_re {maxTaps : Nat} {f : FirState} (h : FirGood maxTaps f) (hcfg : f.cfg = true) {x : C32}
    (hx : isNaN x.re = true) (k : Nat) : isNaN (runDraw (firStep f x) k).1.1.re = true :=
  firStep_isNaN (.inl rfl) h hcfg ⟨x, List.mem_set (h.dl_length.symm ▸ h.cursor hcfg) x, hx⟩ k

theorem cNorm_isNaN {y : C32} (h : isNaN y.re = true) (k : Nat) : isNaN (runDraw (cNorm y) k).1 = true := by
  rw [cNorm, runDraw_bind, runDraw_bind]
  exact fAdd_isNaN (.inl (fMul_isNaN h _)) _

/-- The error of R204 for a derotated sample: the lower filter's squared magnitude minus the upper's. -/
def fllError (l : FllState) (r : C32) : Draw F32 := do
  let yl ← firStep l.lo r
  let yu ← firStep l.up r
  let pl ← cNorm yl.1
  let pu ← cNorm yu.1
  fSub pl pu

/-- The frequency of R204 before its clamp. -/
def fllFrequency (l : FllState) (e : F32) : Draw F32 := do
  let be ← fMul l.beta e
  fAdd l.freq be

/-- A step takes the sample's error into the frequency, and that into the phase (R204). -/
theorem fllStep_loop (l : FllState) (x : C32) (k : Nat) : ∃ r e f p k1 k2 k3 k4,
    (runDraw (derotate l.phase x) k).1 = r ∧ (runDraw (fllError l r) k1).1 = e ∧
    (runDraw (fllFrequency l e) k2).1 = f ∧ (runDraw (fAdd l.phase f) k3).1 = p ∧
    (runDraw (fllStep l x) k).1.2.phase = (runDraw (wrap p twoPiF) k4).1 ∧
    (runDraw (fllStep l x) k).1.2.freq = clamp (sanitize f) (fNeg l.fmax) l.fmax :=
  ⟨_, _, _, _, _, _, _, _, rfl, rfl, rfl, rfl, rfl, rfl⟩

/-- A NaN in the derotated sample passes through the lower filter to the error. -/
theorem fllError_isNaN {l : FllState} (h : FllGood l) (hcfg : l.cfg = true) {r : C32} (hr : isNaN r.re = true) (k : Nat) :
    isNaN (runDraw (fllError l r) k).1 = true := by
  simp only [fllError, runDraw_bind]
  exact fSub_isNaN (.inl (cNorm_isNaN (firStep_isNaN_re h.lo_good (h.lo_cfg.trans hcfg) hr k) _)) _

theorem fllFrequency_isNaN {e : F32} (he : isNaN e = true) (l : FllState) (k : Nat) :
    isNaN (runDraw (fllFrequency l e) k).1 = true := by
  rw [fllFrequency, runDraw_bind]
  exact fAdd_isNaN (.inr (fMul_isNaN he _)) _

theorem sanitize_of_isNaN {v : F32} (h : isNaN v = true) : sanitize v = 0 :=
  if_neg fun hfin => Bool.noConfusion (h.symm.trans (isNaN_of_isFinite hfin))

/-- A NaN wraps to +0.0 (R14, R15). -/
theorem wrap_of_isNaN {v b : F32} (hv : isNaN v = true) (hb : fLe 0 b = true) (k : Nat) : runDraw (wrap v b) k = (0, k) := by
  obtain ⟨-, hnan, hpos⟩ := (fLe_iff 0 b).1 hb
  have hs := sanitize_of_isNaN hv
  rw [fVal_zero] at hpos
  rw [wrap_of_inRange hnan (hs.symm ▸ inRange_zero hnan hpos), hs]

/-- A value in the range of a clamp stays (R16). -/
theorem clamp_of_inRange {b v : F32} (h : InRange b v) : clamp v (fNeg b) b = v := by
  obtain ⟨hb, hv, -⟩ := (inRange_abs b v).1 h
  obtain ⟨habove, hbelow⟩ := Bool.or_eq_false_iff.1 ((inRange_iff_not_fLt hb hv).1 h)
  rw [clamp, hbelow, habove]
  rfl

end Sys2Proof.Machine

namespace Sys2Proof.Claims

open Sys2Proof.Machine

/-- Settles O33: the checks one by one (`execFllConfig_checks`), and past them gains that are no NaN (`fllGains_run`). -/
theorem fllConfigConstructsOrRejects : Obligations.FllConfigConstructsOrRejects := by
  intro s sps rolloff bw flags taps
  have hexec := execFllConfig_checks sps rolloff bw flags taps s
  refine ⟨fun e he => ?_, fun hnone => ?_⟩
  · rw [hexec, he]
    rfl
  · obtain ⟨hsps, hbw⟩ := positive_of_fllConfigError_none hnone
    obtain ⟨b4, beta, w, fmax, hb4, hbeta, hw, hfmax, hrun⟩ := fllGains_run hsps hbw
    refine ⟨b4, beta, w, fmax, hb4, hbeta, hw, hfmax, ?_⟩
    rw [hexec, hnone, checkedAnswer, fllConfigure_run (fun k => (hrun k).1) (fun k => (hrun k).2), fllConstruct_eq]

/-- Settles O34: the step is R204's sample (`fllSample_eq`), and the single samples run the block's steps
(`execAll_fllProcess`). -/
theorem fllProcessIsRepeatedSingleSamples : Obligations.FllProcessIsRepeatedSingleSamples := by
  refine ⟨fun s cap x hcfg hcap => ?_, fun s cap xs hcfg hcap => ?_⟩
  · rw [fllSample_eq]
    exact ⟨_, _, _, rfl, execFllProcess_single hcfg hcap x⟩
  · exact ⟨_, _, _, runBlock_length fllStep s.fll xs s.nanDraws, execFllProcess_configured hcfg hcap,
      execAll_fllProcess hcfg xs⟩

/-- Settles O35: the NaN passes from the derotated sample to the error (`fllError_isNaN`), and from there to the frequency
and the phase, which restart. -/
theorem naNInputRestartsTheFll : Obligations.NaNInputRestartsTheFll := by
  intro l x k hgood hcfg hx
  obtain ⟨r, e, f, p, k1, k2, k3, k4, hr, he, hf, hp, hphase, hfreq⟩ := fllStep_loop l x k
  have hrnan : isNaN r.re = true := hr ▸ (derotate_isNaN hx l.phase k).1
  have henan : isNaN e = true := he ▸ fllError_isNaN hgood hcfg hrnan k1
  have hfnan : isNaN f = true := hf ▸ fllFrequency_isNaN henan l k2
  have hpnan : isNaN p = true := hp ▸ fAdd_isNaN (.inr hfnan) k3
  obtain ⟨-, -, hlimit⟩ := hgood.clamp_limit
  obtain ⟨-, hmax, hpos⟩ := (fLe_iff 0 l.fmax).1 hlimit
  constructor
  · rw [hphase, wrap_of_isNaN hpnan (by decide)]
  · rw [hfreq, sanitize_of_isNaN hfnan, clamp_of_inRange (inRange_zero hmax hpos)]

end Sys2Proof.Claims
end

section
/-!
PROOF. The Costas loop's commands (43_costas.md): the checks and the construction of COSTAS_CONFIG (R241, R242), one sample
of COSTAS_PROCESS and a block as repeated single samples (R244, R248), and the discriminator's exact products (R246).
-/

namespace Sys2Proof.Machine

/-! ## A computation and its values -/

/-- The computation has the value `o` and draws nothing for it, or `o` has none and what the computation answers is
tainted by a NaN. -/
def Tracks {α : Type} (tainted : α → Prop) (o : Option α) (m : Draw α) : Prop :=
  ∀ k, (∃ v, o = some v ∧ runDraw m k = (v, k)) ∨ (o = none ∧ tainted (runDraw m k).1)

/-- A scalar is tainted where it is a NaN itself. -/
abbrev TracksF32 : Option F32 → Draw F32 → Prop := Tracks (fun v => isNaN v = true)

/-- A pair of gains is tainted where one of them is a NaN. -/
abbrev TracksGains : Option (F32 × F32) → Draw (F32 × F32) → Prop :=
  Tracks (fun g => isNaN g.1 = true ∨ isNaN g.2 = true)

theorem tracks_orNaN (o : Option F32) : TracksF32 o (orNaN o) := fun k =>
  (runDraw_orNaN o k).imp_right fun ⟨hnone, hnan, _⟩ => ⟨hnone, hnan⟩

/-- A computation goes on with a tracked scalar, where the values stop at a NaN. -/
theorem Tracks.bind {α : Type} {tainted : α → Prop} {o : Option F32} {m : Draw F32} {g : F32 → Option α} {f : F32 → Draw α}
    (hm : TracksF32 o m) (hf : ∀ v, Tracks tainted (g v) (f v)) (hstop : ∀ v, isNaN v = true → g v = none) :
    Tracks tainted (o >>= g) (m >>= f) := by
  intro k
  rw [runDraw_bind]
  obtain ⟨v, rfl, hrun⟩ | ⟨rfl, hnan⟩ := hm k
  · rw [hrun]
    exact hf v k
  · obtain ⟨w, hsome, -⟩ | ⟨-, hbad⟩ := hf (runDraw m k).1 (runDraw m k).2
    · exact absurd (hsome.symm.trans (hstop _ hnan)) (Option.some_ne_none w)
    · exact .inr ⟨rfl, hbad⟩

/-- Two tracked scalars make a tracked pair. -/
theorem Tracks.pair {o p : Option F32} {m n : Draw F32} (hm : TracksF32 o m) (hn : TracksF32 p n) :
    TracksGains (do let a ← o; let b ← p; pure (a, b)) (do let a ← m; let b ← n; pure (a, b)) := by
  intro k
  simp only [runDraw_bind, runDraw_pure]
  obtain ⟨a, rfl, ha⟩ | ⟨rfl, ha⟩ := hm k
  · rw [ha]
    obtain ⟨b, rfl, hb⟩ | ⟨rfl, hb⟩ := hn k
    · exact .inl ⟨(a, b), rfl, by rw [hb]⟩
    · exact .inr ⟨rfl, .inr hb⟩
  · exact .inr ⟨rfl, .inl ha⟩

/-! ## The gains -/

theorem fAddCore_of_isNaN {a b : F32} (h : isNaN a = true ∨ isNaN b = true) : fAddCore a b = none :=
  (fAddCore_eq_none a b).2 (h.imp_right .inl)

theorem fMulCore_of_isNaN {a b : F32} (h : isNaN a = true ∨ isNaN b = true) : fMulCore a b = none :=
  (fMulCore_eq_none a b).2 (h.imp_right .inl)

theorem fDivCore_of_isNaN {a b : F32} (h : isNaN a = true ∨ isNaN b = true) : fDivCore a b = none := by
  rw [fDivCore, if_pos (by simpa using h)]

/-- R242's `bw`. -/
def bandwidthOf (fs bwhz : F32) : Option F32 := do let w ← fMulCore twoPiF bwhz; fDivCore w fs

/-- R242's `d`. -/
def divisorOf (damp bw : F32) : Option F32 := do
  let d2 ← fMulCore f2 damp
  let d2bw ← fMulCore d2 bw
  let d1 ← fAddCore f1 d2bw
  let bw2 ← fMulCore bw bw
  fAddCore d1 bw2

/-- R242's `alpha`. -/
def alphaOf (damp bw d : F32) : Option F32 := do
  let a4 ← fMulCore f4 damp
  let a4bw ← fMulCore a4 bw
  fDivCore a4bw d

/-- R242's `beta`. -/
def betaOf (bw d : F32) : Option F32 := do
  let bwsq ← fMulCore bw bw
  let b4 ← fMulCore f4 bwsq
  fDivCore b4 d

/-- The statement computes the square of `bw` once, R242 once for `d` and once for `beta`. -/
theorem gainsOf_eq (fs bwhz damp : F32) : Claims.gainsOf fs bwhz damp = (do
    let bw ← bandwidthOf fs bwhz
    let d ← divisorOf damp bw
    let alpha ← alphaOf damp bw d
    let beta ← betaOf bw d
    pure (alpha, beta)) := by
  unfold Claims.gainsOf
  refine congrArg ((bandwidthOf fs bwhz) >>= ·) (funext fun bw => ?_)
  cases hsq : fMulCore bw bw <;> simp [divisorOf, alphaOf, betaOf, hsq]

theorem divisorOf_of_isNaN {bw : F32} (damp : F32) (h : isNaN bw = true) : divisorOf damp bw = none := by
  simp [divisorOf, fMulCore_of_isNaN (.inr h)]

theorem alphaOf_of_isNaN {d : F32} (damp bw : F32) (h : isNaN d = true) : alphaOf damp bw d = none := by
  simp [alphaOf, fDivCore_of_isNaN (.inr h)]

/-- The model's way to `bw`. -/
def drawBandwidth (fs bwhz : F32) : Draw F32 := do let t ← fMul twoPiF bwhz; fDiv t fs

/-- The model's way to `d`. -/
def drawDivisor (damp bw : F32) : Draw F32 := do
  let d2 ← fMul f2 damp
  let d2bw ← fMul d2 bw
  let d1 ← fAdd f1 d2bw
  let bw2 ← fMul bw bw
  fAdd d1 bw2

/-- The model's way to `alpha`. -/
def drawAlpha (damp bw d : F32) : Draw F32 := do
  let a4 ← fMul f4 damp
  let a4bw ← fMul a4 bw
  fDiv a4bw d

/-- The model's way to `beta`. -/
def drawBeta (bw d : F32) : Draw F32 := do
  let bwsq ← fMul bw bw
  let b4 ← fMul f4 bwsq
  fDiv b4 d

theorem costasGains_eq (fs bwhz damp : F32) : costasGains fs bwhz damp = (do
    let bw ← drawBandwidth fs bwhz
    let d ← drawDivisor damp bw
    let alpha ← drawAlpha damp bw d
    let beta ← drawBeta bw d
    pure (alpha, beta)) := by
  simp only [costasGains, drawBandwidth, drawDivisor, drawAlpha, drawBeta, bind_assoc]

theorem drawBandwidth_tracks (fs bwhz : F32) : TracksF32 (bandwidthOf fs bwhz) (drawBandwidth fs bwhz) :=
  (tracks_orNaN _).bind (fun _ => tracks_orNaN _) (fun _ h => fDivCore_of_isNaN (.inl h))

theorem drawDivisor_tracks (damp bw : F32) : TracksF32 (divisorOf damp bw) (drawDivisor damp bw) :=
  (tracks_orNaN _).bind (hstop := fun _ h => by simp [fMulCore_of_isNaN (.inl h)]) fun _ =>
  (tracks_orNaN _).bind (hstop := fun _ h => by simp [fAddCore_of_isNaN (.inr h)]) fun _ =>
  (tracks_orNaN _).bind (hstop := fun _ h => by simp [fAddCore_of_isNaN (.inl h)]) fun _ =>
  (tracks_orNaN _).bind (fun _ => tracks_orNaN _) (fun _ h => fAddCore_of_isNaN (.inr h))

theorem drawAlpha_tracks (damp bw d : F32) : TracksF32 (alphaOf damp bw d) (drawAlpha damp bw d) :=
  (tracks_orNaN _).bind (hstop := fun _ h => by simp [fMulCore_of_isNaN (.inl h)]) fun _ =>
  (tracks_orNaN _).bind (fun _ => tracks_orNaN _) (fun _ h => fDivCore_of_isNaN (.inl h))

theorem drawBeta_tracks (bw d : F32) : TracksF32 (betaOf bw d) (drawBeta bw d) :=
  (tracks_orNaN _).bind (hstop := fun _ h => by simp [fMulCore_of_isNaN (.inr h)]) fun _ =>
  (tracks_orNaN _).bind (fun _ => tracks_orNaN _) (fun _ h => fDivCore_of_isNaN (.inl h))

/-- The gains are R242's and draw nothing, or a NaN on the way reaches one of them: `bw` enters `d`, and `d` enters
`alpha`. -/
theorem costasGains_tracks (fs bwhz damp : F32) :
    TracksGains (Claims.gainsOf fs bwhz damp) (costasGains fs bwhz damp) := by
  rw [gainsOf_eq, costasGains_eq]
  exact (drawBandwidth_tracks fs bwhz).bind (hstop := fun bw h => by rw [divisorOf_of_isNaN damp h]; rfl) fun bw =>
    (drawDivisor_tracks damp bw).bind (hstop := fun d h => by rw [alphaOf_of_isNaN damp bw h]; rfl) fun d =>
    (drawAlpha_tracks damp bw d).pair (drawBeta_tracks bw d)

/-! ## The configuration -/

/-- COSTAS_CONFIG with another number of parameters than two or three (R241). -/
theorem execCostasConfig_length {ps : List Word} (h2 : ps.length ≠ 2) (h3 : ps.length ≠ 3) (s : State) :
    exec (.costasConfig ps) s = raise .badLength s := by
  simp only [exec, execCostasConfig]
  split
  · exact absurd rfl h2
  · exact absurd rfl h3
  · rfl

/-- Two parameters stand for three with the default damping (R241). -/
theorem execCostasConfig_parameters {ps : List Word} {fs bwhz damp : F32}
    (h : ps = [fs, bwhz] ∧ damp = 0x3F34FDF4 ∨ ps = [fs, bwhz, damp]) (s : State) :
    exec (.costasConfig ps) s = costasConfigure fs bwhz damp s := by
  obtain ⟨rfl, rfl⟩ | rfl := h <;> rfl

theorem positive_iff (v : F32) : Positive v ↔ (isFinite v && fLt 0 v) = true := by
  rw [Positive, Bool.and_eq_true]

/-- A parameter that is not finite and positive is refused (R241). -/
theorem costasConfigure_invalid {fs bwhz damp : F32} (h : ¬ (Positive fs ∧ Positive bwhz ∧ Positive damp)) (s : State) :
    costasConfigure fs bwhz damp s = raise .invalidParam s := by
  simp only [positive_iff, not_and_or, Bool.not_eq_true] at h
  unfold costasConfigure
  obtain hfs | hbwhz | hdamp := h
  · rw [if_pos hfs]
  · rw [if_pos hbwhz, ite_self]
  · rw [if_pos hdamp, ite_self, ite_self]

theorem not_finite_of_tainted {g : F32 × F32} (h : isNaN g.1 = true ∨ isNaN g.2 = true) :
    (isFinite g.1 && isFinite g.2) = false := by
  obtain h | h := h <;> simp [isFinite_eq, h]

/-- COSTAS_CONFIG past its checks, by R242's gains. -/
theorem costasConfigure_gains {fs bwhz damp : F32} (hfs : Positive fs) (hbwhz : Positive bwhz) (hdamp : Positive damp)
    (s : State) : costasConfigure fs bwhz damp s =
      match Claims.gainsOf fs bwhz damp with
      | some (alpha, beta) =>
        if isFinite alpha && isFinite beta then
          .next { s with cos := costasConstruct fs bwhz damp alpha beta, resp := s.resp ++ [0x00000000] }
        else .next (Claims.failed s 0x07)
      | none => .next (Claims.failed s 0x07) := by
  rw [positive_iff] at hfs hbwhz hdamp
  simp only [costasConfigure, hfs, hbwhz, hdamp, Bool.true_eq_false, if_false]
  obtain ⟨⟨alpha, beta⟩, hgains, hrun⟩ | ⟨hgains, hnan⟩ := costasGains_tracks fs bwhz damp s.nanDraws
  · simp only [hgains, hrun]
    cases isFinite alpha && isFinite beta
    · exact raise_eq_failed .invalidParam s
    · exact complete_ok [] _
  · rw [hgains, if_pos (not_finite_of_tainted hnan)]
    exact raise_eq_failed .invalidParam s

/-! ## One sample -/

theorem hardDecision_eq (v : F32) : Claims.hardDecision v = sgn v := rfl

/-- A loop step is the sample of R244, operation by operation. -/
theorem costasSample_eq (l : CosState) (x : C32) : Claims.costasSample l x = cosStep l x := by
  simp only [Claims.costasSample, cosStep, cosUpdate, rotatedBack_eq, hardDecision_eq, bind_assoc, pure_bind]
  rfl

/-! ## The command -/

/-- COSTAS_PROCESS on a constructed loop, with room for its outputs (R243). -/
theorem execCostasProcess_configured {s : State} (hcfg : s.cos.cfg = true) {cap : Word} {xs : List C32}
    (hcap : xs.length ≤ cap.toNat) : exec (.costasProcess cap xs) s = .next { s with
      cos := (runDraw (runBlock cosStep s.cos xs) s.nanDraws).1.2,
      nanDraws := (runDraw (runBlock cosStep s.cos xs) s.nanDraws).2,
      resp := s.resp ++ 0x00000000 :: unpairWords (runDraw (runBlock cosStep s.cos xs) s.nanDraws).1.1 } := by
  simp only [exec, execCostasProcess, hcfg, Nat.not_lt.2 hcap, Bool.true_eq_false, if_false, complete_ok]
  rfl

/-- COSTAS_PROCESS of one sample. -/
theorem execCostasProcess_single {s : State} (hcfg : s.cos.cfg = true) {cap : Word} (hcap : 1 ≤ cap.toNat) (x : C32) :
    exec (.costasProcess cap [x]) s = .next { s with
      cos := (runDraw (cosStep s.cos x) s.nanDraws).1.2, nanDraws := (runDraw (cosStep s.cos x) s.nanDraws).2,
      resp := s.resp ++ [0x00000000, (runDraw (cosStep s.cos x) s.nanDraws).1.1.re,
                         (runDraw (cosStep s.cos x) s.nanDraws).1.1.im] } := by
  rw [execCostasProcess_configured hcfg (xs := [x]) hcap, runBlock_single, unpairWords_single]

/-- A state by its Costas loop, its draws and the words answered since `s`. -/
def afterCostas (s : State) (l : CosState) (k : Nat) (ws : List Word) : State :=
  { s with cos := l, nanDraws := k, resp := s.resp ++ ws }

theorem afterCostas_self (s : State) : afterCostas s s.cos s.nanDraws [] = s := by
  rw [afterCostas, List.append_nil]

/-- A step leaves a configured loop configured (R43). -/
theorem cosStep_cfg (l : CosState) (x : C32) (k : Nat) : (runDraw (cosStep l x) k).1.2.cfg = l.cfg :=
  ran_cosStep_cfg (.single cosStep l x k)

/-- A COSTAS_PROCESS of each sample in turn leaves what the block leaves, and answers its outputs one by one (R248). -/
theorem execAll_costasProcess {s : State} (hcfg : s.cos.cfg = true) (xs : List C32) :
    Claims.execAll (xs.map (fun x => .costasProcess 1 [x])) s =
      .next (afterCostas s (runDraw (runBlock cosStep s.cos xs) s.nanDraws).1.2
        (runDraw (runBlock cosStep s.cos xs) s.nanDraws).2
        ((runDraw (runBlock cosStep s.cos xs) s.nanDraws).1.1.flatMap (fun y => [0x00000000, y.re, y.im]))) := by
  have hexec (l : CosState) (x : C32) (k : Nat) (ws : List Word) (hl : l.cfg = true) :
      exec (.costasProcess 1 [x]) (afterCostas s l k ws) =
        .next (afterCostas s (runDraw (cosStep l x) k).1.2 (runDraw (cosStep l x) k).2
          (ws ++ [0x00000000, (runDraw (cosStep l x) k).1.1.re, (runDraw (cosStep l x) k).1.1.im])) := by
    rw [execCostasProcess_single (s := afterCostas s l k ws) hl (by decide), afterCostas, afterCostas, ← List.append_assoc]
  have hrun := execAll_samples (fun l x k hl => (cosStep_cfg l x k).trans hl) hexec xs hcfg s.nanDraws []
  rwa [afterCostas_self, List.nil_append] at hrun

/-! ## The discriminator -/

/-- A product with a hard decision is exact: the value or its negation (R246). -/
theorem fMul_sgn (u : F32) {v : F32} (hv : isNaN v = false) :
    fMul (sgn u) v = pure (if fLe 0 u then v else fNeg v) := by
  obtain ⟨hplus, hminus⟩ := Claims.multiplyingByOneIsExact v hv
  cases hu : fLe 0 u
  · rw [sgn, hu, if_neg Bool.false_ne_true, if_neg Bool.false_ne_true, fMul, hminus]
    rfl
  · rw [sgn, hu, if_pos rfl, if_pos rfl, fMul, hplus]
    rfl

/-- The error of R244 for a derotated sample. -/
def costasError (m : C32) : Draw F32 := do
  let a ← fMul (sgn m.re) m.im
  let b ← fMul (sgn m.im) m.re
  fSub a b

/-- The frequency of R244 before it is sanitized. -/
def costasFrequency (l : CosState) (e : F32) : Draw F32 := do
  let be ← fMul l.beta e
  fAdd l.freq be

/-- The phase of R244 before its wrap. -/
def costasPhase (l : CosState) (e f : F32) : Draw F32 := do
  let ae ← fMul l.alpha e
  let fa ← fAdd f ae
  fAdd l.phase fa

/-- The update takes the error into the frequency, and both into the phase (R244). -/
theorem cosUpdate_eq (l : CosState) (m : C32) : cosUpdate l m = (do
    let e ← costasError m
    let f ← costasFrequency l e
    let p ← costasPhase l e f
    let phase ← wrap p piF
    pure { l with freq := sanitize f, phase := phase }) := by
  simp only [cosUpdate, costasError, costasFrequency, costasPhase, bind_assoc]

/-- Components that are no NaN have one rounding on the way to the error (R246). -/
theorem costasError_eq {m : C32} (hre : isNaN m.re = false) (him : isNaN m.im = false) : costasError m =
    fSub (if fLe 0 m.re then m.im else fNeg m.im) (if fLe 0 m.im then m.re else fNeg m.re) := by
  rw [costasError, fMul_sgn _ him, fMul_sgn _ hre, pure_bind, pure_bind]

theorem costasError_isNaN {m : C32} (h : isNaN m.re = true ∨ isNaN m.im = true) (k : Nat) :
    isNaN (runDraw (costasError m) k).1 = true := by
  rw [costasError, runDraw_bind, runDraw_bind]
  exact fSub_isNaN (h.symm.imp (fMul_isNaN · _) (fMul_isNaN · _)) _

theorem costasFrequency_isNaN {e : F32} (he : isNaN e = true) (l : CosState) (k : Nat) :
    isNaN (runDraw (costasFrequency l e) k).1 = true := by
  rw [costasFrequency, runDraw_bind]
  exact fAdd_isNaN (.inr (fMul_isNaN he _)) _

theorem costasPhase_isNaN {f : F32} (hf : isNaN f = true) (l : CosState) (e : F32) (k : Nat) :
    isNaN (runDraw (costasPhase l e f) k).1 = true := by
  rw [costasPhase, runDraw_bind, runDraw_bind]
  exact fAdd_isNaN (.inr (fAdd_isNaN (.inl hf) _)) _

/-- A NaN component restarts the frequency and the phase (R246). -/
theorem cosUpdate_isNaN {m : C32} (h : isNaN m.re = true ∨ isNaN m.im = true) (l : CosState) (k : Nat) :
    (runDraw (cosUpdate l m) k).1 = { l with freq := 0, phase := 0 } := by
  have hf := costasFrequency_isNaN (costasError_isNaN h k) l (runDraw (costasError m) k).2
  rw [cosUpdate_eq, runDraw_bind, runDraw_bind, runDraw_bind, runDraw_bind, runDraw_pure, sanitize_of_isNaN hf,
    wrap_of_isNaN (costasPhase_isNaN hf l _ _) (show fLe 0 piF = true by decide)]

end Sys2Proof.Machine

namespace Sys2Proof.Claims

open Sys2Proof.Machine

/-- Settles O36: the checks in R241's order, and past them R242's gains, which a NaN on the way makes NaN
(`costasGains_tracks`). -/
theorem costasConfigConstructsOrRejects : Obligations.CostasConfigConstructsOrRejects := by
  intro s ps
  refine ⟨fun h2 h3 => ?_, fun fs bwhz damp hps => ⟨fun hpos => ?_, fun hfs hbwhz hdamp => ?_⟩⟩
  · exact (execCostasConfig_length h2 h3 s).trans (raise_eq_failed .badLength s)
  · rw [execCostasConfig_parameters hps, costasConfigure_invalid hpos]
    exact raise_eq_failed .invalidParam s
  · exact (execCostasConfig_parameters hps s).trans (costasConfigure_gains hfs hbwhz hdamp s)

/-- Settles O37: the step is R244's sample (`costasSample_eq`), and the single samples run the block's steps
(`execAll_costasProcess`). -/
theorem costasProcessIsRepeatedSingleSamples : Obligations.CostasProcessIsRepeatedSingleSamples := by
  refine ⟨fun s cap x hcfg hcap => ?_, fun s cap xs hcfg hcap => ?_⟩
  · rw [costasSample_eq]
    exact ⟨_, _, _, rfl, execCostasProcess_single hcfg hcap x⟩
  · exact ⟨_, _, _, runBlock_length cosStep s.cos xs s.nanDraws, execCostasProcess_configured hcfg hcap,
      execAll_costasProcess hcfg xs⟩

/-- Settles O38: products with the decisions are exact (`costasError_eq`), and a NaN component passes through the error to
the frequency and the phase, which restart (`cosUpdate_isNaN`). -/
theorem costasErrorIsOneRoundedSubtraction : Obligations.CostasErrorIsOneRoundedSubtraction := by
  intro l m k
  refine ⟨fun hre him => ?_, fun h => cosUpdate_isNaN h l k⟩
  rw [cosUpdate_eq, costasError_eq hre him]
  rfl

end Sys2Proof.Claims
end

section
/-!
PROOF. TR_CONFIG (44_timing.md R270): its checks, and the timing recovery it constructs.
-/

namespace Sys2Proof.Machine

/-- The model's reading of the `mode` operand (R270). -/
theorem interpOf_eq (mode : Word) :
    interpOf mode = if mode.toNat ≤ 1 then some (if mode = 0 then .linear else .lagrange) else none := by
  unfold interpOf
  by_cases h0 : mode = 0
  · subst h0
    rfl
  · rw [if_neg h0, if_neg h0]
    exact if_congr (by bv_omega) rfl rfl

/-- The constructed timing recovery written out: the base is at the look-back, which the mode numbers (R270, R271). -/
theorem trConstruct_eq (sps kp ki cmax : F32) {mode : Word} (h : mode.toNat ≤ 1) :
    trConstruct sps kp ki cmax (if mode = 0 then .linear else .lagrange) = {
      cfg := true, sps := sps, kp := kp, ki := ki, cmax := cmax, mode := if mode = 0 then .linear else .lagrange,
      queue := [], base := mode.toNat, mu := 0, integ := 0, havePrev := false, prevX := ⟨0, 0⟩, prevD := ⟨0, 0⟩ } := by
  by_cases h0 : mode = 0
  · subst h0
    rfl
  · rw [if_neg h0, trConstruct, show mode.toNat = 1 by bv_omega]
    rfl

/-- A check in front of another one with the same error is one check of both conditions. -/
theorem raise_unless (a b : Bool) (e : ErrorCode) (s : State) (r : Result) :
    (if a = false then raise e s else if b = true then r else raise e s) = if (a && b) = true then r else raise e s := by
  cases a <;> rfl

/-- TR_CONFIG past its length check is one check of all parameters, the mode the last of them (R270). -/
theorem execTrConfig_checks (sps kp ki cmax mode : Word) (s : State) :
    exec (.trConfig 0 sps kp ki cmax mode) s =
      if (isFinite sps && fLe f1 sps && fLe sps fSpsMax && isFinite kp && isFinite ki && isFinite cmax && fLe 0 cmax &&
          fLt cmax sps && decide (mode.toNat ≤ 1)) = true then
        complete false [] (s.withTr (trConstruct sps kp ki cmax (if mode = 0 then .linear else .lagrange)))
      else raise .invalidParam s := by
  have hgroups (a b c d e f g h i : Bool) :
      (a && b && c && d && e && f && g && h && i) = ((a && b && c) && ((d && e) && ((f && g && h) && i))) := by
    simp only [Bool.and_assoc]
  rw [hgroups, ← raise_unless, ← raise_unless, ← raise_unless]
  simp only [exec, execTrConfig, interpOf_eq, ne_eq, not_true_eq_false, if_false, decide_eq_true_eq]
  by_cases hmode : mode.toNat ≤ 1
  · simp only [if_pos hmode]
  · simp only [if_neg hmode]

end Sys2Proof.Machine

namespace Sys2Proof.Claims

open Sys2Proof.Machine

/-- Settles O39: the length check, and then the parameters' checks as one (`execTrConfig_checks`). -/
theorem trConfigConstructsOrRejects : Obligations.TrConfigConstructsOrRejects := by
  intro s n sps kp ki cmax mode
  by_cases hn : n = 0
  · subst hn
    rw [if_neg (not_not.2 rfl)]
    refine (execTrConfig_checks _ _ _ _ _ s).trans
      (if_ctx_congr .rfl (fun hlegal => ?_) fun _ => raise_eq_failed .invalidParam s)
    rw [trConstruct_eq _ _ _ _ (of_decide_eq_true (Bool.and_eq_true_iff.1 hlegal).2)]
    exact complete_ok [] _
  · rw [if_pos hn]
    exact (if_pos hn).trans (raise_eq_failed .badLength s)

end Sys2Proof.Claims
end

section
/-!
PROOF. TR_PROCESS (44_timing.md): the emission loop as a run of updates (R274, R278), the drop as a move of the queue's origin
(R277), and the split law (R279). Readiness and the update read the queue only from the look-back on and only relative to the
base, so a run of updates goes through unchanged where samples follow the queue or consumed ones leave it.
-/

namespace Sys2Proof.Machine

/-! ## A run of updates -/

/-- `TrEmits t k ys u k'`: updates of `t`, each where it is possible, emit `ys` and leave `u`, and the draws go from `k` to
`k'` (R274). -/
inductive TrEmits : TrState → Nat → List C32 → TrState → Nat → Prop
  | nil (t k) : TrEmits t k [] t k
  | cons {t k x u k1 ys v k2} (hready : trReady t = true) (hstep : runDraw (trStep t) k = ((x, u), k1))
      (hrest : TrEmits u k1 ys v k2) : TrEmits t k (x :: ys) v k2

/-- The emission loop runs updates until none is possible or `n` symbols have come out, and answers whether one is still
possible (R274, R278). -/
theorem trLoop_emits (n : Nat) (t : TrState) (k : Nat) : ∃ ys u k', TrEmits t k ys u k' ∧
    runDraw (trLoop n t) k = ((ys, trReady u, u), k') ∧ ys.length ≤ n ∧ (ys.length < n → trReady u = false) := by
  induction n generalizing t k with
  | zero => exact ⟨[], t, k, .nil t k, trLoop_zero t k, le_rfl, fun h => absurd h (Nat.lt_irrefl 0)⟩
  | succ n ih =>
    cases hr : trReady t with
    | false =>
      refine ⟨[], t, k, .nil t k, ?_, Nat.zero_le _, fun _ => hr⟩
      rw [trLoop_not_ready _ _ _ hr, hr]
    | true =>
      obtain ⟨ys, u, k', hys, hrun, hle, hstop⟩ := ih (runDraw (trStep t) k).1.2 (runDraw (trStep t) k).2
      refine ⟨_ :: ys, u, k', .cons hr rfl hys, ?_, Nat.succ_le_succ hle, fun h => hstop (Nat.lt_of_succ_lt_succ h)⟩
      rw [trLoop_ready _ _ _ hr, runDraw_bind, runDraw_bind, hrun]
      rfl

namespace TrEmits

variable {t u v : TrState} {k k1 k2 : Nat} {ys zs : List C32}

/-- A run of at most `n` updates that ends after `n`, or where no update is possible, is what the emission loop does. -/
theorem runDraw_trLoop (h : TrEmits t k ys u k1) {n : Nat} (hle : ys.length ≤ n) (hstop : ys.length < n → trReady u = false) :
    runDraw (trLoop n t) k = ((ys, trReady u, u), k1) := by
  induction h generalizing n with
  | nil t k =>
    cases n with
    | zero => exact trLoop_zero t k
    | succ n => rw [hstop (Nat.succ_pos n), trLoop_not_ready _ _ _ (hstop (Nat.succ_pos n))]
  | cons hready hstep hrest ih =>
    obtain ⟨n, rfl⟩ := Nat.exists_eq_add_of_le' hle
    rw [List.length_cons, ← Nat.add_assoc, trLoop_ready _ _ _ hready, runDraw_bind, hstep, runDraw_bind,
      ih (by omega) (fun h => hstop (by rw [List.length_cons]; omega))]
    rfl

theorem trans (h : TrEmits t k ys u k1) (h' : TrEmits u k1 zs v k2) : TrEmits t k (ys ++ zs) v k2 := by
  induction h with
  | nil => exact h'
  | cons hready hstep _ ih => exact .cons hready hstep (ih h')

/-- Two runs from one state to the point where no update is possible are the same run. -/
theorem unique (h : TrEmits t k ys u k1) (h' : TrEmits t k zs v k2) (hu : trReady u = false) (hv : trReady v = false) :
    ys = zs ∧ u = v ∧ k1 = k2 := by
  have hrun := (h.runDraw_trLoop (Nat.le_add_right _ zs.length) fun _ => hu).symm.trans
    (h'.runDraw_trLoop (Nat.le_add_left _ ys.length) fun _ => hv)
  simp only [Prod.mk.injEq] at hrun
  obtain ⟨⟨hys, -, huv⟩, hk⟩ := hrun
  exact ⟨hys, huv, hk⟩

/-- No update follows where none is possible. -/
theorem of_not_ready (h : TrEmits t k ys u k1) (ht : trReady t = false) : ys = [] ∧ u = t := by
  cases h with
  | nil => exact ⟨rfl, rfl⟩
  | cons hready => exact Bool.noConfusion (ht.symm.trans hready)

/-- Updates leave the queue and the configuration (R275). -/
theorem fixed (h : TrEmits t k ys u k1) : u.queue = t.queue ∧ u.cfg = t.cfg := by
  induction h with
  | nil => exact ⟨rfl, rfl⟩
  | @cons t k x u k1 _ _ _ _ hstep _ ih =>
    obtain ⟨hqueue, -, -, -, -, -, hcfg⟩ := trStep_fixed t k
    rw [hstep] at hqueue hcfg
    exact ⟨ih.1.trans hqueue, ih.2.trans hcfg⟩

/-- A run is that many of the statements' updates. -/
theorem runDraw_updates (h : TrEmits t k ys u k1) : runDraw (Claims.updates ys.length t) k = ((ys, u), k1) := by
  induction h with
  | nil => rfl
  | cons _ hstep _ ih =>
    rw [List.length_cons, Claims.updates, runDraw_bind, hstep, runDraw_bind, ih]
    rfl

/-- Each update of a run is possible where it is made. -/
theorem ready_of_lt (h : TrEmits t k ys u k1) {m : Nat} (hm : m < ys.length) :
    trReady (runDraw (Claims.updates m t) k).1.2 = true := by
  induction h generalizing m with
  | nil => exact absurd hm (Nat.not_lt_zero m)
  | cons hready hstep _ ih =>
    cases m with
    | zero => exact hready
    | succ m =>
      rw [Claims.updates, runDraw_bind, hstep]
      exact ih (Nat.lt_of_succ_lt_succ hm)

end TrEmits

/-! ## The origin of the queue -/

/-- The state after an update with the sample `x`, the integrator and advance `a`, and the position `p` (R275). -/
def trMoved (t : TrState) (x : C32) (a : F32 × F32) (p : F32) : TrState :=
  { t with integ := a.1, prevD := decision x, prevX := x, havePrev := true, base := t.base + fFloor p, mu := fFraction p }

theorem trStep_eq (t : TrState) : trStep t = (do
    let x ← interpolate t
    let a ← trAdvance t x
    let p ← fAdd t.mu a.2
    pure (x, trMoved t x a p)) := rfl

/-- Samples appended to the queue (R274). -/
def trAppend (xs : List C32) (t : TrState) : TrState := { t with queue := t.queue ++ xs }

/-- The queue without its `d` oldest samples, `t` at the same place in the sample stream (R277). -/
def trRebase (d : Nat) (t : TrState) : TrState := { t with queue := t.queue.drop d, base := t.base - d }

@[simp] theorem trAppend_base (xs : List C32) (t : TrState) : (trAppend xs t).base = t.base := rfl
@[simp] theorem trAppend_mu (xs : List C32) (t : TrState) : (trAppend xs t).mu = t.mu := rfl
@[simp] theorem trRebase_base (d : Nat) (t : TrState) : (trRebase d t).base = t.base - d := rfl
@[simp] theorem trRebase_mu (d : Nat) (t : TrState) : (trRebase d t).mu = t.mu := rfl

theorem trDrop_eq (t : TrState) : trDrop t = trRebase (trDropCount t) t := rfl

theorem memRead_append {q : List C32} {i : Nat} (h : i < q.length) (xs : List C32) : memRead (q ++ xs) i = memRead q i :=
  List.getD_append _ _ _ _ h

theorem memRead_drop (q : List C32) (d i : Nat) : memRead (q.drop d) i = memRead q (d + i) := by
  rw [memRead, memRead, List.getD, List.getD, List.getElem?_drop]

theorem interpolate_linear {t : TrState} (h : t.mode = .linear) : interpolate t = (do
    let om ← fSub f1 t.mu
    let re ← lerp t.mu om (memRead t.queue t.base).re (memRead t.queue (t.base + 1)).re
    let im ← lerp t.mu om (memRead t.queue t.base).im (memRead t.queue (t.base + 1)).im
    pure ⟨re, im⟩) := by
  rw [interpolate, h]

theorem interpolate_lagrange {t : TrState} (h : t.mode = .lagrange) : interpolate t = (do
    let w ← lagrangeWeights t.mu
    let re ← lagrangeSum w (memRead t.queue (t.base - 1)).re (memRead t.queue t.base).re
      (memRead t.queue (t.base + 1)).re (memRead t.queue (t.base + 2)).re
    let im ← lagrangeSum w (memRead t.queue (t.base - 1)).im (memRead t.queue t.base).im
      (memRead t.queue (t.base + 1)).im (memRead t.queue (t.base + 2)).im
    pure ⟨re, im⟩) := by
  rw [interpolate, h]

/-- Interpolation reads nothing past the look-ahead (R271). -/
theorem interpolate_append {t : TrState} (h : trReady t = true) (xs : List C32) :
    interpolate (trAppend xs t) = interpolate t := by
  have hlt := of_decide_eq_true h
  have hread (i : Nat) (hi : i ≤ t.base + lookAhead t.mode) : memRead (trAppend xs t).queue i = memRead t.queue i :=
    memRead_append (by omega) xs
  cases hm : t.mode with
  | linear =>
    rw [hm, lookAhead] at hread
    rw [interpolate_linear (t := trAppend xs t) hm, interpolate_linear hm, trAppend_base, trAppend_mu,
      hread t.base (by omega), hread (t.base + 1) le_rfl]
  | lagrange =>
    rw [hm, lookAhead] at hread
    rw [interpolate_lagrange (t := trAppend xs t) hm, interpolate_lagrange hm, trAppend_base, trAppend_mu,
      hread (t.base - 1) (by omega), hread t.base (by omega), hread (t.base + 1) (by omega), hread (t.base + 2) le_rfl]

/-- Interpolation reads nothing before the look-back (R271). -/
theorem interpolate_rebase {t : TrState} {d : Nat} (h : d ≤ t.base - lookBack t.mode) :
    interpolate (trRebase d t) = interpolate t := by
  have hread (i j : Nat) (hij : d + i = j) : memRead (trRebase d t).queue i = memRead t.queue j :=
    hij ▸ memRead_drop t.queue d i
  cases hm : t.mode with
  | linear =>
    rw [hm, lookBack] at h
    rw [interpolate_linear (t := trRebase d t) hm, interpolate_linear hm, trRebase_base, trRebase_mu,
      hread (t.base - d) t.base (by omega), hread (t.base - d + 1) (t.base + 1) (by omega)]
  | lagrange =>
    rw [hm, lookBack] at h
    have hbefore : memRead (trRebase d t).queue (t.base - d - 1) = memRead t.queue (t.base - 1) := by
      obtain rfl | hpos := Nat.eq_zero_or_pos d
      · exact hread _ _ (by omega)
      · exact hread _ _ (by omega)
    rw [interpolate_lagrange (t := trRebase d t) hm, interpolate_lagrange hm, trRebase_base, trRebase_mu, hbefore,
      hread (t.base - d) t.base (by omega), hread (t.base - d + 1) (t.base + 1) (by omega),
      hread (t.base - d + 2) (t.base + 2) (by omega)]

/-- An update goes through a change `f` of the state that its interpolation, its advance and its `mu` do not see, and that
its move respects. -/
theorem trStep_congr {f : TrState → TrState} {t u : TrState} {x : C32} {k k1 : Nat}
    (hinterp : interpolate (f t) = interpolate t) (hadv : ∀ y, trAdvance (f t) y = trAdvance t y) (hmu : (f t).mu = t.mu)
    (hmove : ∀ y a p, trMoved (f t) y a p = f (trMoved t y a p)) (h : runDraw (trStep t) k = ((x, u), k1)) :
    runDraw (trStep (f t)) k = ((x, f u), k1) := by
  rw [trStep_eq] at h ⊢
  simp only [hinterp, hadv, hmu, hmove, runDraw_bind, runDraw_pure, Prod.mk.injEq] at h ⊢
  obtain ⟨⟨hx, hu⟩, hk⟩ := h
  exact ⟨⟨hx, congrArg f hu⟩, hk⟩

theorem trStep_append {t u : TrState} {x : C32} {k k1 : Nat} (hr : trReady t = true) (xs : List C32)
    (h : runDraw (trStep t) k = ((x, u), k1)) : runDraw (trStep (trAppend xs t)) k = ((x, trAppend xs u), k1) :=
  trStep_congr (interpolate_append hr xs) (fun _ => rfl) rfl (fun _ _ _ => rfl) h

theorem trStep_rebase {t u : TrState} {x : C32} {k k1 d : Nat} (hd : d ≤ t.base - lookBack t.mode)
    (h : runDraw (trStep t) k = ((x, u), k1)) : runDraw (trStep (trRebase d t)) k = ((x, trRebase d u), k1) := by
  refine trStep_congr (interpolate_rebase hd) (fun _ => rfl) rfl (fun y a p => ?_) h
  have hbase : t.base - d + fFloor p = t.base + fFloor p - d := by omega
  simp only [trMoved, trRebase, hbase]

theorem trReady_append {t : TrState} (h : trReady t = true) (xs : List C32) : trReady (trAppend xs t) = true := by
  simp only [trReady, trAppend, List.length_append, decide_eq_true_eq] at h ⊢
  omega

theorem trReady_rebase {t : TrState} {d : Nat} (h : d ≤ trDropCount t) : trReady (trRebase d t) = trReady t := by
  obtain ⟨hbase, hlen⟩ := le_min_iff.1 h
  simp only [trReady, trRebase, List.length_drop, decide_eq_decide]
  omega

/-- An update consumes samples and gives none back. -/
theorem trDropCount_mono {t u : TrState} {x : C32} {k k1 : Nat} (h : runDraw (trStep t) k = ((x, u), k1)) :
    trDropCount t ≤ trDropCount u := by
  simp only [trStep_eq, runDraw_bind, runDraw_pure, Prod.mk.injEq] at h
  obtain ⟨⟨-, rfl⟩, -⟩ := h
  simp only [trDropCount, trMoved]
  omega

/-- A run of updates goes through with more samples behind it. -/
theorem TrEmits.append {t u : TrState} {k k1 : Nat} {ys : List C32} (h : TrEmits t k ys u k1) (xs : List C32) :
    TrEmits (trAppend xs t) k ys (trAppend xs u) k1 := by
  induction h with
  | nil => exact .nil _ _
  | cons hready hstep _ ih => exact .cons (trReady_append hready xs) (trStep_append hready xs hstep) ih

/-- A run of updates goes through without the samples that a drop before it takes. -/
theorem TrEmits.rebase {t u : TrState} {k k1 d : Nat} {ys : List C32} (h : TrEmits t k ys u k1) (hd : d ≤ trDropCount t) :
    TrEmits (trRebase d t) k ys (trRebase d u) k1 ∧ d ≤ trDropCount u := by
  induction h with
  | nil => exact ⟨.nil _ _, hd⟩
  | cons hready hstep _ ih =>
    obtain ⟨hrest, hdu⟩ := ih (hd.trans (trDropCount_mono hstep))
    exact ⟨.cons ((trReady_rebase hd).trans hready) (trStep_rebase (hd.trans (min_le_left _ _)) hstep) hrest, hdu⟩

/-- What a drop leaves to a later one is the same drop. -/
theorem trDrop_rebase {t : TrState} {d : Nat} (h : d ≤ trDropCount t) : trDrop (trRebase d t) = trDrop t := by
  have hcount : d + trDropCount (trRebase d t) = trDropCount t := by
    simp only [trDropCount, trRebase, List.length_drop] at h ⊢
    omega
  rw [trDrop_eq, trDrop_eq, ← hcount]
  simp only [trRebase, List.drop_drop, Nat.sub_sub]

/-- Appending to a queue that has lost its oldest samples. -/
theorem trAppend_rebase {t : TrState} {d : Nat} (h : d ≤ trDropCount t) (xs : List C32) :
    trAppend xs (trRebase d t) = trRebase d (trAppend xs t) := by
  simp only [trAppend, trRebase, List.drop_append_of_le_length (h.trans (min_le_right _ _))]

theorem trDropCount_append (t : TrState) (xs : List C32) : trDropCount t ≤ trDropCount (trAppend xs t) := by
  simp only [trDropCount, trAppend, List.length_append]
  omega

/-! ## The command's body -/

theorem trProcess_run (cap : Nat) (xs : List C32) (t : TrState) (k : Nat) : runDraw (trProcess cap xs t) k =
    (((runDraw (trLoop cap (trAppend xs t)) k).1.1, (runDraw (trLoop cap (trAppend xs t)) k).1.2.1,
      trDrop (runDraw (trLoop cap (trAppend xs t)) k).1.2.2), (runDraw (trLoop cap (trAppend xs t)) k).2) := rfl

/-- TR_PROCESS's body is a run of updates of the longer queue, and then the drop (R274, R277). -/
theorem trProcess_emits (cap : Nat) (xs : List C32) (t : TrState) (k : Nat) : ∃ ys u k', TrEmits (trAppend xs t) k ys u k' ∧
    runDraw (trProcess cap xs t) k = ((ys, trReady u, trDrop u), k') ∧
    ys.length ≤ cap ∧ (ys.length < cap → trReady u = false) := by
  obtain ⟨ys, u, k', hys, hrun, hbounds⟩ := trLoop_emits cap (trAppend xs t) k
  exact ⟨ys, u, k', hys, by rw [trProcess_run, hrun], hbounds⟩

theorem TrEmits.runDraw_trProcess {t u : TrState} {k k1 cap : Nat} {xs ys : List C32} (h : TrEmits (trAppend xs t) k ys u k1)
    (hle : ys.length ≤ cap) (hstop : ys.length < cap → trReady u = false) :
    runDraw (trProcess cap xs t) k = ((ys, trReady u, trDrop u), k1) := by
  rw [trProcess_run, h.runDraw_trLoop hle hstop]

/-- The drop before a TR_PROCESS changes nothing of what it emits and leaves (R277). -/
theorem trProcess_trDrop (cap : Nat) (xs : List C32) (t : TrState) (k : Nat) :
    runDraw (trProcess cap xs (trDrop t)) k = runDraw (trProcess cap xs t) k := by
  obtain ⟨ys, u, k', hys, hrun, hle, hstop⟩ := trProcess_emits cap xs t k
  obtain ⟨hdropped, hd⟩ := hys.rebase (trDropCount_append t xs)
  rw [← trAppend_rebase le_rfl] at hdropped
  rw [hrun, trDrop_eq, hdropped.runDraw_trProcess hle (fun h => (trReady_rebase hd).trans (hstop h)), trReady_rebase hd,
    trDrop_rebase hd]

theorem trAppend_nil (t : TrState) : trAppend [] t = t := by rw [trAppend, List.append_nil]

theorem trAppend_append (xs zs : List C32) (t : TrState) : trAppend zs (trAppend xs t) = trAppend (xs ++ zs) t := by
  simp only [trAppend, List.append_assoc]

/-! ## The command -/

/-- TR_PROCESS on a constructed block whose queue has room (R274). -/
theorem execTrProcess_configured {s : State} {cap : Word} {xs ys : List C32} {more : Bool} {u : TrState} {k : Nat}
    (hcfg : s.tr.cfg = true) (hroom : s.tr.queue.length + xs.length ≤ Config.trQcap)
    (hrun : runDraw (trProcess cap.toNat xs s.tr) s.nanDraws = ((ys, more, u), k)) :
    exec (.trProcess cap xs) s = .next { s with
      tr := u, nanDraws := k, resp := s.resp ++ statusWord 0 more :: natWord ys.length :: unpairWords ys } := by
  simp only [exec, execTrProcess, hcfg, Nat.not_lt.2 hroom, Bool.true_eq_false, if_false, hrun, complete_eq]
  rfl

theorem updatePossible_iff (t : TrState) : Claims.updatePossible t ↔ trReady t = true := by
  rw [trReady, decide_eq_true_iff, Claims.updatePossible]
  cases t.mode <;> rfl

theorem statusWord_moreBit (more : Bool) : statusWord 0 more = if more then 0x00000100 else 0x00000000 := by
  cases more
  · exact statusWord_ok
  · exact statusWord_more

theorem moreOf_of_resp {s t : State} {more : Bool} {out : List Word} (h : t.resp = s.resp ++ statusWord 0 more :: out) :
    Claims.moreOf s t = more := by
  rw [Claims.moreOf, statusOf_of_resp h, statusWord_getMore]

theorem unpairWords_append (xs ys : List C32) : unpairWords (xs ++ ys) = unpairWords xs ++ unpairWords ys := by
  induction xs with
  | nil => rfl
  | cons x xs ih => rw [List.cons_append, unpairWords, unpairWords, ih]; rfl

/-- A TR_PROCESS that its capacity did not stop has run to the point where no update is possible (R278), from any state `t`
that its body takes as it takes the block's. -/
theorem execTrProcess_drained {s s1 : State} {cap : Word} {xs : List C32} {t : TrState} (hcfg : s.tr.cfg = true)
    (hroom : s.tr.queue.length + xs.length ≤ Config.trQcap) (hexec : exec (.trProcess cap xs) s = .next s1)
    (hmore : Claims.moreOf s s1 = false)
    (ht : runDraw (trProcess cap.toNat xs s.tr) s.nanDraws = runDraw (trProcess cap.toNat xs t) s.nanDraws) :
    ∃ ys u, TrEmits (trAppend xs t) s.nanDraws ys u s1.nanDraws ∧ trReady u = false ∧ s1.tr = trDrop u ∧
      (Claims.newWords s s1).drop 2 = unpairWords ys := by
  obtain ⟨ys, u, k, hys, hrun, -⟩ := trProcess_emits cap.toNat xs t s.nanDraws
  cases (execTrProcess_configured hcfg hroom (ht.trans hrun)).symm.trans hexec
  refine ⟨ys, u, hys, (moreOf_of_resp rfl).symm.trans hmore, rfl, ?_⟩
  rw [newWords_of_resp rfl]
  rfl

end Sys2Proof.Machine

namespace Sys2Proof.Claims

open Sys2Proof.Machine

/-- Settles O40: the body is a run of possible updates (`trProcess_emits`). -/
theorem trProcessEmitsUpToCap : Obligations.TrProcessEmitsUpToCap := by
  intro s cap xs hcfg hroom start
  obtain ⟨ys, last, k, hys, hrun, hle, hstop⟩ := trProcess_emits cap.toNat xs s.tr s.nanDraws
  refine ⟨ys, trReady last, last, k, hrun, hys.runDraw_updates, fun m hm => (updatePossible_iff _).2 (hys.ready_of_lt hm), hle,
    fun h hpos => ?_, (updatePossible_iff last).symm, fun hmore => ?_, ?_⟩
  · exact Bool.noConfusion ((hstop h).symm.trans ((updatePossible_iff last).1 hpos))
  · by_contra hne
    exact Bool.noConfusion ((hstop (by omega)).symm.trans hmore)
  · rw [execTrProcess_configured hcfg hroom hrun, statusWord_moreBit]
    rfl

/-- Settles O41: the second part's run follows the first one's, whose drop does not matter to it (`trProcess_trDrop`), and the
joined run is the only one (`TrEmits.unique`). -/
theorem trProcessMaySplitItsInput : Obligations.TrProcessMaySplitItsInput := by
  intro s s1 s2 s3 c1 c2 c3 xs ys hcfg hroom h1 h2 h3 hm1 hm2 hm3
  rw [List.length_append] at hroom
  obtain ⟨l1, u1, hl1, -, htr1, hw1⟩ := execTrProcess_drained hcfg (by omega) h1 hm1 rfl
  obtain ⟨hqueue, hcfg1⟩ := hl1.fixed
  have hroom2 : s1.tr.queue.length + ys.length ≤ Config.trQcap := by
    have hdrop := trDrop_queue_length_le u1
    rw [← htr1, hqueue, trAppend, List.length_append] at hdrop
    omega
  obtain ⟨l2, u2, hl2, hr2, htr2, hw2⟩ :=
    execTrProcess_drained (t := u1) (htr1 ▸ hcfg1.trans hcfg) hroom2 h2 hm2 (htr1 ▸ trProcess_trDrop _ _ _ _)
  obtain ⟨l3, u3, hl3, hr3, htr3, hw3⟩ := execTrProcess_drained hcfg (by rwa [List.length_append]) h3 hm3 rfl
  have hjoined := (hl1.append ys).trans hl2
  rw [trAppend_append] at hjoined
  obtain ⟨hl, hu, hk⟩ := hl3.unique hjoined hr3 hr2
  exact ⟨by rw [htr3, htr2, hu], hk, by rw [hw3, hw1, hw2, hl, unpairWords_append]⟩

/-- Settles O42: the second run follows the first one's (`trProcess_trDrop`), and the two are one run of the capacities
together. -/
theorem trProcessResumesAfterMore : Obligations.TrProcessResumesAfterMore := by
  intro t a b xs k
  obtain ⟨l1, u, k1, hl1, hrun1, hle1, hstop1⟩ := trProcess_emits a xs t k
  obtain ⟨l2, v, k2, hl2, hrun2, hle2, hstop2⟩ := trProcess_emits b [] u k1
  rw [trAppend_nil] at hl2
  have hboth : (l1 ++ l2).length = l1.length + l2.length := List.length_append
  have hstop : (l1 ++ l2).length < a + b → trReady v = false := by
    intro h
    by_cases hlt : l2.length < b
    · exact hstop2 hlt
    · have hu := hstop1 (by omega)
      rw [(hl2.of_not_ready hu).2, hu]
  rw [runDraw_bind, hrun1, runDraw_bind, trProcess_trDrop, hrun2]
  exact (hl1.trans hl2).runDraw_trProcess (by omega) hstop

/-- Settles O44: the drop takes at most what stands before the look-back. -/
theorem trDropKeepsTheNeededSamples : Obligations.TrDropKeepsTheNeededSamples := by
  intro t hbase
  obtain ⟨hfrom, hnormalized⟩ := trDrop_normalized t hbase
  refine ⟨hnormalized, hfrom, fun j => ?_, rfl⟩
  have hcount : trDropCount t ≤ t.base - lookBack t.mode := min_le_left _ _
  have hindex : trDropCount t + (t.base - trDropCount t - lookBack t.mode + j) = t.base - lookBack t.mode + j := by omega
  rw [trDrop, List.getElem?_drop, hindex]

end Sys2Proof.Claims
end

section
/-!
PROOF. The timing update (44_timing.md R275): the error and the PI correction as the statement writes them (R276), the advance
as a finite value above zero (R281, R283), and the exact split of the position into the base and `mu` (R281).
-/

namespace Sys2Proof.Machine

/-! ## Sums above zero -/

/-- A number of units below 2^(24 + e) rounds to a finite value of at most that many. -/
theorem roundMag_bounded {num e : Nat} (h : num < 2 ^ (24 + e)) (he : e ≤ 252) :
    roundMag num 1 < 0x7F800000 ∧ magBits (roundMag num 1) ≤ 2 ^ (24 + e) := by
  obtain ⟨hfrac, -⟩ := roundFrac_bounds num 1 one_pos
  have hspacing : spacingExp (num / 1) ≤ e := by
    obtain h0 | hle := (spacingExp_spec (num / 1)).2
    · omega
    · rw [Nat.div_one, ← pow_add] at hle
      have := (Nat.pow_lt_pow_iff_right (by norm_num)).1 (hle.trans_lt h)
      rw [Nat.div_one]
      omega
  have hfin : roundMag num 1 < 0x7F800000 := by
    rw [roundMag_eq]
    omega
  refine ⟨hfin, ?_⟩
  rw [magBits_roundMag num 1 one_pos hfin, pow_add]
  exact Nat.mul_le_mul hfrac (Nat.pow_le_pow_right two_pos hspacing)

/-- A whole number of units other than zero does not round to zero. -/
theorem roundMag_ne_zero {num : Nat} (h : num ≠ 0) (hfin : roundMag num 1 < 0x7F800000) : roundMag num 1 ≠ 0 := by
  intro hzero
  have hnear := (roundMag_nearest num 1 1 one_pos hfin).1
  rw [hzero, show magBits 0 = 0 from rfl, show magBits 1 = 1 from rfl, abs_of_nonpos (by omega),
    abs_of_nonpos (by omega)] at hnear
  omega

/-- A sum above zero and far below the largest finite value is a finite value above zero. -/
theorem fAddCore_positive {a b : F32} {e : Nat} (ha : isFinite a = true) (hb : isFinite b = true)
    (hpos : 0 < fVal a + fVal b) (hlt : fVal a + fVal b < 2 ^ (24 + e)) (he : e ≤ 252) :
    ∃ r, fAddCore a b = some r ∧ Positive r ∧ fVal r ≤ 2 ^ (24 + e) := by
  obtain ⟨sign, hsum, hadd⟩ := fAddCore_finite ha hb
  have hplus : sign = false := by
    cases sign
    · rfl
    · rw [signedInt, if_pos rfl] at hsum
      omega
  subst hplus
  obtain ⟨hfin, hle⟩ := roundMag_bounded (num := (fVal a + fVal b).natAbs) (by zify; rwa [abs_of_pos hpos]) he
  have hne := roundMag_ne_zero (by omega) hfin
  have hmag : magBits 0 < magBits (roundMag (fVal a + fVal b).natAbs 1) := magBits_strictMono (Nat.pos_of_ne_zero hne)
  have hval : fVal (fPack false (roundMag (fVal a + fVal b).natAbs 1)) = magBits (roundMag (fVal a + fVal b).natAbs 1) :=
    fVal_fPack false _ (by omega)
  refine ⟨_, hadd, ⟨?_, (fLt_iff _ _).2 ⟨by decide, fPack_roundMag_not_nan _ _ _, ?_⟩⟩, ?_⟩
  · rwa [isFinite_iff, lowBits_fPack _ _ (by omega)]
  · rw [hval, fVal_zero]
    exact_mod_cast hmag
  · rw [hval]
    exact_mod_cast hle

/-! ## The advance -/

theorem clampedTo_eq (b v : F32) : Claims.clampedTo b v = clamp v (fNeg b) b := rfl

/-- An update without a previous decision advances by `sps` and leaves the integrator (R280). -/
theorem trAdvance_first {t : TrState} (h : t.havePrev = false) (x : C32) (k : Nat) :
    runDraw (trAdvance t x) k = ((t.integ, t.sps), k) := by
  rw [trAdvance, h, if_neg Bool.false_ne_true]
  rfl

/-- An update after a previous decision, operation by operation (R275, R276). -/
theorem trAdvance_later {t : TrState} (h : t.havePrev = true) (x : C32) : trAdvance t x = (do
    let e ← timingError t.prevD t.prevX (decision x) x
    let i ← (do let ie ← fMul t.ki e; fAdd t.integ ie)
    let v ← (do let pe ← fMul t.kp e; fAdd pe (sanitize i))
    let adv ← fAdd t.sps (clamp (sanitize v) (fNeg t.cmax) t.cmax)
    pure (sanitize i, adv)) := by
  simp only [trAdvance, h, if_true, bind_assoc]

/-- What the parameters' ranges bound: a correction within the clamp is smaller than `sps`, which is at most 2^169 units
(R270). -/
theorem correction_bounded {t : TrState} (h : TrGood t) (hcfg : t.cfg = true) {corr : F32} (hcorr : InRange t.cmax corr) :
    isFinite corr = true ∧ |fVal corr| < fVal t.sps ∧ fVal t.sps ≤ 2 ^ 169 := by
  obtain ⟨⟨-, -, hmax⟩, -, hfin, -, hlt⟩ := h.parameters hcfg
  obtain ⟨-, -, hsps⟩ := (fLe_iff _ _).1 hmax
  obtain ⟨-, -, hcmax⟩ := (fLt_iff _ _).1 hlt
  obtain ⟨-, -, habs⟩ := (inRange_abs _ _).1 hcorr
  exact ⟨isFinite_of_inRange hfin hcorr, habs.trans_lt hcmax, hsps.trans_eq (by decide)⟩

/-- A later advance is `sps` plus a correction within the clamp, a finite value above zero (R281, R283). -/
theorem trAdvance_corrected {t : TrState} (h : TrGood t) (hcfg : t.cfg = true) (hprev : t.havePrev = true) (x : C32)
    (k : Nat) : ∃ corr adv, InRange t.cmax corr ∧ fAddCore t.sps corr = some adv ∧ (runDraw (trAdvance t x) k).1.2 = adv ∧
      Positive adv ∧ fVal adv ≤ 2 ^ 170 := by
  obtain ⟨⟨hsps, -⟩, -, -, hcmax, -⟩ := h.parameters hcfg
  obtain ⟨v, k', hrun⟩ : ∃ v k', (runDraw (trAdvance t x) k).1.2 =
      (runDraw (fAdd t.sps (clamp (sanitize v) (fNeg t.cmax) t.cmax)) k').1 := by
    rw [trAdvance_later hprev]
    exact ⟨_, _, rfl⟩
  have hcorr : InRange t.cmax (clamp (sanitize v) (fNeg t.cmax) t.cmax) :=
    clamp_inRange (isNaN_of_isFinite (isFinite_sanitize v)) hcmax
  obtain ⟨hfin, hlt, hmax⟩ := correction_bounded h hcfg hcorr
  rw [abs_lt] at hlt
  obtain ⟨adv, hadv, hpos, hle⟩ := fAddCore_positive (e := 146) hsps hfin (by omega) (by norm_num at hmax ⊢; omega) (by norm_num)
  refine ⟨_, adv, hcorr, hadv, ?_, hpos, hle⟩
  rw [hrun, fAdd, hadv, runDraw_orNaN_some]

/-- Every advance is a finite value above zero (R281). -/
theorem trAdvance_positive {t : TrState} (h : TrGood t) (hcfg : t.cfg = true) (x : C32) (k : Nat) :
    Positive (runDraw (trAdvance t x) k).1.2 ∧ fVal (runDraw (trAdvance t x) k).1.2 ≤ 2 ^ 170 := by
  cases hprev : t.havePrev with
  | false =>
    obtain ⟨⟨hfin, hmin, hmax⟩, -⟩ := h.parameters hcfg
    obtain ⟨-, hnan, hone⟩ := (fLe_iff _ _).1 hmin
    obtain ⟨-, -, hle⟩ := (fLe_iff _ _).1 hmax
    rw [trAdvance_first hprev]
    have hf1 : 0 < fVal f1 := by decide
    have hfmax : fVal fSpsMax ≤ 2 ^ 170 := by decide
    exact ⟨⟨hfin, (fLt_iff _ _).2 ⟨by decide, hnan, fVal_zero ▸ hf1.trans_le hone⟩⟩, hle.trans hfmax⟩
  | true =>
    obtain ⟨_, _, -, -, rfl, hpos, hle⟩ := trAdvance_corrected h hcfg hprev x k
    exact ⟨hpos, hle⟩

/-! ## The split -/

/-- `mu` plus an advance is a finite value above zero (R281). -/
theorem position_positive {t : TrState} (h : TrGood t) {adv : F32} (hadv : Positive adv) (hle : fVal adv ≤ 2 ^ 170) :
    ∃ p, fAddCore t.mu adv = some p ∧ Positive p := by
  obtain ⟨hmin, hmax⟩ := h.mu_range
  obtain ⟨-, hnan, h0⟩ := (fLe_iff _ _).1 hmin
  obtain ⟨-, -, h1⟩ := (fLt_iff _ _).1 hmax
  obtain ⟨hfin, hpos⟩ := hadv
  obtain ⟨-, -, hv⟩ := (fLt_iff _ _).1 hpos
  have hone : fVal f1 = 2 ^ 149 := by decide
  rw [fVal_zero] at h0 hv
  rw [hone] at h1
  have hmu : isFinite t.mu = true := isFinite_of_abs_le (b := f1) (by decide) (by rw [hone, abs_of_nonneg h0]; exact h1.le)
  obtain ⟨p, hp, hpp, -⟩ := fAddCore_positive (e := 147) hmu hfin (by omega) (by norm_num at h1 hle ⊢; omega) (by norm_num)
  exact ⟨p, hp, hpp⟩

/-- A finite value above zero splits exactly into its floor and its fraction (R281). -/
theorem floor_fraction_exact {p : F32} (h : Positive p) :
    (fFloor p : Int) * 2 ^ 149 ≤ fVal p ∧ fVal p < (fFloor p + 1 : Int) * 2 ^ 149 ∧ isFinite (fFraction p) = true ∧
    fSign (fFraction p) = false ∧ fVal (fFraction p) = fVal p - fFloor p * 2 ^ 149 := by
  obtain ⟨hsign, -⟩ := fields_of_positive h
  have hcond : (isFinite p && !fSign p) = true := by rw [h.1, hsign]; rfl
  obtain ⟨hfin, hfrac⟩ := fVal_fFraction h.1 hsign
  have hval : fVal p = fMag p := by rw [fVal, hsign]; rfl
  have hfloor : fFloor p = fMag p / 2 ^ 149 := if_pos hcond
  have hfsign : fSign (fFraction p) = false := by
    rw [fFraction, if_pos hcond]
    exact fSign_fPack_roundMag _ _ _
  have hdiv := Nat.div_add_mod (fMag p) (2 ^ 149)
  have hmod := Nat.mod_lt (fMag p) (Nat.two_pow_pos 149)
  rw [hfrac, hval, hfloor]
  zify at hdiv hmod
  push_cast
  exact ⟨by omega, by omega, hfin, hfsign, by omega⟩

end Sys2Proof.Machine

namespace Sys2Proof.Claims

open Sys2Proof.Machine

/-- Settles O43: the advance is a positive finite value (`trAdvance_corrected`), and so is the position, which splits exactly
(`floor_fraction_exact`). -/
theorem trAdvanceIsSpsPlusClampedCorrection : Obligations.TrAdvanceIsSpsPlusClampedCorrection := by
  intro t hgood hcfg
  refine ⟨fun x k => ⟨fun hprev => trAdvance_first hprev x k, fun hprev => ⟨?_, ?_⟩⟩, fun k => ?_⟩
  · obtain ⟨corr, adv, hcorr, hadd, hadv, ⟨hfin, hpos⟩, -⟩ := trAdvance_corrected hgood hcfg hprev x k
    exact ⟨corr, adv, hcorr, hadd, hadv, hfin, hpos, trAdvance_integ_finite hgood.integ_finite x k⟩
  · rw [trAdvance_later hprev]
    simp only [timingError, decision, hardDecision_eq, clampedTo_eq, bind_assoc]
    rfl
  · obtain ⟨x, k1, hx⟩ : ∃ x k1, runDraw (interpolate t) k = (x, k1) := ⟨_, _, rfl⟩
    obtain ⟨integ, adv, k2, ha⟩ : ∃ integ adv k2, runDraw (trAdvance t x) k1 = ((integ, adv), k2) := ⟨_, _, _, rfl⟩
    obtain ⟨hpos, hle⟩ := trAdvance_positive hgood hcfg x k1
    rw [ha] at hpos hle
    obtain ⟨p, hp, hppos⟩ := position_positive hgood hpos hle
    obtain ⟨hfloor, hceil, hfin, hsign, hmu⟩ := floor_fraction_exact hppos
    refine ⟨x, integ, adv, p, fFraction p, fFloor p, k1, k2, hx, ha, hp, hfloor, hceil, hfin, hsign, hmu, ?_⟩
    rw [trStep, runDraw_bind, hx, runDraw_bind, ha, runDraw_bind, fAdd, hp]
    rfl

end Sys2Proof.Claims
end

section
/-!
PROOF. The interpolators (44_timing.md R272): their forms for every `mu`, and their value at `mu = 0`, where the base has
weight 1.0 and every other sample a weight of zero.
-/

namespace Sys2Proof.Machine

/-! ## Exact steps -/

/-- The computation draws nothing and answers a finite value of `v` units. -/
def Gives (m : Draw F32) (v : Int) : Prop := ∀ k, ∃ r, runDraw m k = (r, k) ∧ isFinite r = true ∧ fVal r = v

theorem Gives.bind {m : Draw F32} {f : F32 → Draw F32} {v w : Int} (hm : Gives m v)
    (hf : ∀ r, isFinite r = true → fVal r = v → Gives (f r) w) : Gives (m >>= f) w := by
  intro k
  obtain ⟨r, hrun, hfin, hval⟩ := hm k
  rw [runDraw_bind, hrun]
  exact hf r hfin hval k

/-- A product with a factor of value zero has the value zero. -/
theorem fMul_gives_zero {a b : F32} (ha : isFinite a = true) (hb : isFinite b = true) (h : fVal a = 0 ∨ fVal b = 0) :
    Gives (fMul a b) 0 := by
  intro k
  have hmag : fMag a * fMag b = 0 := by
    rw [← fVal_natAbs, ← fVal_natAbs]
    obtain h | h := h <;> simp [h]
  refine ⟨fPack (fSign a != fSign b) 0, ?_, ?_, ?_⟩
  · rw [fMul, fMulCore_finite ha hb, hmag, show roundMag 0 (2 ^ 149) = 0 by decide, runDraw_orNaN_some]
  · cases fSign a != fSign b <;> decide
  · cases fSign a != fSign b <;> decide

/-- A sum with a term of value zero has the other term's value. -/
theorem fAdd_gives {a b : F32} (ha : isFinite a = true) (hb : isFinite b = true) {v : Int}
    (h : fVal a = v ∧ fVal b = 0 ∨ fVal a = 0 ∧ fVal b = v) : Gives (fAdd a b) v := by
  intro k
  obtain ⟨c, hc, hexact, hv⟩ : ∃ c, isFinite c = true ∧ fVal a + fVal b = fVal c ∧ fVal c = v := by
    obtain ⟨hav, hbv⟩ | ⟨hav, hbv⟩ := h
    · exact ⟨a, ha, by omega, hav⟩
    · exact ⟨b, hb, by omega, hbv⟩
  obtain ⟨r, hsum, hfin, hval⟩ := fAddCore_exact ha hb hc hexact
  exact ⟨r, by rw [fAdd, hsum, runDraw_orNaN_some], hfin, hval.trans hv⟩

theorem fMul_f1_left {v : F32} (hv : isFinite v = true) : fMul f1 v = pure v := by
  rw [fMul, (Claims.multiplyingByOneIsExact v (isNaN_of_isFinite hv)).1]
  rfl

theorem fMul_f1_right {v : F32} (hv : isFinite v = true) : fMul v f1 = pure v := Draw.ext_run (fMul_one hv)

/-! ## The forms -/

theorem fourWeights_eq (mu : F32) : Claims.fourWeights mu = lagrangeWeights mu := by
  simp only [Claims.fourWeights, lagrangeWeights, bind_assoc]

/-! ## At the base -/

theorem fSub_f1_zero : fSub f1 0 = pure f1 := by
  rw [fSub, show fSubCore f1 0 = some f1 by decide]
  rfl

/-- The weights at `mu = 0` (R272). -/
theorem lagrangeWeights_zero : lagrangeWeights 0 = pure (0x80000000, f1, 0, 0x80000000) := by
  simp only [lagrangeWeights, fAdd, fSub, fMul, fDiv, orNaN, pure_bind,
    show fSubCore 0 f1 = some fMinus1 by decide, show fSubCore 0 f2 = some 0xC0000000 by decide,
    show fAddCore 0 f1 = some f1 by decide, show fMulCore 0 fMinus1 = some 0x80000000 by decide,
    show fMulCore 0x80000000 0xC0000000 = some 0 by decide, show fDivCore (fNeg 0) f6 = some 0x80000000 by decide,
    show fMulCore f1 fMinus1 = some fMinus1 by decide, show fMulCore fMinus1 0xC0000000 = some f2 by decide,
    show fDivCore f2 f2 = some f1 by decide, show fMulCore f1 0 = some 0 by decide,
    show fMulCore 0 0xC0000000 = some 0x80000000 by decide, show fDivCore (fNeg 0x80000000) f2 = some 0 by decide,
    show fDivCore 0x80000000 f6 = some 0x80000000 by decide]

theorem lerp_zero {q0 q1 : F32} (h0 : isFinite q0 = true) (h1 : isFinite q1 = true) : Gives (lerp 0 f1 q0 q1) (fVal q0) := by
  rw [lerp, fMul_f1_right h0, pure_bind]
  exact (fMul_gives_zero h1 (by decide) (.inr fVal_zero)).bind fun z hz hval => fAdd_gives h0 hz (.inl ⟨rfl, hval⟩)

theorem lagrangeSum_zero {qM q0 q1 q2 : F32} (hM : isFinite qM = true) (h0 : isFinite q0 = true) (h1 : isFinite q1 = true)
    (h2 : isFinite q2 = true) : Gives (lagrangeSum (0x80000000, f1, 0, 0x80000000) qM q0 q1 q2) (fVal q0) := by
  have hminus : fVal 0x80000000 = 0 := by decide
  rw [lagrangeSum, fMul_f1_left h0]
  simp only [pure_bind]
  exact (fMul_gives_zero (by decide) hM (.inl hminus)).bind fun aM hfM hvM =>
    (fAdd_gives hfM h0 (.inr ⟨hvM, rfl⟩)).bind fun s1 hf1 hv1 =>
    (fMul_gives_zero (by decide) h1 (.inl fVal_zero)).bind fun a1 hfa1 hva1 =>
    (fAdd_gives hf1 hfa1 (.inl ⟨hv1, hva1⟩)).bind fun s2 hf2 hv2 =>
    (fMul_gives_zero (by decide) h2 (.inl hminus)).bind fun a2 hfa2 hva2 =>
    fAdd_gives hf2 hfa2 (.inl ⟨hv2, hva2⟩)

/-- A sample put together of two components that draw nothing. -/
theorem sample_values {m n : Draw F32} {v w : Int} (hm : Gives m v) (hn : Gives n w) (k : Nat) :
    fVal (runDraw (do let re ← m; let im ← n; pure (⟨re, im⟩ : C32)) k).1.re = v ∧
    fVal (runDraw (do let re ← m; let im ← n; pure (⟨re, im⟩ : C32)) k).1.im = w := by
  obtain ⟨re, hre, -, hv⟩ := hm k
  obtain ⟨im, him, -, hw⟩ := hn k
  rw [runDraw_bind, hre, runDraw_bind, him]
  exact ⟨hv, hw⟩

/-- At `mu = 0` both interpolators give the value of the sample at the base (R272). -/
theorem interpolate_zero {t : TrState} (hmu : t.mu = 0)
    (hfin : ∀ i, t.base - lookBack t.mode ≤ i → i ≤ t.base + lookAhead t.mode →
      isFinite (memRead t.queue i).re = true ∧ isFinite (memRead t.queue i).im = true) (k : Nat) :
    fVal (runDraw (interpolate t) k).1.re = fVal (memRead t.queue t.base).re ∧
    fVal (runDraw (interpolate t) k).1.im = fVal (memRead t.queue t.base).im := by
  cases hmode : t.mode with
  | linear =>
    rw [hmode, lookBack, lookAhead] at hfin
    obtain ⟨hre0, him0⟩ := hfin t.base (by omega) (by omega)
    obtain ⟨hre1, him1⟩ := hfin (t.base + 1) (by omega) (by omega)
    rw [interpolate_linear hmode, hmu, fSub_f1_zero, pure_bind]
    exact sample_values (lerp_zero hre0 hre1) (lerp_zero him0 him1) k
  | lagrange =>
    rw [hmode, lookBack, lookAhead] at hfin
    obtain ⟨hreM, himM⟩ := hfin (t.base - 1) le_rfl (by omega)
    obtain ⟨hre0, him0⟩ := hfin t.base (by omega) (by omega)
    obtain ⟨hre1, him1⟩ := hfin (t.base + 1) (by omega) (by omega)
    obtain ⟨hre2, him2⟩ := hfin (t.base + 2) (by omega) (by omega)
    rw [interpolate_lagrange hmode, hmu, lagrangeWeights_zero, pure_bind]
    exact sample_values (lagrangeSum_zero hreM hre0 hre1 hre2) (lagrangeSum_zero himM him0 him1 him2) k

end Sys2Proof.Machine

namespace Sys2Proof.Claims

open Sys2Proof.Machine

/-- Settles O45: the forms are the model's, operation by operation, and at `mu = 0` the base has weight 1.0 and the other
samples add zeros (`interpolate_zero`). -/
theorem interpolationAtZeroIsTheBaseSample : Obligations.InterpolationAtZeroIsTheBaseSample := by
  intro t k _ _ q
  refine ⟨fun hmode => ?_, fun hmode => ?_, fun hmu hfin => interpolate_zero hmu hfin k⟩
  · rw [interpolate_linear hmode]
    rfl
  · rw [interpolate_lagrange hmode, fourWeights_eq]
    rfl

end Sys2Proof.Claims
end

section
/-!
PROOF. Packing bits and the marker search (45_framer.md R322, R324): the bits of a packed byte by index, a byte's stream bits
packed again, and the search in terms of `standsAt`. Then FR_CONFIG (R321).
-/

namespace Sys2Proof.Machine

/-! ## Packing -/

/-- The last bit is the least significant one (R322). -/
theorem testBit_bitsMsb_reverse (bits : List Bool) (j : Nat) : (bitsMsb bits.reverse).testBit j = bits.getD j false := by
  induction bits generalizing j with
  | nil => exact Nat.zero_testBit j
  | cons b bits ih =>
    have hcons : bitsMsb (b :: bits).reverse = Nat.bit b (bitsMsb bits.reverse) := by
      rw [Nat.bit_val, List.reverse_cons, bitsMsb, List.foldl_concat]
      rfl
    rw [hcons]
    cases j with
    | zero => exact Nat.testBit_bit_zero b _
    | succ j => rw [Nat.testBit_bit_succ, ih, List.getD_cons_succ]

/-- Where bit `j` of the stream stands in its byte (R322). -/
def bitPlace (lsb : Bool) (j : Nat) : Nat := if lsb then j else 7 - j

theorem bitPlace_lt {lsb : Bool} {j : Nat} (h : j < 8) : bitPlace lsb j < 8 := by
  unfold bitPlace; split <;> omega

theorem bitPlace_bitPlace {lsb : Bool} {j : Nat} (h : j < 8) : bitPlace lsb (bitPlace lsb j) = j := by
  cases lsb
  · exact Nat.sub_sub_self (Nat.le_of_lt_succ h)
  · rfl

theorem packBits_getLsbD {bits : List Bool} (hlen : bits.length = 8) (lsb : Bool) {j : Nat} (hj : j < 8) :
    (packBits lsb bits).getLsbD (bitPlace lsb j) = bits.getD j false := by
  rw [packBits, BitVec.getLsbD_ofNat, decide_eq_true (bitPlace_lt hj), Bool.true_and]
  cases lsb with
  | false =>
    have hplace : 7 - j < bits.length := by omega
    have hback : bits.length - 1 - (7 - j) = j := by omega
    have hbits := testBit_bitsMsb_reverse bits.reverse (7 - j)
    rw [List.reverse_reverse, List.getD_reverse _ hplace, hback] at hbits
    exact hbits
  | true => exact testBit_bitsMsb_reverse bits j

theorem streamBits_length (lsb : Bool) (b : Byte) : (Claims.streamBits lsb b).length = 8 := by
  rw [Claims.streamBits, List.length_map, List.length_range]

theorem streamBits_getD (lsb : Bool) (b : Byte) {j : Nat} (hj : j < 8) :
    (Claims.streamBits lsb b).getD j false = b.getLsbD (bitPlace lsb j) := by
  rw [Claims.streamBits, List.getD_eq_getElem _ _ (by simpa using hj), List.getElem_map, List.getElem_range, bitPlace]

/-- A byte's stream bits pack to the byte (R322). -/
@[simp] theorem packBits_streamBits (lsb : Bool) (b : Byte) : packBits lsb (Claims.streamBits lsb b) = b := by
  refine BitVec.eq_of_getLsbD_eq fun i hi => ?_
  have hplace : bitPlace lsb i < 8 := bitPlace_lt hi
  have hbit := packBits_getLsbD (streamBits_length lsb b) lsb hplace
  rwa [streamBits_getD lsb b hplace, bitPlace_bitPlace hi] at hbit

/-! ## The marker search -/

/-- The marker's bytes one by one, by index (R324). -/
theorem markerAt_iff (lsb : Bool) (ms : List Byte) (bits : List Bool) : markerAt lsb ms bits = true ↔
    ∀ j, j < ms.length → packBits lsb ((bits.drop (8 * j)).take 8) = ms.getD j 0 := by
  induction ms generalizing bits with
  | nil => exact ⟨fun _ j hj => absurd hj (Nat.not_lt_zero j), fun _ => rfl⟩
  | cons m ms ih =>
    rw [markerAt, Bool.and_eq_true_iff, beq_iff_eq, ih]
    simp only [List.drop_drop]
    constructor
    · rintro ⟨hfirst, hrest⟩ (_ | j) hj
      · exact hfirst
      · rw [Nat.mul_succ, Nat.add_comm]
        exact hrest j (Nat.lt_of_succ_lt_succ hj)
    · intro h
      refine ⟨h 0 (Nat.succ_pos _), fun j hj => ?_⟩
      rw [Nat.add_comm, ← Nat.mul_succ]
      exact h (j + 1) (Nat.succ_lt_succ hj)

theorem standsAt_iff (lsb : Bool) (ms : List Byte) (wv : List Bool) (q : Nat) :
    Claims.standsAt lsb ms wv q ↔ q + 8 * ms.length ≤ wv.length ∧ markerAt lsb ms (wv.drop q) = true := by
  rw [Claims.standsAt, markerAt_iff]
  simp only [List.drop_drop]

theorem findMarker_eq_some_iff {lsb : Bool} {ms : List Byte} {wv : List Bool} {p : Nat} : findMarker lsb ms wv = some p ↔
    Claims.standsAt lsb ms wv p ∧ ∀ q, q < p → ¬ Claims.standsAt lsb ms wv q := by
  simp only [findMarker, List.find?_range_eq_some, List.mem_range, standsAt_iff, Bool.not_eq_true']
  constructor
  · rintro ⟨hat, hfit, hbefore⟩
    exact ⟨⟨by omega, hat⟩, fun q hq ⟨_, hq'⟩ => Bool.false_ne_true ((hbefore q hq).symm.trans hq')⟩
  · rintro ⟨⟨hfit, hat⟩, hbefore⟩
    exact ⟨hat, by omega, fun q hq => Bool.eq_false_iff.2 fun hq' => hbefore q hq ⟨by omega, hq'⟩⟩

theorem findMarker_eq_none_iff {lsb : Bool} {ms : List Byte} {wv : List Bool} : findMarker lsb ms wv = none ↔
    ∀ q, ¬ Claims.standsAt lsb ms wv q := by
  simp only [findMarker_eq_none, standsAt_iff, not_and, Bool.not_eq_true]

/-! ## The construction -/

/-- A flags word without a reserved bit is its bit 0. -/
theorem getLsbD_zero_eq_decide {flags : Word} (h : flags.toNat < 2) : flags.getLsbD 0 = decide (flags = 1) := by
  have hcases : flags = 0 ∨ flags = 1 := by bv_omega
  obtain rfl | rfl := hcases <;> rfl

/-- A marker's bytes as the statement unpacks them (R93). -/
theorem unpackBytes_eq (len : Nat) (ws : List Word) : unpackBytes len ws =
    (ws.flatMap (fun w => (List.range 4).map (fun j => w.extractLsb' (8 * j) 8))).take len := rfl

end Sys2Proof.Machine

namespace Sys2Proof.Claims

open Sys2Proof.Machine

/-- Settles O48: the bits of a packed byte by index (`packBits_getLsbD`), in both orders. -/
theorem packingFollowsTheBitOrder : Obligations.PackingFollowsTheBitOrder :=
  fun _ _ hlen hj => ⟨packBits_getLsbD hlen false hj, packBits_getLsbD hlen true hj⟩

/-- Settles O49: the search takes the offsets from 0 up, and tests at each what `standsAt` says (`standsAt_iff`). -/
theorem searchFindsTheEarliestMarker : Obligations.SearchFindsTheEarliestMarker :=
  fun _ _ _ _ => findMarker_eq_some_iff

/-- Settles O46: the checks in R321's order, and then the construction, without a reserved bit in the flags. -/
theorem frConfigConstructsOrRejects : Obligations.FrConfigConstructsOrRejects := by
  intro s msLen meLen flags ms me
  have hreserved : flags.extractLsb' 1 31 ≠ 0 ↔ flags.toNat ≥ 2 := (flagsAboveBit0_ne_zero_iff flags).trans (by omega)
  refine if_congr .rfl (raise_eq_failed .emptyMarker s) (if_congr .rfl (raise_eq_failed .markerTooLong s)
    (if_ctx_congr hreserved (fun _ => raise_eq_failed .invalidParam s) fun hflags => ?_))
  rw [← getLsbD_zero_eq_decide (Nat.lt_of_not_le hflags), ← unpackBytes_eq, ← unpackBytes_eq]
  exact complete_ok [] _

end Sys2Proof.Claims
end

section
/-!
PROOF. Pushing bits (45_framer.md R324, R328 to R330): the loop of `frPush` as four equations and one induction, free of its
round counter, and then that the bits may be split anywhere.
-/

namespace Sys2Proof.Machine

/-! ## The loop without its round counter -/

/-- Rounds that are enough: every bit may need a match and a round in the frame, and the last round takes no bit (R324). -/
def frRounds (f : FrState) (bits : List Bool) : Nat := 2 * bits.length + if f.inFrame then 1 else 2

theorem frRounds_inFrame {f : FrState} (h : f.inFrame = true) (bits : List Bool) : frRounds f bits = 2 * bits.length + 1 := by
  rw [frRounds, if_pos h]

theorem frRounds_searching {f : FrState} (h : f.inFrame = false) (bits : List Bool) :
    frRounds f bits = 2 * bits.length + 2 := by
  rw [frRounds, h]
  rfl

theorem frRounds_le (f : FrState) (bits : List Bool) : frRounds f bits ≤ 2 * bits.length + 2 := by
  unfold frRounds; split <;> omega

theorem frRounds_pos (f : FrState) (bits : List Bool) : 0 < frRounds f bits := by
  unfold frRounds; split <;> omega

theorem frRounds_bit {f : FrState} (h : f.inFrame = true) (g : FrState) (b : Bool) (rest : List Bool) :
    frRounds g rest < frRounds f (b :: rest) := by
  have := frRounds_le g rest
  rw [frRounds_inFrame h, List.length_cons]
  omega

theorem frRounds_lock {f : FrState} (h : f.inFrame = false) (bits : List Bool) (p k : Nat) :
    frRounds (frLock f p) (bits.drop k) < frRounds f bits := by
  rw [frRounds_searching h, frRounds_inFrame rfl, List.length_drop]
  omega

/-- What holds of a push follows along the rounds of R324: the end of the bits in a frame, a bit in a frame, a search without
a match, and a match. -/
theorem frPush_induction {motive : FrState → List Bool → Prop} {cap : Nat}
    (frameNil : ∀ f, f.inFrame = true → motive f [])
    (frameCons : ∀ f b rest, f.inFrame = true → motive (frBit cap f b).2 rest → motive f (b :: rest))
    (searchNone : ∀ f bits, f.inFrame = false → findMarker f.lsbFirst f.startMarker (f.tail ++ bits) = none → motive f bits)
    (searchSome : ∀ f bits p, f.inFrame = false → findMarker f.lsbFirst f.startMarker (f.tail ++ bits) = some p →
      motive (frLock f p) (bits.drop (matchEnd f p)) → motive f bits)
    (f : FrState) (bits : List Bool) : motive f bits := by
  induction hrounds : frRounds f bits using Nat.strong_induction_on generalizing f bits with
  | _ n ih =>
    subst hrounds
    cases hin : f.inFrame with
    | true =>
      cases bits with
      | nil => exact frameNil f hin
      | cons b rest => exact frameCons f b rest hin (ih _ (frRounds_bit hin _ b rest) _ _ rfl)
    | false =>
      cases hm : findMarker f.lsbFirst f.startMarker (f.tail ++ bits) with
      | none => exact searchNone f bits hin hm
      | some p => exact searchSome f bits p hin hm (ih _ (frRounds_lock hin bits p _) _ _ rfl)

section
variable {cap rounds : Nat} {f : FrState} {bits : List Bool}

theorem frLoop_frame_nil (hin : f.inFrame = true) : frLoop cap (rounds + 1) f [] = ([], f) := by
  rw [frLoop, if_pos hin]

theorem frLoop_frame_cons (hin : f.inFrame = true) (b : Bool) (rest : List Bool) : frLoop cap (rounds + 1) f (b :: rest) =
    ((frBit cap f b).1 ++ (frLoop cap rounds (frBit cap f b).2 rest).1, (frLoop cap rounds (frBit cap f b).2 rest).2) := by
  rw [frLoop, if_pos hin]

theorem frLoop_search_none (hin : f.inFrame = false)
    (hm : findMarker f.lsbFirst f.startMarker (f.tail ++ bits) = none) :
    frLoop cap (rounds + 1) f bits = ([], frKeepTail f bits) := by
  simp only [frLoop, hin, hm, Bool.false_eq_true, if_false]

theorem frLoop_search_some (hin : f.inFrame = false) {p : Nat}
    (hm : findMarker f.lsbFirst f.startMarker (f.tail ++ bits) = some p) :
    frLoop cap (rounds + 1) f bits = frLoop cap rounds (frLock f p) (bits.drop (matchEnd f p)) := by
  simp only [frLoop, hin, hm, Bool.false_eq_true, if_false]

/-- Rounds beyond the ones a push needs change nothing. -/
theorem frLoop_eq_of_le {m n : Nat} (hm : frRounds f bits ≤ m) (hn : frRounds f bits ≤ n) :
    frLoop cap m f bits = frLoop cap n f bits := by
  induction m generalizing n f bits with
  | zero => exact absurd hm (Nat.not_le_of_gt (frRounds_pos f bits))
  | succ m ih =>
    obtain ⟨n, rfl⟩ := Nat.exists_eq_add_one_of_ne_zero ((frRounds_pos f bits).trans_le hn).ne'
    cases hin : f.inFrame with
    | true =>
      cases bits with
      | nil => rw [frLoop_frame_nil hin, frLoop_frame_nil hin]
      | cons b rest =>
        have hless := frRounds_bit hin (frBit cap f b).2 b rest
        rw [frLoop_frame_cons hin, frLoop_frame_cons hin, ih (by omega) (by omega : _ ≤ n)]
    | false =>
      cases hmark : findMarker f.lsbFirst f.startMarker (f.tail ++ bits) with
      | none => rw [frLoop_search_none hin hmark, frLoop_search_none hin hmark]
      | some p =>
        have hless := frRounds_lock hin bits p (matchEnd f p)
        rw [frLoop_search_some hin hmark, frLoop_search_some hin hmark, ih (by omega) (by omega : _ ≤ n)]

theorem frPush_eq_frLoop (h : frRounds f bits ≤ rounds) : frPush cap f bits = frLoop cap rounds f bits :=
  frLoop_eq_of_le (frRounds_le f bits) h

theorem frPush_frame_nil (hin : f.inFrame = true) : frPush cap f [] = ([], f) := frLoop_frame_nil hin

theorem frPush_frame_cons (hin : f.inFrame = true) (b : Bool) (rest : List Bool) : frPush cap f (b :: rest) =
    ((frBit cap f b).1 ++ (frPush cap (frBit cap f b).2 rest).1, (frPush cap (frBit cap f b).2 rest).2) := by
  rw [frPush, frLoop_frame_cons hin, ← frPush_eq_frLoop (Nat.le_of_lt_succ ?_)]
  exact (frRounds_bit hin _ b rest).trans_le (frRounds_le f _)

theorem frPush_search_none (hin : f.inFrame = false)
    (hm : findMarker f.lsbFirst f.startMarker (f.tail ++ bits) = none) : frPush cap f bits = ([], frKeepTail f bits) :=
  frLoop_search_none hin hm

theorem frPush_search_some (hin : f.inFrame = false) {p : Nat}
    (hm : findMarker f.lsbFirst f.startMarker (f.tail ++ bits) = some p) :
    frPush cap f bits = frPush cap (frLock f p) (bits.drop (matchEnd f p)) := by
  rw [frPush, frLoop_search_some hin hm, ← frPush_eq_frLoop (Nat.le_of_lt_succ ?_)]
  exact (frRounds_lock hin bits p _).trans_le (frRounds_le f _)

end

/-! ## The search over two parts -/

theorem standsAt_append_iff {lsb : Bool} {ms : List Byte} {q : Nat} {wv : List Bool} (more : List Bool)
    (hfit : q + 8 * ms.length ≤ wv.length) :
    Claims.standsAt lsb ms (wv ++ more) q ↔ Claims.standsAt lsb ms wv q := by
  have hbyte : ∀ j, j < ms.length →
      ((wv ++ more).drop (q + 8 * j)).take 8 = (wv.drop (q + 8 * j)).take 8 := fun j hj => by
    rw [List.drop_append_of_le_length (by omega), List.take_append_of_le_length (by rw [List.length_drop]; omega)]
  unfold Claims.standsAt
  refine and_congr ⟨fun _ => hfit, fun _ => by rw [List.length_append]; omega⟩ (forall_congr' fun j => ?_)
  exact imp_congr_right fun hj => by rw [hbyte j hj]

theorem standsAt_drop_iff {lsb : Bool} {ms : List Byte} {wv : List Bool} {d q : Nat} (hd : d ≤ wv.length) :
    Claims.standsAt lsb ms (wv.drop d) q ↔ Claims.standsAt lsb ms wv (d + q) := by
  simp only [Claims.standsAt, List.drop_drop, List.length_drop, Nat.add_assoc]
  exact and_congr_left' (by omega)

/-- The first match in the first part is the first match in both (R324). -/
theorem findMarker_append_of_some {lsb : Bool} {ms : List Byte} {wv : List Bool} {p : Nat}
    (h : findMarker lsb ms wv = some p) (more : List Bool) : findMarker lsb ms (wv ++ more) = some p := by
  rw [findMarker_eq_some_iff] at h ⊢
  obtain ⟨hat, hbefore⟩ := h
  have hfit := hat.1
  exact ⟨(standsAt_append_iff more hfit).2 hat, fun q hq hq' => hbefore q hq ((standsAt_append_iff more (by omega)).1 hq')⟩

/-- A match that only the second part completes ends in it (R328). -/
theorem lt_of_findMarker_append {lsb : Bool} {ms : List Byte} {wv more : List Bool} {p : Nat}
    (hnone : findMarker lsb ms wv = none) (h : findMarker lsb ms (wv ++ more) = some p) : wv.length < p + 8 * ms.length := by
  by_contra hfit
  exact findMarker_eq_none_iff.1 hnone p
    ((standsAt_append_iff more (Nat.le_of_not_lt hfit)).1 (findMarker_eq_some_iff.1 h).1)

/-- Without the first `d` bits a first match behind them is the first match too, `d` places earlier. -/
theorem findMarker_drop_of_some {lsb : Bool} {ms : List Byte} {wv : List Bool} {d p : Nat} (hd : d ≤ wv.length)
    (h : findMarker lsb ms wv = some (d + p)) : findMarker lsb ms (wv.drop d) = some p := by
  rw [findMarker_eq_some_iff] at h ⊢
  obtain ⟨hat, hbefore⟩ := h
  exact ⟨(standsAt_drop_iff hd).2 hat, fun q hq hq' => hbefore (d + q) (by omega) ((standsAt_drop_iff hd).1 hq')⟩

/-! ## The retained tail -/

theorem lastN_append {α : Type} (k : Nat) (l more : List α) : lastN k l ++ more = (l ++ more).drop (l.length - k) := by
  rw [lastN, List.drop_append_of_le_length (Nat.sub_le _ _)]

theorem lastN_lastN_append {α : Type} (k : Nat) (l more : List α) : lastN k (lastN k l ++ more) = lastN k (l ++ more) := by
  rw [lastN_append, lastN, lastN, List.drop_drop, List.length_drop, List.length_append]
  congr 1
  omega

/-- Two passes without a match keep what one keeps (R328). -/
theorem frKeepTail_frKeepTail (f : FrState) (b1 b2 : List Bool) :
    frKeepTail (frKeepTail f b1) b2 = frKeepTail f (b1 ++ b2) := by
  have htail := lastN_lastN_append (8 * f.startMarker.length + 7) (f.tail ++ b1) b2
  rw [List.append_assoc] at htail
  rw [frKeepTail, frKeepTail, frKeepTail, List.length_append, BitVec.ofNat_add, ← htail, BitVec.add_assoc]

/-- How many of the oldest bits a pass without a match lets go (R328). -/
def frDropped (f : FrState) (bits : List Bool) : Nat := (f.tail ++ bits).length - (8 * f.startMarker.length + 7)

theorem frDropped_le (f : FrState) (b1 b2 : List Bool) : frDropped f b1 ≤ (f.tail ++ (b1 ++ b2)).length := by
  rw [frDropped]
  simp only [List.length_append]
  omega

theorem frKeepTail_tail_append (f : FrState) (b1 b2 : List Bool) :
    (frKeepTail f b1).tail ++ b2 = (f.tail ++ (b1 ++ b2)).drop (frDropped f b1) := by
  rw [frKeepTail, lastN_append, List.append_assoc, frDropped]

theorem frKeepTail_tail_length (f : FrState) (bits : List Bool) :
    (frKeepTail f bits).tail.length + frDropped f bits = f.tail.length + bits.length := by
  rw [frKeepTail, lastN_length, frDropped, List.length_append]
  omega

/-- The tail keeps enough: a match that the second part completes is found in the tail and the second part (R328). -/
theorem findMarker_frKeepTail {f : FrState} {b1 b2 : List Bool} {p : Nat}
    (hlate : (f.tail ++ b1).length < p + 8 * f.startMarker.length)
    (hsome : findMarker f.lsbFirst f.startMarker (f.tail ++ (b1 ++ b2)) = some p) :
    ∃ p', p = frDropped f b1 + p' ∧ findMarker f.lsbFirst f.startMarker ((frKeepTail f b1).tail ++ b2) = some p' := by
  obtain ⟨p', rfl⟩ := Nat.exists_eq_add_of_le (by unfold frDropped; omega : frDropped f b1 ≤ p)
  refine ⟨p', rfl, ?_⟩
  rw [frKeepTail_tail_append]
  exact findMarker_drop_of_some (frDropped_le f b1 b2) hsome

theorem matchEnd_frKeepTail {f : FrState} {b1 : List Bool} {p : Nat}
    (hlate : (f.tail ++ b1).length < frDropped f b1 + p + 8 * f.startMarker.length) :
    matchEnd f (frDropped f b1 + p) = b1.length + matchEnd (frKeepTail f b1) p := by
  have hlen := frKeepTail_tail_length f b1
  have hmarker : (frKeepTail f b1).startMarker = f.startMarker := rfl
  rw [List.length_append] at hlate
  rw [matchEnd, matchEnd, hmarker]
  omega

/-- The alignment is a position in the whole stream, whatever part of it is retained (R329). -/
theorem frLock_frKeepTail {f : FrState} {b1 : List Bool} {p : Nat}
    (hlate : (f.tail ++ b1).length < frDropped f b1 + p + 8 * f.startMarker.length) :
    frLock (frKeepTail f b1) p = frLock f (frDropped f b1 + p) := by
  have halign : f.bitpos + BitVec.ofNat 3 b1.length - BitVec.ofNat 3 (frKeepTail f b1).tail.length + BitVec.ofNat 3 p =
      f.bitpos - BitVec.ofNat 3 f.tail.length + BitVec.ofNat 3 (frDropped f b1 + p) := by
    have hlen := congrArg (BitVec.ofNat 3) (frKeepTail_tail_length f b1)
    simp only [BitVec.ofNat_add] at hlen ⊢
    linear_combination -hlen
  have hbitpos : f.bitpos + BitVec.ofNat 3 b1.length + BitVec.ofNat 3 (matchEnd (frKeepTail f b1) p) =
      f.bitpos + BitVec.ofNat 3 (matchEnd f (frDropped f b1 + p)) := by
    rw [matchEnd_frKeepTail hlate, BitVec.ofNat_add, BitVec.add_assoc]
  rw [frLock, frLock, ← halign, ← hbitpos]
  rfl

/-- After a search without a match the tail stands for all the bits before it (R328, R330). -/
theorem frPush_frKeepTail {cap : Nat} {f : FrState} {b1 : List Bool} (hin : f.inFrame = false)
    (hnone : findMarker f.lsbFirst f.startMarker (f.tail ++ b1) = none) (b2 : List Bool) :
    frPush cap (frKeepTail f b1) b2 = frPush cap f (b1 ++ b2) := by
  cases hm : findMarker f.lsbFirst f.startMarker (f.tail ++ (b1 ++ b2)) with
  | none =>
    have hnone' : findMarker f.lsbFirst f.startMarker ((frKeepTail f b1).tail ++ b2) = none := by
      rw [frKeepTail_tail_append]
      exact findMarker_drop hm (frDropped_le f b1 b2)
    rw [frPush_search_none hin hm, frPush_search_none (f := frKeepTail f b1) hin hnone', frKeepTail_frKeepTail]
  | some p =>
    have hlate := lt_of_findMarker_append hnone ((List.append_assoc _ _ _).symm ▸ hm)
    obtain ⟨p', rfl, hm'⟩ := findMarker_frKeepTail hlate hm
    rw [frPush_search_some hin hm, frPush_search_some (f := frKeepTail f b1) hin hm', frLock_frKeepTail hlate,
      matchEnd_frKeepTail hlate, List.drop_length_add_append]

/-- Bits may be pushed in two parts, whatever state the framer is in (R330). -/
theorem frPush_append (cap : Nat) (f : FrState) (b1 b2 : List Bool) : frPush cap f (b1 ++ b2) =
    ((frPush cap f b1).1 ++ (frPush cap (frPush cap f b1).2 b2).1, (frPush cap (frPush cap f b1).2 b2).2) := by
  induction f, b1 using frPush_induction (cap := cap) with
  | frameNil f hin => rw [frPush_frame_nil hin]; rfl
  | frameCons f b rest hin ih =>
    rw [List.cons_append, frPush_frame_cons hin, frPush_frame_cons hin, ih, List.append_assoc]
  | searchNone f b1 hin hnone => rw [frPush_search_none hin hnone, frPush_frKeepTail hin hnone]; rfl
  | searchSome f b1 p hin hsome ih =>
    have hboth := findMarker_append_of_some hsome b2
    rw [List.append_assoc] at hboth
    have hend : matchEnd f p ≤ b1.length := by
      have hfit := (findMarker_eq_some_iff.1 hsome).1.1
      rw [List.length_append] at hfit
      rw [matchEnd]
      omega
    rw [frPush_search_some hin hsome, frPush_search_some hin hboth, List.drop_append_of_le_length hend, ih]

end Sys2Proof.Machine

namespace Sys2Proof.Claims

open Sys2Proof.Machine

/-- Settles O50: the split by induction along the rounds of the loop (`frPush_append`), where a tail stands for the bits
before it; and a search without a match ends the loop. -/
theorem pushingBitsMayBeSplit : Obligations.PushingBitsMayBeSplit := by
  refine ⟨fun f b1 b2 _ _ => frPush_append _ f b1 b2, fun f bits hin hnone => ?_⟩
  rw [frPush_search_none hin (findMarker_eq_none_iff.2 hnone), frKeepTail, lastN]
  simp only [tsub_min]

end Sys2Proof.Claims
end

section
/-!
PROOF. A frame from its start marker to its end (45_framer.md R324 to R327, R329): the lock, the payload's bytes one by one
from their stream bits, and how the last byte closes or drops the frame.
-/

namespace Sys2Proof.Machine

/-! ## The bits of a byte sequence -/

theorem streamOf_append (lsb : Bool) (bs cs : List Byte) :
    Claims.streamOf lsb (bs ++ cs) = Claims.streamOf lsb bs ++ Claims.streamOf lsb cs := List.flatMap_append

theorem streamOf_cons (lsb : Bool) (b : Byte) (bs : List Byte) :
    Claims.streamOf lsb (b :: bs) = Claims.streamBits lsb b ++ Claims.streamOf lsb bs := List.flatMap_cons

theorem streamOf_length (lsb : Bool) (bs : List Byte) : (Claims.streamOf lsb bs).length = 8 * bs.length := by
  induction bs with
  | nil => rfl
  | cons b bs ih => rw [streamOf_cons, List.length_append, streamBits_length, ih, List.length_cons, Nat.mul_succ, Nat.add_comm]

/-- A marker stands at the head of its own bits (R324). -/
theorem markerAt_streamOf (lsb : Bool) (ms : List Byte) : markerAt lsb ms (Claims.streamOf lsb ms) = true := by
  induction ms with
  | nil => rfl
  | cons m ms ih =>
    have hlen := streamBits_length lsb m
    rw [streamOf_cons, markerAt, List.take_left' hlen, List.drop_left' hlen, packBits_streamBits, ih, beq_self_eq_true]
    rfl

/-! ## The lock -/

/-- A SEARCHING framer at the marker that starts `n` bits into its retained and new bits: nothing retained, and the marker's
position as the alignment (R329). -/
def frLocked (f : FrState) (n : Nat) : FrState :=
  { f with tail := [], ring := [], pk := [],
           bitpos := f.bitpos - BitVec.ofNat 3 f.tail.length + BitVec.ofNat 3 n,
           align := f.bitpos - BitVec.ofNat 3 f.tail.length + BitVec.ofNat 3 n }

section
variable {f : FrState} {pre head : List Bool}
  (hbits : f.tail ++ head = pre ++ Claims.streamOf f.lsbFirst f.startMarker)
include hbits

/-- The marker after `pre` is the first one where none stands earlier (R324). -/
theorem findMarker_streamOf
    (hfirst : ∀ q, q < pre.length → ¬ Claims.standsAt f.lsbFirst f.startMarker (f.tail ++ head) q) :
    findMarker f.lsbFirst f.startMarker (f.tail ++ head) = some pre.length := by
  refine findMarker_eq_some_iff.2 ⟨(standsAt_iff _ _ _ _).2 ⟨?_, ?_⟩, hfirst⟩
  · rw [hbits, List.length_append, streamOf_length]
  · rw [hbits, List.drop_left]
    exact markerAt_streamOf _ _

theorem matchEnd_streamOf : matchEnd f pre.length = head.length := by
  have hlen := congrArg List.length hbits
  rw [List.length_append, List.length_append, streamOf_length] at hlen
  rw [matchEnd]
  omega

/-- The lock takes all the bits and starts a frame, with the position of the marker's first bit as its alignment; the stream
is the marker's whole bytes further, which is the same position modulo 8 (R329). -/
theorem frPush_marker (cap : Nat) (hin : f.inFrame = false)
    (hfirst : ∀ q, q < pre.length → ¬ Claims.standsAt f.lsbFirst f.startMarker (f.tail ++ head) q) :
    frPush cap f head = ([], { frLocked f pre.length with inFrame := true }) := by
  have hend := matchEnd_streamOf hbits
  have hposition : f.bitpos + BitVec.ofNat 3 head.length =
      f.bitpos - BitVec.ofNat 3 f.tail.length + BitVec.ofNat 3 pre.length := by
    have hlen := congrArg (fun bits => BitVec.ofNat 3 bits.length) hbits
    simp only [List.length_append, streamOf_length, BitVec.ofNat_add, BitVec.ofNat_mul] at hlen
    have hwhole : BitVec.ofNat 3 8 * BitVec.ofNat 3 f.startMarker.length = 0 := BitVec.zero_mul
    linear_combination hlen + hwhole
  rw [frPush_search_some hin (findMarker_streamOf hbits hfirst), hend, List.drop_length, frPush_frame_nil rfl, frLock, hend,
    hposition, frLocked]

end

/-! ## Bytes in a frame -/

section
variable {cap : Nat} {f : FrState}

theorem frByte_full (hfull : f.ring.length = cap) (b : Byte) : frByte cap f b = ([], frSearch f) := if_pos hfull

theorem frByte_closes (hroom : f.ring.length ≠ cap) {b : Byte} (hlen : f.endMarker.length ≤ f.ring.length + 1)
    (hend : lastN f.endMarker.length (f.ring ++ [b]) = f.endMarker) :
    frByte cap f b = ([(f.ring ++ [b]).take (f.ring.length + 1 - f.endMarker.length)], frSearch f) :=
  (if_neg hroom).trans (if_pos ⟨hlen, hend⟩)

theorem frByte_joins (hroom : f.ring.length ≠ cap) {b : Byte}
    (hno : f.endMarker.length ≤ f.ring.length + 1 → lastN f.endMarker.length (f.ring ++ [b]) ≠ f.endMarker) :
    frByte cap f b = ([], { f with ring := f.ring ++ [b] }) :=
  (if_neg hroom).trans (if_neg fun h => hno h.1 h.2)

/-- Bits that do not fill the packer's byte only join it (R325). -/
theorem frPush_packs (hin : f.inFrame = true) {bits : List Bool} (hlen : f.pk.length + bits.length ≤ 7) (rest : List Bool) :
    frPush cap f (bits ++ rest) =
      frPush cap { f with pk := f.pk ++ bits, bitpos := f.bitpos + BitVec.ofNat 3 bits.length } rest := by
  induction bits generalizing f with
  | nil => simp
  | cons b bits ih =>
    rw [List.length_cons] at hlen
    have hbit : frBit cap f b = ([], { f with pk := f.pk ++ [b], bitpos := f.bitpos + 1 }) := if_neg (by omega)
    have hposition : f.bitpos + 1 + BitVec.ofNat 3 bits.length = f.bitpos + BitVec.ofNat 3 (b :: bits).length := by
      rw [List.length_cons, Nat.add_comm bits.length, BitVec.ofNat_add, BitVec.add_assoc]
      rfl
    rw [List.cons_append, frPush_frame_cons hin, hbit, List.nil_append]
    refine (ih (f := { f with pk := f.pk ++ [b], bitpos := f.bitpos + 1 }) hin ?_).trans ?_
    · rw [List.length_append, List.length_singleton]
      omega
    · rw [hposition, List.append_assoc, List.singleton_append]

/-- A byte's eight bits, pushed into an empty packer, complete that byte (R324, R325). -/
theorem frPush_byte (hin : f.inFrame = true) (hpk : f.pk = []) (b : Byte) (rest : List Bool) :
    frPush cap f (Claims.streamBits f.lsbFirst b ++ rest) =
      ((frByte cap f b).1 ++ (frPush cap (frByte cap f b).2 rest).1, (frPush cap (frByte cap f b).2 rest).2) := by
  obtain ⟨bits, last, hsplit⟩ : ∃ bits last, Claims.streamBits f.lsbFirst b = bits ++ [last] :=
    (List.eq_nil_or_concat' _).resolve_left (List.ne_nil_of_length_pos (by rw [streamBits_length]; exact Nat.succ_pos 7))
  have hlen : bits.length = 7 := by
    have := streamBits_length f.lsbFirst b
    rw [hsplit, List.length_append, List.length_singleton] at this
    omega
  have hbyte : packBits f.lsbFirst (bits ++ [last]) = b := by rw [← hsplit, packBits_streamBits]
  have hposition : f.bitpos + BitVec.ofNat 3 bits.length + 1 = f.bitpos := by
    rw [hlen, BitVec.add_assoc]
    exact BitVec.add_zero _
  have hbit : frBit cap { f with pk := bits, bitpos := f.bitpos + BitVec.ofNat 3 bits.length } last = frByte cap f b := by
    have hfull : bits.length + 1 = 8 := by omega
    rw [frBit, if_pos hfull, hposition, hbyte, ← hpk]
  rw [hsplit, List.append_assoc, frPush_packs hin (by rw [hpk, hlen]; rfl), hpk, List.nil_append, List.singleton_append,
    frPush_frame_cons (f := { f with pk := bits, bitpos := f.bitpos + BitVec.ofNat 3 bits.length }) hin, hbit]

end

/-- No part of the bytes from the first on ends with the end marker (R325). -/
def NeverEnds (endMarker bytes : List Byte) : Prop :=
  ∀ j, endMarker.length ≤ j → j ≤ bytes.length → lastN endMarker.length (bytes.take j) ≠ endMarker

theorem NeverEnds.last {endMarker bytes : List Byte} {b : Byte} {rest : List Byte}
    (h : NeverEnds endMarker (bytes ++ b :: rest)) (hlen : endMarker.length ≤ bytes.length + 1) :
    lastN endMarker.length (bytes ++ [b]) ≠ endMarker := by
  have hhead : bytes ++ b :: rest = (bytes ++ [b]) ++ rest := by rw [List.append_assoc, List.singleton_append]
  have hj := h (bytes.length + 1) hlen (by rw [List.length_append, List.length_cons]; omega)
  rwa [hhead, List.take_left' (by rw [List.length_append, List.length_singleton])] at hj

/-- Bytes that fit the ring and complete no end marker join it (R325). -/
theorem frPush_joins {cap : Nat} {f : FrState} (hin : f.inFrame = true) (hpk : f.pk = []) {bytes : List Byte}
    (hroom : f.ring.length + bytes.length ≤ cap) (hno : NeverEnds f.endMarker (f.ring ++ bytes)) (rest : List Bool) :
    frPush cap f (Claims.streamOf f.lsbFirst bytes ++ rest) = frPush cap { f with ring := f.ring ++ bytes } rest := by
  induction bytes generalizing f with
  | nil => rw [List.append_nil]; rfl
  | cons b bytes ih =>
    rw [List.length_cons] at hroom
    have hjoined : f.ring ++ [b] ++ bytes = f.ring ++ b :: bytes := by rw [List.append_assoc, List.singleton_append]
    rw [streamOf_cons, List.append_assoc, frPush_byte hin hpk, frByte_joins (by omega) hno.last, List.nil_append]
    refine (ih (f := { f with ring := f.ring ++ [b] }) hin hpk ?_ (hjoined ▸ hno)).trans ?_
    · rw [List.length_append, List.length_singleton]
      omega
    · rw [hjoined]

/-! ## The end of a frame -/

section
variable {cap : Nat} {f : FrState} (hin : f.inFrame = true) (hpk : f.pk = []) (hring : f.ring = [])
include hin hpk hring

/-- The bytes of a new frame up to the one that closes or drops it (R325 to R327). -/
theorem frPush_last {bytes : List Byte} {b : Byte} (hroom : bytes.length ≤ cap) (hno : NeverEnds f.endMarker bytes)
    (rest : List Bool) : frPush cap f (Claims.streamOf f.lsbFirst (bytes ++ [b]) ++ rest) =
      ((frByte cap { f with ring := bytes } b).1 ++ (frPush cap (frByte cap { f with ring := bytes } b).2 rest).1,
       (frPush cap (frByte cap { f with ring := bytes } b).2 rest).2) := by
  have hjoins := frPush_joins (cap := cap) (f := f) (bytes := bytes) hin hpk
  simp only [hring, List.nil_append, List.length_nil, Nat.zero_add] at hjoins
  rw [streamOf_append, List.append_assoc, hjoins hroom hno]
  have hlast : Claims.streamOf f.lsbFirst [b] = Claims.streamBits f.lsbFirst b := List.flatMap_singleton _ _
  rw [hlast]
  exact frPush_byte (f := { f with ring := bytes }) hin hpk b rest

/-- The end marker's last byte closes the frame, whose payload stands before the marker (R325, R326). -/
theorem frPush_closes {payload : List Byte} (hend : f.endMarker ≠ [])
    (hroom : payload.length + f.endMarker.length ≤ cap)
    (hearly : ∀ j, f.endMarker.length ≤ j → j < payload.length + f.endMarker.length →
      lastN f.endMarker.length ((payload ++ f.endMarker).take j) ≠ f.endMarker) (rest : List Bool) :
    frPush cap f (Claims.streamOf f.lsbFirst (payload ++ f.endMarker) ++ rest) =
      (payload :: (frPush cap (frSearch f) rest).1, (frPush cap (frSearch f) rest).2) := by
  obtain ⟨bytes, b, hsplit⟩ : ∃ bytes b, payload ++ f.endMarker = bytes ++ [b] :=
    (List.eq_nil_or_concat' _).resolve_left (List.append_ne_nil_of_right_ne_nil _ hend)
  have hlen : payload.length + f.endMarker.length = bytes.length + 1 := by
    have := congrArg List.length hsplit
    rwa [List.length_append, List.length_append, List.length_singleton] at this
  have hno : NeverEnds f.endMarker bytes := fun j hj hle => by
    have hj' := hearly j hj (by omega)
    rwa [hsplit, List.take_append_of_le_length hle] at hj'
  have hstart : bytes.length + 1 - f.endMarker.length = payload.length := by omega
  have hmarker : lastN f.endMarker.length (bytes ++ [b]) = f.endMarker := by
    rw [lastN, ← hsplit, List.length_append, Nat.add_sub_cancel, List.drop_left]
  rw [hsplit, frPush_last hin hpk hring (by omega) hno,
    frByte_closes (f := { f with ring := bytes }) (by simp only; omega) (by simp only; omega) hmarker]
  simp only [hstart, ← hsplit, List.take_left, List.singleton_append]
  rfl

/-- A byte that finds the ring full is dropped with the frame (R327). -/
theorem frPush_overflows {body : List Byte} (hlen : body.length = cap + 1)
    (hearly : ∀ j, f.endMarker.length ≤ j → j ≤ cap → lastN f.endMarker.length (body.take j) ≠ f.endMarker)
    (rest : List Bool) : frPush cap f (Claims.streamOf f.lsbFirst body ++ rest) = frPush cap (frSearch f) rest := by
  obtain ⟨bytes, b, rfl⟩ : ∃ bytes b, body = bytes ++ [b] :=
    (List.eq_nil_or_concat' _).resolve_left (List.ne_nil_of_length_pos (by omega))
  rw [List.length_append, List.length_singleton, Nat.add_right_cancel_iff] at hlen
  have hno : NeverEnds f.endMarker bytes := fun j hj hle => by
    have hj' := hearly j hj (by omega)
    rwa [List.take_append_of_le_length hle] at hj'
  rw [frPush_last hin hpk hring hlen.le hno, frByte_full (f := { f with ring := bytes }) hlen, List.nil_append]
  rfl

end

/-- A push of no bits changes nothing where nothing is retained. -/
theorem frPush_search_nil {f : FrState} (cap : Nat) (hin : f.inFrame = false) (hstart : f.startMarker ≠ [])
    (htail : f.tail = []) : frPush cap f [] = ([], f) := by
  have hnone : findMarker f.lsbFirst f.startMarker (f.tail ++ []) = none := by
    rw [htail]
    exact findMarker_nil (List.length_pos_of_ne_nil hstart)
  have hkept : lastN (8 * f.startMarker.length + 7) (f.tail ++ []) = f.tail := by
    rw [htail]
    exact List.drop_nil
  have hposition : f.bitpos + BitVec.ofNat 3 ([] : List Bool).length = f.bitpos := BitVec.add_zero _
  rw [frPush_search_none hin hnone, frKeepTail, hkept, hposition]

end Sys2Proof.Machine

namespace Sys2Proof.Claims

open Sys2Proof.Machine

/-- Settles O51: the lock (`frPush_marker`), and from there the frame's bytes, the last of which closes it (`frPush_closes`)
or finds the ring full (`frPush_overflows`). -/
theorem framedPayloadComesBack : Obligations.FramedPayloadComesBack := by
  intro f pre head hin hstart hend hbits hfirst at8 locked
  have hlock := frPush_marker hbits Config.frRingCap hin hfirst
  have hlocked : frSearch { frLocked f pre.length with inFrame := true } = locked := by
    rw [frSearch, frLocked, ← hin]
  refine ⟨hlock, fun payload hroom hearly => ?_, fun body rest hlen hearly => ?_⟩
  · have hframe := frPush_closes (f := { frLocked f pre.length with inFrame := true }) rfl rfl rfl hend hroom hearly []
    rw [List.append_nil, hlocked, frPush_search_nil (f := locked) _ hin hstart rfl] at hframe
    rw [frPush_append, hlock]
    exact hframe
  · have hframe := frPush_overflows (f := { frLocked f pre.length with inFrame := true }) rfl rfl rfl hlen hearly rest
    rw [hlocked] at hframe
    rw [List.append_assoc, frPush_append, hlock]
    exact hframe

end Sys2Proof.Claims
end

section
/-!
PROOF. The orchestrator (46_pipeline.md): its options (R370), a symbol's bits (R371) and the quarter turn that differential
decoding cancels (R372), and the pipeline as the composition of the stage commands (R373, R374).
-/

namespace Sys2Proof.Machine

/-! ## The options -/

/-- A field of a word is zero where the number that stands there is. -/
theorem extractLsb'_ne_zero_iff {w : Nat} (v : BitVec w) (start len : Nat) :
    v.extractLsb' start len ≠ 0 ↔ v.toNat / 2 ^ start % 2 ^ len ≠ 0 := by
  rw [ne_eq, ← BitVec.toNat_inj, BitVec.extractLsb'_toNat, Nat.shiftRight_eq_div_pow]
  simp

theorem getLsbD_eq_decide {w : Nat} (v : BitVec w) (i : Nat) : v.getLsbD i = decide (v.toNat / 2 ^ i % 2 = 1) := by
  rw [← BitVec.testBit_toNat, Nat.testBit_eq_decide_div_mod_eq]

/-- The reserved bits of PIPE_CONFIG's flags, by weight (R370). -/
theorem pipeReserved_iff (flags : Word) : (flags.extractLsb' 2 6 ≠ 0 ∨ flags.extractLsb' 16 16 ≠ 0) ↔
    (flags.toNat / 4 % 64 ≠ 0 ∨ flags.toNat / 65536 ≠ 0) := by
  have hhigh : flags.toNat / 65536 % 65536 = flags.toNat / 65536 := Nat.mod_eq_of_lt (by omega)
  rw [extractLsb'_ne_zero_iff, extractLsb'_ne_zero_iff]
  norm_num only [hhigh]

/-- The demapping table in the flags, by weight (R370). -/
theorem pipeTable_eq (flags : Word) : flags.extractLsb' 8 8 = BitVec.ofNat 8 (flags.toNat / 256) := by
  rw [BitVec.extractLsb', Nat.shiftRight_eq_div_pow]

/-! ## A symbol's bits -/

/-- The number of a quadrant by the signs of its components (R371). -/
def quadrantNumber (m : C32) : Nat :=
  if fLe 0 m.re then (if fLe 0 m.im then 0 else 3) else (if fLe 0 m.im then 1 else 2)

theorem quadrant_eq (m : C32) : quadrant m = BitVec.ofNat 2 (quadrantNumber m) := by
  simp only [quadrant, quadrantNumber, sgn_eq_f1]
  split_ifs <;> rfl

theorem quadrant_toNat (m : C32) : (quadrant m).toNat = quadrantNumber m := by
  rw [quadrant_eq, quadrantNumber]
  split_ifs <;> rfl

/-- The two bits of a table entry stand side by side in the table (R42). -/
theorem demapEntry_getLsbD (demap : BitVec 8) (q : BitVec 2) {i : Nat} (hi : i < 2) :
    (demapEntry demap q).getLsbD i = demap.getLsbD (2 * q.toNat + i) := by
  rw [demapEntry, BitVec.getLsbD_extractLsb', decide_eq_true hi, Bool.true_and]

/-- Without differential decoding a symbol's quadrant selects its entry (R371). -/
theorem symbolBits_plain {p : PipeState} (h : p.diffEn = false) (m : C32) : symbolBits p m =
    ([(demapEntry p.demap (quadrant m)).getLsbD 1, (demapEntry p.demap (quadrant m)).getLsbD 0], p) := by
  simp only [symbolBits, h, Bool.false_eq_true, if_false]

/-- With it the step from the previous quadrant does (R372). -/
theorem symbolBits_differential {p : PipeState} (h : p.diffEn = true) (m : C32) : symbolBits p m =
    ([(demapEntry p.demap (quadrant m - p.diffPrev)).getLsbD 1, (demapEntry p.demap (quadrant m - p.diffPrev)).getLsbD 0],
      { p with diffPrev := quadrant m }) := by
  simp only [symbolBits, h, if_true]

theorem quadrant_sub_toNat (m : C32) (prev : BitVec 2) :
    (quadrant m - prev).toNat = (quadrantNumber m + 4 - prev.toNat) % 4 := by
  have hprev := prev.isLt
  rw [BitVec.toNat_sub, quadrant_toNat]
  omega

theorem demapBlock_nil (p : PipeState) : demapBlock p [] = ([], p) := rfl

theorem demapBlock_cons (p : PipeState) (m : C32) (ms : List C32) : demapBlock p (m :: ms) =
    ((symbolBits p m).1 ++ (demapBlock (symbolBits p m).2 ms).1, (demapBlock (symbolBits p m).2 ms).2) := rfl

/-! ## The quarter turn -/

/-- The hard decision on a component that has a sign turns with it. -/
theorem fLe_zero_fNeg {v : F32} (h : Claims.Signed v) : fLe 0 (fNeg v) = !fLe 0 v := by
  obtain ⟨hnan, hmag⟩ := h
  have hval : fVal v ≠ 0 := fun h0 => hmag (by rw [← fVal_natAbs, h0, Int.natAbs_zero])
  have hzero : isNaN 0 = false := by decide
  rw [Bool.eq_iff_iff, Bool.not_eq_true', ← Bool.not_eq_true, fLe_iff, fLe_iff, isNaN_fNeg, fVal_fNeg, fVal_zero]
  simp only [hnan, hzero, true_and]
  omega

/-- A quarter turn takes a symbol to the next quadrant (R371). -/
theorem quadrant_quarterTurn {m : C32} (him : Claims.Signed m.im) :
    quadrant (Claims.quarterTurn m) = quadrant m + 1 := by
  rw [quadrant_eq, quadrant_eq, quadrantNumber, quadrantNumber, Claims.quarterTurn, fLe_zero_fNeg him]
  cases fLe 0 m.re <;> cases fLe 0 m.im <;> rfl

/-- The orchestrator's options with the previous quadrant turned by a quarter. -/
def turned (p : PipeState) : PipeState := { p with diffPrev := p.diffPrev + 1 }

/-- A turned symbol after a turned one gives the same bits, and leaves the previous quadrant turned (R372). -/
theorem symbolBits_turned {p : PipeState} (hdiff : p.diffEn = true) {m : C32} (him : Claims.Signed m.im) :
    symbolBits (turned p) (Claims.quarterTurn m) = ((symbolBits p m).1, turned (symbolBits p m).2) := by
  have hstep : quadrant m + 1 - (p.diffPrev + 1) = quadrant m - p.diffPrev := by bv_omega
  rw [symbolBits_differential (p := turned p) hdiff, symbolBits_differential hdiff, quadrant_quarterTurn him]
  simp only [turned, hstep]

theorem demapBlock_turned {p : PipeState} (hdiff : p.diffEn = true) {ms : List C32}
    (hsigned : ∀ m ∈ ms, Claims.Signed m.im) :
    demapBlock (turned p) (ms.map Claims.quarterTurn) = ((demapBlock p ms).1, turned (demapBlock p ms).2) := by
  induction ms generalizing p with
  | nil => rfl
  | cons m ms ih =>
    obtain ⟨him, hrest⟩ := List.forall_mem_cons.1 hsigned
    have hdiff' : (symbolBits p m).2.diffEn = true := by rw [symbolBits_differential hdiff]; exact hdiff
    rw [List.map_cons, demapBlock_cons, symbolBits_turned hdiff him, ih hdiff' hrest, demapBlock_cons]

/-! ## The pipeline -/

/-- No block that the queue takes has more samples than the capacity operand can say (R5, R9). -/
theorem length_le_of_room {queued n : Nat} (h : queued + n ≤ Config.trQcap) : n ≤ (0xFFFFFFFF : Word).toNat := by
  have hcap : Config.trQcap < 2 ^ 32 := parameter_lt (0x000F2, Config.trQcap) (by simp [Claims.parameterTable])
  have hmax : (0xFFFFFFFF : Word).toNat = 2 ^ 32 - 1 := rfl
  omega

theorem fllStage_enabled (l : FllState) (ys : List C32) : fllStage true l ys = runBlock fllStep l ys := rfl

theorem fllStage_disabled (l : FllState) (ys : List C32) (k : Nat) : runDraw (fllStage false l ys) k = ((ys, l), k) := rfl

/-- The stages' runs, each over what the stage before it gave, are the pipeline's (R374). -/
theorem pipeSymbols_run {fllEn more : Bool} {cap k k1 k2 k3 k4 : Nat} {xs ys zs syms outs : List C32} {st : Stages}
    {fir : FirState} {fll : FllState} {tr : TrState} {cos : CosState}
    (hfir : runDraw (runBlock firStep st.fir xs) k = ((ys, fir), k1))
    (hfll : runDraw (fllStage fllEn st.fll ys) k1 = ((zs, fll), k2))
    (htr : runDraw (trProcess cap zs st.tr) k2 = ((syms, more, tr), k3))
    (hcos : runDraw (runBlock cosStep st.cos syms) k3 = ((outs, cos), k4)) :
    runDraw (pipeSymbols fllEn cap xs st) k =
      ((outs, more, { fir := fir, fll := fll, tr := tr, cos := cos }), k4) := by
  simp only [pipeSymbols, runDraw_bind, runDraw_pure, hfir, hfll, htr, hcos]

/-- PIPE_PROCESS on constructed stages whose queue has room (R373). -/
theorem execPipeProcess_configured {s : State} {cap : Word} {xs outs : List C32} {more : Bool} {st : Stages} {k : Nat}
    (hcfg : pipeConfigured s = true) (hroom : s.tr.queue.length + xs.length ≤ Config.trQcap)
    (hrun : runDraw (pipeSymbols s.pipe.fllEn cap.toNat xs s.stages) s.nanDraws = ((outs, more, st), k)) :
    exec (.pipeProcess cap xs) s = .next { s with
      fir := st.fir, fll := st.fll, tr := st.tr, cos := st.cos, nanDraws := k,
      pipe := (demapBlock s.pipe outs).2,
      fr := (frPush Config.frRingCap s.fr (demapBlock s.pipe outs).1).2,
      resp := s.resp ++ statusWord 0 more :: natWord outs.length ::
        (unpairWords outs ++ Claims.framesResponse (frPush Config.frRingCap s.fr (demapBlock s.pipe outs).1).1) } := by
  simp only [exec, execPipeProcess, hcfg, Nat.not_lt.2 hroom, Bool.true_eq_false, if_false, hrun, complete_eq,
    ← frameWords_eq_framesResponse]
  rfl

end Sys2Proof.Machine

namespace Sys2Proof.Claims

open Sys2Proof.Machine

/-- Settles O52: the checks in R370's order, and then the flags' fields by weight. -/
theorem pipeConfigSetsOptions : Obligations.PipeConfigSetsOptions := by
  intro s n flags
  refine if_congr .rfl (raise_eq_failed .badLength s)
    (if_congr (pipeReserved_iff flags) (raise_eq_failed .invalidParam s) ?_)
  rw [complete_ok, getLsbD_eq_decide, getLsbD_eq_decide, pipeTable_eq, pow_zero, Nat.div_one, pow_one]
  rfl

/-- Settles O53: the entry's two bits stand side by side in the table (`demapEntry_getLsbD`), at the quadrant's number or at
the difference's (`quadrant_sub_toNat`). -/
theorem symbolBitsFollowTheTable : Obligations.SymbolBitsFollowTheTable := by
  intro p m q
  refine ⟨fun hdiff => ?_, fun hdiff => ?_, demapBlock_nil p, demapBlock_cons p m⟩
  · rw [symbolBits_plain hdiff, demapEntry_getLsbD _ _ one_lt_two, demapEntry_getLsbD _ _ two_pos, quadrant_toNat]
    rfl
  · rw [symbolBits_differential hdiff, demapEntry_getLsbD _ _ one_lt_two, demapEntry_getLsbD _ _ two_pos,
      quadrant_sub_toNat, quadrant_eq]
    rfl

/-- Settles O54: a quarter turn takes every quadrant to the next (`quadrant_quarterTurn`), so no difference changes. -/
theorem differentialDecodingCancelsRotation : Obligations.DifferentialDecodingCancelsRotation :=
  fun _ _ hdiff hsigned => demapBlock_turned hdiff fun m hm => (hsigned m hm).2

/-- Settles O55: each stage's run is the run of its command, and the runs in a row are the pipeline's (`pipeSymbols_run`). -/
theorem pipeProcessComposesTheStages : Obligations.PipeProcessComposesTheStages := by
  intro s cap xs hfir htr hcos hfr hfll hroom
  have hcfg : pipeConfigured s = true := (pipeConfigured_iff s).2 ⟨hfir, htr, hcos, hfr, hfll⟩
  rcases hys : runDraw (runBlock firStep s.fir xs) s.nanDraws with ⟨⟨ys, fir⟩, k1⟩
  rcases hzs : runDraw (fllStage s.pipe.fllEn s.fll ys) k1 with ⟨⟨zs, fll⟩, k2⟩
  obtain ⟨syms, last, k3, -, hsyms, hle, -⟩ := trProcess_emits cap.toNat zs s.tr k2
  rcases houts : runDraw (runBlock cosStep s.cos syms) k3 with ⟨⟨outs, cos⟩, k4⟩
  have hyslen : ys.length = xs.length := by simpa only [hys] using runBlock_length firStep s.fir xs s.nanDraws
  have hzslen : zs.length = ys.length := by simpa only [hzs] using (fllStage_run s.pipe.fllEn s.fll ys k1).1
  have hzsroom : s.tr.queue.length + zs.length ≤ Config.trQcap := by omega
  have hxsmax := length_le_of_room hroom
  refine ⟨ys, zs, syms, outs, fir, fll, trDrop last, cos, trReady last, k1, k2, k3, k4, ?_, fun hen => ?_, fun hen => ?_,
    ?_, ?_, ?_⟩
  · rw [execFirFilterBlock_configured hfir hxsmax, hys]
  · rw [hen, fllStage_enabled] at hzs
    rw [execFllProcess_configured (s := { s with nanDraws := k1 }) (hfll hen) (hyslen ▸ hxsmax), hzs]
  · rw [hen, fllStage_disabled] at hzs
    cases hzs
    exact ⟨rfl, rfl, rfl⟩
  · rw [execTrProcess_configured (s := { s with nanDraws := k2 }) htr hzsroom hsyms, statusWord_moreBit]
    rfl
  · have hsymsmax : syms.length ≤ (0xFFFFFFFF : Word).toNat := hle.trans (Nat.le_pred_of_lt cap.isLt)
    rw [execCostasProcess_configured (s := { s with nanDraws := k3 }) hcos hsymsmax, houts]
  · rw [execPipeProcess_configured hcfg hroom (pipeSymbols_run hys hzs hsyms houts), statusWord_moreBit]
    rfl

end Sys2Proof.Claims
end

section
/-!
PROOF. Errors and the checks before them (60_exceptions.md): every step answers a next state (R403), an error leaves the
rest of the state alone (R401, R402), and the checks that a process command makes before it takes a sample (R404, R443).
-/

namespace Sys2Proof.Machine

/-! ## A run goes on -/

/-- A step runs a command, rejects a header or holds, and each of them answers a next state (R403). -/
theorem step_next (s : State) : ∃ t, step s = .next t := by
  cases hd : decode s.cmdIn with
  | command i rest =>
    obtain ⟨u, hu⟩ := exec_next i s
    exact ⟨_, step_command hd hu⟩
  | illegalOpcode rest => exact ⟨_, step_illegalOpcode hd⟩
  | truncated => exact ⟨s, by simp only [step, hd]⟩
  | idle => exact ⟨s, by simp only [step, hd]⟩

/-- The first step of a machine's run. -/
theorem run_succ {M : Host.Core} {s t : M.State} (h : M.step s = .next t) (k : Nat) : M.run (k + 1) s = M.run k t := by
  rw [Host.Core.run, h]

/-! ## What an error leaves -/

/-- A completion's response carries no error (R117). -/
theorem errOf_complete {s t : State} {more : Bool} {ws : List Word} (h : t.resp = s.resp ++ statusWord 0 more :: ws) :
    Claims.errOf s t = 0 := by
  rw [Claims.errOf, statusOf_of_resp h, statusWord_err]
  rfl

/-- An error's code is in its response (R117, R401). -/
theorem errOf_raise (e : ErrorCode) (s : State) :
    Claims.errOf s (s.emit [statusWord (errorNumber e) false]) = (errorNumber e).toNat := by
  rw [Claims.errOf, statusOf_of_resp (State.emit_resp s _), statusWord_err]

/-! ## The checks of a process command -/

/-- On a block that is not constructed the first check answers, whatever the others say (R404, R443). -/
theorem check_notConfigured {cfg : Bool} (hcfg : cfg = false) (s : State) (r : Result) :
    (if cfg = false then raise .notConfigured s else r) = .next (Claims.failed s 0x03) :=
  (if_pos hcfg).trans (raise_eq_failed .notConfigured s)

/-- On a constructed block a failing second check answers its own error (R404). -/
theorem check_configured {cfg : Bool} (hcfg : cfg = true) {c : Prop} [Decidable c] (hc : c) (e : ErrorCode) (s : State)
    (r : Result) : (if cfg = false then raise .notConfigured s else if c then raise e s else r) =
      .next (Claims.failed s (BitVec.ofNat 32 (errorNumber e).toNat)) := by
  rw [if_neg (ne_false_of_eq_true hcfg), if_pos hc, raise_eq_failed]

/-- A stage that PIPE_PROCESS asks for is missing (R373). -/
theorem pipeConfigured_eq_false_iff (s : State) : pipeConfigured s = false ↔
    s.fir.cfg = false ∨ s.tr.cfg = false ∨ s.cos.cfg = false ∨ s.fr.cfg = false ∨
      (s.pipe.fllEn = true ∧ s.fll.cfg = false) := by
  simp only [← Bool.not_eq_true, pipeConfigured_iff, not_and_or, Classical.not_imp]

end Sys2Proof.Machine

namespace Sys2Proof.Claims

open Sys2Proof.Machine

/-- Settles O8, by induction on the number of steps: each one answers a next state (`step_next`). -/
theorem noRunEverStops : Obligations.NoRunEverStops := by
  intro s k
  induction k generalizing s with
  | zero => exact ⟨s, rfl⟩
  | succ k ih =>
    obtain ⟨t, ht⟩ := step_next s
    obtain ⟨u, hu⟩ := ih t
    exact ⟨u, (run_succ ht k).trans hu⟩

/-- Settles O9: a command raises one error or completes (`exec_ends`), and a completion's response carries no error. -/
theorem failedCommandChangesNothing : Obligations.FailedCommandChangesNothing := by
  refine ⟨fun i s t ht herr => ?_, fun s t rest hd ht => ?_⟩
  · obtain ⟨e, he⟩ | ⟨more, ws, u, hu, -, -, hresp⟩ := exec_ends i s
    · obtain rfl := (raise_next_iff _ _ _).1 (he.symm.trans ht)
      rw [errOf_raise, ← statusWord_error]
      rfl
    · obtain rfl := (complete_next_iff _ _ _ _).1 (hu.symm.trans ht)
      exact absurd (errOf_complete (by rw [State.emit_resp, hresp])) herr
  · cases (step_illegalOpcode hd).symm.trans ht
    rfl

/-- Settles O11: the first failing check answers (`check_notConfigured`, `check_configured`), before any sample is taken. -/
theorem processCommandsCheckBlockSpanAndQueue : Obligations.ProcessCommandsCheckBlockSpanAndQueue := by
  intro s cap re im xs n ws
  refine ⟨fun hfir => ⟨?_, check_notConfigured hfir s _, check_notConfigured hfir s _⟩,
    fun hfll => check_notConfigured hfll s _, fun hcos => check_notConfigured hcos s _,
    fun htr => check_notConfigured htr s _, fun hfr => check_notConfigured hfr s _,
    fun hstage => check_notConfigured ((pipeConfigured_eq_false_iff s).2 hstage) s _,
    fun hcap => ⟨fun hfir => ⟨?_, ?_⟩, fun hfll => ?_, fun hcos => ?_⟩,
    fun hqueue => ⟨fun htr => ?_, fun hfir htr hcos hfr hfll => ?_⟩⟩
  -- FIR_FILTER, whose `N` is zero
  · rw [exec, execFirFilter, if_neg (not_not.2 rfl), check_notConfigured hfir]
  -- CAPACITY
  · exact check_configured hfir hcap .capacity s _
  · exact check_configured hfir hcap .capacity s _
  · exact check_configured hfll hcap .capacity s _
  · exact check_configured hcos hcap .capacity s _
  -- QUEUE_OVERFLOW
  · exact check_configured htr hqueue .queueOverflow s _
  · exact check_configured ((pipeConfigured_iff s).2 ⟨hfir, htr, hcos, hfr, hfll⟩) hqueue .queueOverflow s _

end Sys2Proof.Claims
end
